-- ==== Sys2Proof/Word.lean ====
section
/-! DEFINITION. The plain data of the bus: bytes, 16-bit words, bus values, the three access widths and the two byte
orders (00_scope.md R9, R11, R13; 20_memory.md R60, R61, R63). -/

namespace Sys2Proof

/-- One byte of memory. -/
abbrev Byte := BitVec 8

/-- One 16-bit word: a copper instruction word or the value of a block register (R10, R40). -/
abbrev Word16 := BitVec 16

/-- A value on the bus, wide enough for a long; a narrower access uses the low bytes (R13, R63). -/
abbrev BusValue := BitVec 32

/-- The widths of a bus transaction (20_memory.md R63). -/
inductive Width where
  | byte
  | word
  | long
deriving DecidableEq, Repr, Inhabited

/-- Bytes of a width: 1, 2 and 4 (R9, R63). -/
def Width.bytes : Width → Nat
  | .byte => 1
  | .word => 2
  | .long => 4

/-- A transaction is a read or a write and nothing else (R60, R76). -/
inductive BusKind where
  | read
  | write
deriving DecidableEq, Repr, Inhabited

/-- BYTE_ORDER (20_memory.md R61). -/
inductive ByteOrder where
  | big
  | little
deriving DecidableEq, Repr, Inhabited

/-- What one bus access asks for: kind, address, width, and the value of a write (R41). -/
structure BusOp where
  kind : BusKind
  addr : Nat
  width : Width
  value : BusValue
deriving DecidableEq, Repr, Inhabited

end Sys2Proof
end

