-- ==== Sys2Proof/Config.lean ====
section
/-! DEFINITION. The configuration parameters of 00_scope.md R8 as plain data, the inputs of one tick (10_state.md R44)
as plain data, and the one opaque free value of the model. The functions that read a configuration are in
Machine/Params.lean; its checks (R283) are in Machine/ConfigCheck.lean. -/

namespace Sys2Proof

/-- The DMA channels that can exist (R8 CHANNELS, 10_state.md R26). The copper is a channel (R190). -/
inductive Channel where
  | bitplane (i : Nat)
  | copper
  | blitter
  | disk
  | audio
  | sprite (j : Nat)
deriving DecidableEq, Repr, Inhabited

/-- SlotOwner (10_state.md R26): CPU, Refresh, one of the channels, or None (`noOwner`). -/
inductive SlotOwner where
  | cpu
  | refresh
  | channel (c : Channel)
  | noOwner
deriving DecidableEq, Repr, Inhabited

/-- Component kinds (R25): CPU, DMA-channel-kind (the kind Copper is `channel .copper`), Timer-kind, and any other
registered collaborator such as video. -/
inductive ComponentKind where
  | cpu
  | channel (c : Channel)
  | timer
  | collaborator
deriving DecidableEq, Repr, Inhabited

/-- A registration: (id, kind, divisor, phase) (R8 COMPONENTS, R25, R110). -/
structure Component where
  id : Nat
  kind : ComponentKind
  divisor : Nat
  phase : Nat
deriving DecidableEq, Repr, Inhabited

/-- A set of ticks: those T with lo <= T mod period <= hi. With period 0 the bounds are absolute ticks. A list of
windows is the union of its members, so every predicate on ticks can be written (log 2). -/
structure Window where
  period : Nat
  lo : Nat
  hi : Nat
deriving DecidableEq, Repr, Inhabited

/-- One entry of MAPPED: an access that starts in [base, base + size) and has one of the supported widths hits this
region (R8 MAPPED, R64; log 2). -/
structure MapRegion where
  base : Nat
  size : Nat
  byte : Bool
  word : Bool
  long : Bool
deriving DecidableEq, Repr, Inhabited

/-- A range of byte addresses [base, base + size). -/
structure AddrRange where
  base : Nat
  size : Nat
deriving DecidableEq, Repr, Inhabited

/-- One channel of CHANNELS with its parameters UNITS(c), DMA_BIT(c) and SLOT_WINDOW(c, ·) (R8). UNITS of the copper is
not read: UNITS is a parameter of non-copper channels. -/
structure ChannelConfig where
  chan : Channel
  units : Nat
  dmaBit : Nat
  windows : List Window
deriving DecidableEq, Repr, Inhabited

/-- The configuration parameters of R8, in the order of its table. Parameters that are functions are tables (log 2). -/
structure Config where
  /-- CRYSTAL_HZ -/
  crystalHz : Nat
  /-- REGION, any label -/
  region : String
  /-- FPS_NUM -/
  fpsNum : Nat
  /-- FPS_DEN -/
  fpsDen : Nat
  /-- COMPONENTS, in order -/
  components : List Component
  /-- CHANNELS with UNITS, DMA_BIT and SLOT_WINDOW -/
  channels : List ChannelConfig
  /-- NBITPLANES -/
  nBitplanes : Nat
  /-- NSPRITES -/
  nSprites : Nat
  /-- CHANNEL_ORDER -/
  channelOrder : List Channel
  /-- REFRESH_DUE -/
  refresh : List Window
  /-- CONTENTION_COST where it is not the default 1 -/
  contention : List (SlotOwner × Nat)
  /-- ADDR_BITS -/
  addrBits : Nat
  /-- BYTE_ORDER -/
  byteOrder : ByteOrder
  /-- ALIGN(byte) -/
  alignByte : Nat
  /-- ALIGN(word) -/
  alignWord : Nat
  /-- ALIGN(long) -/
  alignLong : Nat
  /-- MAPPED -/
  mapped : List MapRegion
  /-- the mapped addresses that behave as plain byte-addressed storage, the platform's property of R69 (log 4) -/
  storage : List AddrRange
  /-- REG_BASE -/
  regBase : Nat
  /-- COPPER_LIST_BASE -/
  copperListBase : Nat
  /-- the register offsets for which COPPER_MOVE_ALLOWED is false -/
  moveForbidden : List (BitVec 9)
  /-- INTC_ENABLE_ADDR -/
  intcEnableAddr : Nat
  /-- INTC_PENDING_ADDR -/
  intcPendingAddr : Nat
  /-- DMAEN_ADDR -/
  dmaenAddr : Nat
  /-- NSRC -/
  nSrc : Nat
  /-- LEVEL_OF(0), LEVEL_OF(1), ... -/
  levels : List Nat
  /-- VPOS_BITS -/
  vposBits : Nat
deriving DecidableEq, Repr, Inhabited

/-- The block's inputs at one tick (10_state.md R44), plus the transfer a granted channel's chip logic presents (R70;
log 11). Each is sampled once, in P1. -/
structure TickIn where
  /-- IN.beam: hPos -/
  hPos : BitVec 8
  /-- IN.beam: vPos, of which VPOS_BITS bits exist -/
  vPos : BitVec 16
  /-- IN.blitterBusy -/
  blitterBusy : Bool
  /-- IN.copRestart -/
  copRestart : Bool
  /-- IN.cpuReq -/
  cpuReq : Option BusOp
  /-- IN.cpuHalted -/
  cpuHalted : Bool
  /-- the channels c for which IN.wantsFetch(c) holds -/
  wants : List Channel
  /-- IN.raise as a mask -/
  raised : BitVec 15
  /-- IN.mem -/
  mem : BusValue
  /-- IN.openBus -/
  openBus : BusValue
  /-- the transfer of the channel that owns the tick, if one does (R70) -/
  xfer : BusOp
deriving DecidableEq, Repr, Inhabited

/-- Inputs under which nothing happens: no request, no raise, no strobe, beam at (0, 0). -/
def TickIn.quiet : TickIn where
  hPos := 0
  vPos := 0
  blitterBusy := false
  copRestart := false
  cpuReq := none
  cpuHalted := false
  wants := []
  raised := 0
  mem := 0
  openBus := 0
  xfer := ⟨.read, 0, .byte, 0⟩

/-- The free inputs of a tick for which State lists none: the draw of R14 and R15. It has no body that Lean can use, so a
proof about it holds for every input (log 3). -/
opaque Config.drawInput (n : Nat) : TickIn

/-- CHANNELS as a list of channels. -/
def Config.chans (cfg : Config) : List Channel := cfg.channels.map (·.chan)

/-- The non-copper channels of CHANNELS, the domain of `s.arb.dma` (10_state.md R27). -/
def Config.dmaChans (cfg : Config) : List Channel := cfg.chans.filter (· ≠ .copper)

/-- The configuration of `State.reset`: the worked configuration of 95_test_vectors.md §3 with the CPU of its program P5,
the frame rate of its §2.2 and, for plain storage, the memory range of its §2.4. The parameters that R8 leaves OPEN have
no value from the spec, so this choice is the model's (DESIGN CHOICE, unsafe, log 1); no statement rests on it. -/
def Config.worked : Config where
  crystalHz := 28375160
  region := "example"
  fpsNum := 50
  fpsDen := 1
  components := [⟨0, .cpu, 1, 0⟩, ⟨1, .channel .copper, 1, 0⟩]
  channels := [⟨.copper, 1, 7, [⟨1, 0, 0⟩]⟩]
  nBitplanes := 0
  nSprites := 0
  channelOrder := [.copper]
  refresh := []
  contention := []
  addrBits := 24
  byteOrder := .big
  alignByte := 1
  alignWord := 2
  alignLong := 2
  mapped := [⟨0, 0x1000000, true, true, true⟩]
  storage := [⟨0, 0x080000⟩]
  regBase := 0xDFF000
  copperListBase := 0x001000
  moveForbidden := []
  intcEnableAddr := 0xDFF09A
  intcPendingAddr := 0xDFF09C
  dmaenAddr := 0xDFF096
  nSrc := 4
  levels := [1, 1, 1, 3]
  vposBits := 9

end Sys2Proof
end

