-- ==== Sys2Proof/Machine/State.lean ====
section
/-! DEFINITION. The machine's state: the block's record s of 10_state.md R21 whole (`Block`), the configuration it runs
under, platform storage, the inputs to come, and the ephemeral values of the tick; the faults and refusals of a step; the
state after reset (70_reset_and_hazards.md R311). -/

namespace Sys2Proof.Machine

/-- Platform storage: the bytes that have been given a value, addresses strictly rising (log 4). -/
abbrev Memory := List Host.Cell

/-- `s.clock` (R22, R24). -/
structure Clock where
  tick : BitVec 64
  frameAcc : Nat
deriving DecidableEq, Repr

/-- The fetch state of a non-copper channel (R27). -/
inductive DmaState where
  | idle
  | requesting
  | fetching (k : Nat)
deriving DecidableEq, Repr

/-- `s.arb` (R27 to R30). `dma` has one entry per non-copper channel, in the configuration's order. -/
structure Arb where
  dma : List (Channel × DmaState)
  cpuWait : Nat
  lastOwner : SlotOwner
  dmaEnable : BitVec 15
deriving DecidableEq, Repr

/-- The copper's states (R31): `fetch0` and `fetch1` are FetchInstruction(0) and FetchInstruction(1). -/
inductive CopState where
  | idle
  | fetch0
  | fetch1
  | executeMove
  | executeWait
  | executeSkip
deriving DecidableEq, Repr

/-- `s.cop.wait` (R34). -/
structure WaitCond where
  vp : BitVec 8
  hp : BitVec 7
  ve : BitVec 7
  he : BitVec 7
  bfd : BitVec 1
deriving DecidableEq, Repr

/-- `s.cop` (R31 to R35). `pc` is an ADDR_BITS-bit value: below 2^ADDR_BITS (log 10). -/
structure Cop where
  state : CopState
  pc : Nat
  ir1 : Word16
  ir2 : Word16
  wait : WaitCond
  blocked : Bool
deriving DecidableEq, Repr

/-- `s.intc` (R36 to R38). `level` is in 0..7. -/
structure Intc where
  pending : BitVec 15
  enable : BitVec 15
  level : Nat
deriving DecidableEq, Repr

/-- The part of the block a fatal diagnostic names (R285: "naming the tick and component"; log 22). -/
inductive FaultSite where
  | clock
  | arbiter
  | copper
  | interruptChain
deriving DecidableEq, Repr

/-- The reasons of a fatal error (60_exceptions.md R280): E_ARB with the owners, E_INV with the invariant's number in
R43. -/
inductive FatalReason where
  | arbitrationConflict (owners : List SlotOwner)
  | invariantViolation (number : Nat)
deriving DecidableEq, Repr

/-- `s.fault`'s content: (reason, tick, component) (R39, R285). -/
structure FatalRecord where
  reason : FatalReason
  tick : BitVec 64
  site : FaultSite
deriving DecidableEq, Repr

/-- `s.refused`'s content (R287) with what R280 says is recorded: X_RSV (pc of the instruction, IR1), X_SNAP nothing. -/
inductive RefuseReason where
  | reservedMoveBits (pc : Nat) (ir1 : Word16)
  | incompatibleSnapshot
deriving DecidableEq, Repr

/-- The block's state s, the record of R21; the snapshot is exactly this record (R264). -/
structure Block where
  clock : Clock
  arb : Arb
  cop : Cop
  intc : Intc
  fault : Option FatalRecord
  refused : Option RefuseReason
deriving DecidableEq, Repr

/-- The block's three guest-visible registers (R40). -/
inductive BlockReg where
  | intcEnable
  | intcPending
  | dmaEn
deriving DecidableEq, Repr

/-- A BusRequest: the access, who asks, and whether it is DMA (R41). -/
structure BusRequest where
  op : BusOp
  requester : SlotOwner
  isDMA : Bool
deriving DecidableEq, Repr

/-- The transaction the owner performs in a tick (R45), with the value read or written and whether it was a bus error. -/
structure Txn where
  request : BusRequest
  busErr : Bool
  data : BusValue
deriving DecidableEq, Repr

/-- The CPU's answer of a tick, `(value?, waitStates, busError)` (R170); on a bus error the access whose address, width
and kind are the error's info (R173). -/
structure CpuAnswer where
  value : Option BusValue
  waitStates : Nat
  busError : Bool
  info : Option BusOp
deriving DecidableEq, Repr

/-- The ephemeral values of one tick (R41, R42), which are also the tick's outputs (R45). P1 and P2 write every field
anew, so nothing passes from one tick to the next here (log 9). -/
structure TickNow where
  /-- the inputs sampled in P1 -/
  inp : TickIn
  /-- the ids of the due set (R112) -/
  due : List Nat
  /-- the CPU stall flag (R176) -/
  stalled : Bool
  /-- the level `sampleInterruptLevel` gives during the tick (R237) -/
  level : Nat
  /-- the owner of the tick; a channel's grant signal is this owner being that channel (R45, R147) -/
  owner : SlotOwner
  /-- the owner's transaction -/
  txn : Option Txn
  /-- a write to a block register, buffered from P3 to P4 (R67) -/
  regWrite : Option (BlockReg × Word16)
  /-- the CPU's answer, when the CPU was a candidate -/
  cpuAnswer : Option CpuAnswer
deriving DecidableEq, Repr

/-- The machine: the block under its configuration, with platform storage and the inputs to come. `cfg`, `mem`,
`inputs`, `drawn` and `now` are the model's own fields, not state of the block (R21; INVENTORY.md). -/
structure State where
  cfg : Config
  blk : Block
  mem : Memory
  /-- the inputs of the coming ticks, first one first -/
  inputs : List TickIn
  /-- how many ticks have drawn free inputs -/
  drawn : Nat
  now : TickNow
deriving DecidableEq, Repr

/-- Why the block has no next tick. -/
inductive Fault where
  /-- P0 finds `s.fault` set: stuck after a fatal error (R114, R285). Raised by `tick`. Safe: the spec gives no step. -/
  | stuckAfterFatal (record : FatalRecord)
  /-- P0 finds the counter at 2^64 - 1: stuck (R114, R118). Raised by `tick`. Safe: the spec gives no step. -/
  | stuckAtTopTick
deriving DecidableEq, Repr

/-- Why the model gives no meaning. -/
inductive Refusal where
  /-- an instruction with no meaning in the model; no arm of `exec` answers it. Safe. -/
  | notModelled (mnemonic : String)
  /-- `refuse ReservedMoveBits` inside a tick (R96, R198): raised by the second fetch step, turned by `tick` into the
  sticky `s.refused` (R287), so no step answers it. Safe: the spec refuses here. -/
  | reservedMoveBits (pc : Nat) (ir1 : Word16)
  /-- P0 finds `s.refused` set: stuck after a refusal (R114, R287). Raised by `tick`. Safe: the spec gives no step. -/
  | stuckAfterRefusal (reason : RefuseReason)
deriving DecidableEq, Repr

/-- The reset values of `s.clock` (R311). -/
def Clock.reset : Clock := ⟨0, 0⟩

/-- The reset values of `s.arb` (R311). -/
def Arb.reset (cfg : Config) : Arb := ⟨cfg.dmaChans.map (fun c => (c, .idle)), 0, .noOwner, 0⟩

/-- The reset values of `s.cop` (R311). -/
def Cop.reset : Cop := ⟨.idle, 0, 0, 0, ⟨0, 0, 0, 0, 0⟩, false⟩

/-- The reset values of `s.intc` (R311). -/
def Intc.reset : Intc := ⟨0, 0, 0⟩

/-- A new block: every field at its reset value, `fault` and `refused` empty (R261, R311). -/
def Block.fresh (cfg : Config) : Block := ⟨Clock.reset, Arb.reset cfg, Cop.reset, Intc.reset, none, none⟩

/-- The ephemeral values before any tick has run (log 9). -/
def TickNow.idle : TickNow := ⟨.quiet, [], false, 0, .noOwner, none, none, none⟩

/-- A newly configured machine (R261). -/
def State.fresh (cfg : Config) : State := ⟨cfg, Block.fresh cfg, [], [], 0, TickNow.idle⟩

/-- The machine right after reset (R311), under the worked configuration (log 1). -/
def State.reset : State := State.fresh Config.worked

end Sys2Proof.Machine
end

