-- ==== Sys2Proof/Machine/Params.lean ====
section
/-! DEFINITION. The parameters of 00_scope.md R8 as functions of a configuration, and the address arithmetic modulo
2^ADDR_BITS of 20_memory.md R62. -/

namespace Sys2Proof.Machine

/-- `a` reduced to ADDR_BITS bits (R62). -/
def wrapAddr (cfg : Config) (a : Nat) : Nat := a % 2 ^ cfg.addrBits

/-- An address sum, modulo 2^ADDR_BITS; the wrap raises no fault (R62). -/
def addAddr (cfg : Config) (a b : Nat) : Nat := wrapAddr cfg (a + b)

/-- Tick `t` lies in the window. -/
def inWindow (t : Nat) (w : Window) : Bool := w.lo ≤ t % w.period && t % w.period ≤ w.hi

/-- REFRESH_DUE(T) (R8, 41_arbiter.md R142). -/
def refreshDue (cfg : Config) (t : Nat) : Bool := cfg.refresh.any (inWindow t)

/-- The entry of a channel in CHANNELS. -/
def channelConfig (cfg : Config) (c : Channel) : Option ChannelConfig := cfg.channels.find? (fun e => e.chan = c)

/-- `c in CHANNELS`. -/
def channelExists (cfg : Config) (c : Channel) : Bool := (channelConfig cfg c).isSome

/-- SLOT_WINDOW(c, T) (R8). -/
def slotWindow (cfg : Config) (c : Channel) (t : Nat) : Bool :=
  match channelConfig cfg c with
  | some e => e.windows.any (inWindow t)
  | none => false

/-- UNITS(c) (R8). -/
def units (cfg : Config) (c : Channel) : Nat :=
  match channelConfig cfg c with
  | some e => e.units
  | none => 1

/-- DMA_BIT(c) (R8). -/
def dmaBit (cfg : Config) (c : Channel) : Nat :=
  match channelConfig cfg c with
  | some e => e.dmaBit
  | none => 15

/-- CONTENTION_COST(o), default 1 (R8, 41_arbiter.md R158). -/
def contentionCost (cfg : Config) (o : SlotOwner) : Nat := (cfg.contention.lookup o).getD 1

/-- ALIGN(w) (R8). -/
def align (cfg : Config) : Width → Nat
  | .byte => cfg.alignByte
  | .word => cfg.alignWord
  | .long => cfg.alignLong

/-- The region supports the width. -/
def regionSupports (r : MapRegion) : Width → Bool
  | .byte => r.byte
  | .word => r.word
  | .long => r.long

/-- MAPPED(a, w): the access hits a mapped region that supports width w (R8, R64). -/
def isMapped (cfg : Config) (a : Nat) (w : Width) : Bool :=
  cfg.mapped.any (fun r => r.base ≤ a && a < r.base + r.size && regionSupports r w)

/-- The address behaves as plain byte-addressed storage (R69; log 4). -/
def isStorage (cfg : Config) (a : Nat) : Bool :=
  cfg.storage.any (fun r => r.base ≤ a && a < r.base + r.size)

/-- COPPER_MOVE_ALLOWED(ra) (R8, 43_copper.md R200). -/
def moveAllowed (cfg : Config) (ra : BitVec 9) : Bool := !cfg.moveForbidden.contains ra

/-- LEVEL_OF(i) (R8, 44_interrupt_chain.md R230). -/
def levelOf (cfg : Config) (i : Nat) : Nat := cfg.levels.getD i 0

/-- The address of a block register (R40). -/
def regAddr (cfg : Config) : BlockReg → Nat
  | .intcEnable => cfg.intcEnableAddr
  | .intcPending => cfg.intcPendingAddr
  | .dmaEn => cfg.dmaenAddr

/-- BlockRegs (R64). -/
def blockRegs : List BlockReg := [.intcEnable, .intcPending, .dmaEn]

/-- The block register at an address, if there is one (R66). -/
def blockRegAt (cfg : Config) (a : Nat) : Option BlockReg := blockRegs.find? (fun r => regAddr cfg r = a)

/-- `M = (1 << NSRC) - 1`, the implemented bits of INTC_PENDING and INTC_ENABLE (R232). -/
def srcMask (cfg : Config) : BitVec 15 := BitVec.ofNat 15 (2 ^ cfg.nSrc - 1)

/-- `M = OR over c in CHANNELS of (1 << DMA_BIT(c))`, the implemented bits of DMAEN (R156). -/
def dmaMask (cfg : Config) : BitVec 15 := cfg.chans.foldr (fun c m => BitVec.ofNat 15 (2 ^ dmaBit cfg c) ||| m) 0

/-- `isDue(c, T) = (T mod D == P)` of a registered component (40_scheduler.md R111). -/
def isDue (c : Component) (t : Nat) : Bool := t % c.divisor == c.phase

/-- The registered component of a kind. -/
def componentOf (cfg : Config) (k : ComponentKind) : Option Component := cfg.components.find? (fun c => c.kind = k)

/-- The component of kind `k` is registered and due at `t` (R111, R143, R171). -/
def kindDue (cfg : Config) (k : ComponentKind) (t : Nat) : Bool :=
  match componentOf cfg k with
  | some c => isDue c t
  | none => false

/-- `Due(T)`, in COMPONENTS order (R112, R114 P3). -/
def dueSet (cfg : Config) (t : Nat) : List Component := cfg.components.filter (fun c => isDue c t)

/-- `N = CRYSTAL_HZ * FPS_DEN` (R120). -/
def frameNum (cfg : Config) : Nat := cfg.crystalHz * cfg.fpsDen

/-- The default CHANNEL_ORDER of CHANNELS: Disk, Audio, Sprites ascending, Bitplanes ascending, Copper, Blitter (R145). -/
def defaultChannelOrder (cfg : Config) : List Channel :=
  ([Channel.disk, Channel.audio] ++ (List.range cfg.nSprites).map Channel.sprite
    ++ (List.range cfg.nBitplanes).map Channel.bitplane
    ++ [Channel.copper, Channel.blitter]).filter (fun c => cfg.chans.contains c)

/-- A channel index is in range: 0 <= i < NBITPLANES, 0 <= j < NSPRITES (R26). -/
def channelInRange (cfg : Config) : Channel → Bool
  | .bitplane i => i < cfg.nBitplanes
  | .sprite j => j < cfg.nSprites
  | _ => true

/-- A value of SlotOwner of this configuration (R26). -/
def ownerInRange (cfg : Config) : SlotOwner → Bool
  | .channel c => channelInRange cfg c
  | _ => true

end Sys2Proof.Machine
end

