-- ==== Sys2Proof/Machine/Ops.lean ====
section
/-! DEFINITION. The named operations on the state: field updates, platform storage, the bus contract of 20_memory.md
R60 to R69, the CPU's bus error (R281), fatal errors (R285) and refusals (R287). -/

namespace Sys2Proof.Machine

/-! ### Field updates -/

/-- Replace `s.clock`. -/
def State.setClock (s : State) (x : Clock) : State := { s with blk := { s.blk with clock := x } }

/-- Replace `s.arb`. -/
def State.setArb (s : State) (x : Arb) : State := { s with blk := { s.blk with arb := x } }

/-- Replace `s.cop`. -/
def State.setCop (s : State) (x : Cop) : State := { s with blk := { s.blk with cop := x } }

/-- Replace `s.intc`. -/
def State.setIntc (s : State) (x : Intc) : State := { s with blk := { s.blk with intc := x } }

/-- Replace `s.fault`. -/
def State.setFault (s : State) (x : Option FatalRecord) : State := { s with blk := { s.blk with fault := x } }

/-- Replace `s.refused`. -/
def State.setRefused (s : State) (x : Option RefuseReason) : State := { s with blk := { s.blk with refused := x } }

/-- Replace the block's whole record. -/
def State.setBlk (s : State) (x : Block) : State := { s with blk := x }

/-- Replace platform storage. -/
def State.setMem (s : State) (x : Memory) : State := { s with mem := x }

/-- Replace the ephemeral values of the tick. -/
def State.setNow (s : State) (x : TickNow) : State := { s with now := x }

/-- `s.cop.state <- x`. -/
def State.setCopState (s : State) (x : CopState) : State := s.setCop { s.blk.cop with state := x }

/-- `s.cop.pc <- x`. -/
def State.setCopPc (s : State) (x : Nat) : State := s.setCop { s.blk.cop with pc := x }

/-- `s.cop.blocked <- x`. -/
def State.setBlocked (s : State) (x : Bool) : State := s.setCop { s.blk.cop with blocked := x }

/-- The tick T being evaluated (40_scheduler.md R113). -/
def State.tickNat (s : State) : Nat := s.blk.clock.tick.toNat

/-! ### Platform storage -/

/-- The byte a storage address was given, `none` when nothing has written it (log 4). -/
def Memory.read : Memory → Nat → Option Byte
  | [], _ => none
  | (a, b) :: rest, x => if x = a then some b else Memory.read rest x

/-- Give a storage address a byte, keeping the addresses strictly rising. -/
def Memory.write : Memory → Nat → Byte → Memory
  | [], x, v => [(x, v)]
  | (a, b) :: rest, x, v =>
    if x < a then (x, v) :: (a, b) :: rest
    else if x = a then (a, v) :: rest
    else (a, b) :: Memory.write rest x v

/-- The canonical form: addresses strictly rising. (An unlisted address reads as no value, so no entry equals it.) -/
def Memory.wf : Memory → Bool
  | [] => true
  | (a, _) :: rest => rest.all (fun e => a < e.1) && Memory.wf rest

/-- Every address lies in the address space of ADDR_BITS bits. -/
def Memory.inSpace (cfg : Config) (m : Memory) : Bool := m.all (fun e => e.1 < 2 ^ cfg.addrBits)

/-! ### Byte order (R61) -/

/-- Byte `j` (0 = least significant) of a bus value. -/
def valueByte (v : BusValue) (j : Nat) : Byte := v.extractLsb' (8 * j) 8

/-- The byte of an n-byte value that lies at offset `j` of its bytes in memory (R61). -/
def byteAtOffset (order : ByteOrder) (n : Nat) (v : BusValue) (j : Nat) : Byte :=
  match order with
  | .big => valueByte v (n - 1 - j)
  | .little => valueByte v j

/-- Bytes, most significant first, as a value. -/
def valueOfBytes : List Byte → BusValue
  | [] => 0
  | b :: bs => (b.setWidth 32 <<< (8 * bs.length)) ||| valueOfBytes bs

/-- The value of bytes given in memory order (R61). -/
def assemble (order : ByteOrder) (bs : List Byte) : BusValue :=
  match order with
  | .big => valueOfBytes bs
  | .little => valueOfBytes bs.reverse

/-- A value cut to an access width (R13). -/
def truncateTo (w : Width) (v : BusValue) : BusValue := v &&& BitVec.ofNat 32 (2 ^ (8 * w.bytes) - 1)

/-! ### The bus contract -/

/-- `overlapsBlockReg(a, w)`: the access touches a byte of a block register (R64). -/
def overlapsBlockReg (cfg : Config) (a : Nat) (w : Width) : Bool :=
  blockRegs.any fun r =>
    (List.range w.bytes).any fun j => (List.range 2).any fun k => addAddr cfg a j == addAddr cfg (regAddr cfg r) k

/-- `busError(a, w)` (R64). -/
def busError (cfg : Config) (a : Nat) (w : Width) : Bool :=
  !isMapped cfg a w || a % align cfg w != 0
    || (overlapsBlockReg cfg a w && !((blockRegAt cfg a).isSome && w == .word))

/-- A block register as a bus read gives it: `{0, reg[14:0]}` (R40, R67, R157, R238). -/
def regRead (b : Block) : BlockReg → Word16
  | .intcEnable => b.intc.enable.setWidth 16
  | .intcPending => b.intc.pending.setWidth 16
  | .dmaEn => b.arb.dmaEnable.setWidth 16

/-- The byte the platform gives at address `a`, offset `j` of an access of n bytes: the latest byte written to plain
storage, otherwise that byte of the input IN.mem (R66, R69, R73; log 4). -/
def platformByte (s : State) (inMem : BusValue) (n a j : Nat) : Byte :=
  let x := addAddr s.cfg a j
  let fromInput := byteAtOffset s.cfg.byteOrder n inMem j
  if isStorage s.cfg x then (Memory.read s.mem x).getD fromInput else fromInput

/-- A platform read (R61, R66, R73). -/
def platformRead (s : State) (inMem : BusValue) (a : Nat) (w : Width) : BusValue :=
  assemble s.cfg.byteOrder ((List.range w.bytes).map (platformByte s inMem w.bytes a))

/-- `MemRead(a, w)` of an access that is no bus error: a block register, otherwise the platform (R66, R67). -/
def memRead (s : State) (inMem : BusValue) (a : Nat) (w : Width) : BusValue :=
  match blockRegAt s.cfg a with
  | some r => (regRead s.blk r).setWidth 32
  | none => platformRead s inMem a w

/-- The value part of a write to storage: byte `j` of the access goes to its address when that is plain storage. -/
def storeByte (cfg : Config) (a n : Nat) (v : BusValue) (m : Memory) (j : Nat) : Memory :=
  let x := addAddr cfg a j
  if isStorage cfg x then Memory.write m x (byteAtOffset cfg.byteOrder n v j) else m

/-- The storage after a platform write of an access (R61, R66, R73). -/
def storeBytes (cfg : Config) (m : Memory) (a : Nat) (w : Width) (v : BusValue) : Memory :=
  (List.range w.bytes).foldl (storeByte cfg a w.bytes v) m

/-- `MemWrite(a, w, v)` of an access that is no bus error: a block register write is buffered to P4, any other write is
handed to the platform (R66, R67). -/
def memWrite (s : State) (a : Nat) (w : Width) (v : BusValue) : State :=
  match blockRegAt s.cfg a with
  | some r => s.setNow { s.now with regWrite := some (r, v.setWidth 16) }
  | none => s.setMem (storeBytes s.cfg s.mem a w v)

/-- Record the owner's transaction of the tick (R45). -/
def State.setTxn (s : State) (requester : SlotOwner) (isDMA : Bool) (op : BusOp) (busErr : Bool) (data : BusValue) :
    State :=
  s.setNow { s.now with txn := some ⟨⟨op, requester, isDMA⟩, busErr, data⟩ }

/-- What a DMA channel or the copper reads: IN.openBus at a bus error, no exception (R65, R282). -/
def dmaReadValue (s : State) (a : Nat) (w : Width) : BusValue :=
  if busError s.cfg a w then truncateTo w s.now.inp.openBus else memRead s s.now.inp.mem a w

/-- A read by a DMA channel or the copper: the state with its transaction recorded (R65, R70, R216). -/
def dmaRead (s : State) (c : Channel) (a : Nat) (w : Width) : State :=
  s.setTxn (.channel c) true ⟨.read, a, w, 0⟩ (busError s.cfg a w) (dmaReadValue s a w)

/-- A write by a DMA channel or the copper: dropped at a bus error, no exception (R65, R282). -/
def dmaWrite (s : State) (c : Channel) (a : Nat) (w : Width) (v : BusValue) : State :=
  let s' := if busError s.cfg a w then s else memWrite s a w v
  s'.setTxn (.channel c) true ⟨.write, a, w, v⟩ (busError s.cfg a w) v

/-- A channel's own transfer, as its chip logic presents it (R70). -/
def dmaTransfer (s : State) (c : Channel) (op : BusOp) : State :=
  match op.kind with
  | .read => dmaRead s c op.addr op.width
  | .write => dmaWrite s c op.addr op.width op.value

/-! ### Signalling to the CPU, stopping, refusing -/

/-- `raise BusError(a, w, kind)`: the one exception the block signals. Nothing is read or written; the CPU's answer is
`(none, 0, true)` with the info (R173, R281). The block saves nothing and transfers control nowhere (R292). -/
def raiseBusError (s : State) (op : BusOp) : State :=
  let t := s.setTxn .cpu false op true 0
  t.setNow { t.now with cpuAnswer := some ⟨none, 0, true, some op⟩ }

/-- `fatal <Reason>(T, component)`: every other effect of the tick is discarded (R285). -/
def recordFatal (s : State) (reason : FatalReason) (site : FaultSite) : State :=
  s.setFault (some ⟨reason, s.blk.clock.tick, site⟩)

/-- `refuse <Reason>`: sticky, the first reason stays (R39), every other effect of the tick or call is discarded
(R287). -/
def recordRefusal (s : State) (reason : RefuseReason) : State :=
  s.setRefused (some (s.blk.refused.getD reason))

end Sys2Proof.Machine
end

