-- ==== Sys2Proof/Machine/Arbiter.lean ====
section
/-! DEFINITION. The bus arbiter of 41_arbiter.md: request states, eligibility, the priority ladder, and the CPU's
candidacy of 42_cpu_bus_contract.md R171. -/

namespace Sys2Proof.Machine

/-- `s.arb.dma[c]`; a channel that has no entry is Idle. -/
def dmaState (a : Arb) (c : Channel) : DmaState := (a.dma.lookup c).getD .idle

/-- `s.arb.dma[c] <- d`; writes only an entry that exists (R27). -/
def setDma (a : Arb) (c : Channel) (d : DmaState) : Arb :=
  { a with dma := a.dma.map (fun e => if e.1 = c then (e.1, d) else e) }

/-- `enabled(c)`: the DMAEN bit of the channel at the start of the tick (R144). -/
def enabled (s : State) (c : Channel) : Bool := s.blk.arb.dmaEnable.getLsbD (dmaBit s.cfg c)

/-- `isDue(c, T)` for a channel's registered component (R143). -/
def channelDue (s : State) (c : Channel) : Bool := kindDue s.cfg (.channel c) s.tickNat

/-- `eligible(c, T)` (R144). -/
def eligible (s : State) (c : Channel) : Bool :=
  channelExists s.cfg c && enabled s c && channelDue s c && slotWindow s.cfg c s.tickNat

/-- The copper's states that count as mid-fetch (R143). -/
def copMidFetch (c : Cop) : Bool :=
  !c.blocked && (c.state == .fetch1 || c.state == .executeMove || c.state == .executeWait || c.state == .executeSkip)

/-- The copper's requesting state (R143). -/
def copRequesting (c : Cop) : Bool := !c.blocked && c.state == .fetch0

/-- `midFetch(c)` (R143). -/
def midFetch (s : State) (c : Channel) : Bool :=
  if c = .copper then copMidFetch s.blk.cop
  else match dmaState s.blk.arb c with
    | .fetching _ => true
    | _ => false

/-- `IN.wantsFetch(c, T)` (R44). -/
def wantsFetch (s : State) (c : Channel) : Bool := s.now.inp.wants.contains c

/-- `requesting(c, T)` (R143). -/
def requesting (s : State) (c : Channel) : Bool :=
  if c = .copper then copRequesting s.blk.cop
  else match dmaState s.blk.arb c with
    | .requesting => true
    | .idle => channelDue s c && wantsFetch s c
    | .fetching _ => false

/-- `cpuCandidate(T, stalled)` (R171). -/
def cpuCandidate (s : State) : Bool :=
  kindDue s.cfg .cpu s.tickNat && !s.now.stalled && !s.now.inp.cpuHalted && s.now.inp.cpuReq.isSome

/-- The first channel of CHANNEL_ORDER that is eligible and mid-fetch: rung 2 (R141, R145). -/
def rungMidFetch (s : State) : Option Channel := s.cfg.channelOrder.find? (fun c => eligible s c && midFetch s c)

/-- The first channel of CHANNEL_ORDER that is eligible and requesting: rung 3 (R141, R145). -/
def rungRequesting (s : State) : Option Channel := s.cfg.channelOrder.find? (fun c => eligible s c && requesting s c)

/-- The priority ladder (R141): refresh, mid-fetch channel, requesting channel, CPU, nobody. -/
def ladder (s : State) : SlotOwner :=
  if refreshDue s.cfg s.tickNat then .refresh
  else match rungMidFetch s with
    | some c => .channel c
    | none =>
      match rungRequesting s with
      | some c => .channel c
      | none => if cpuCandidate s then .cpu else .noOwner

/-- Phase P2: the owner of the tick (R114, R141). -/
def arbitrate (s : State) : State := s.setNow { s.now with owner := ladder s }

/-- The stall count that P4 commits (42_cpu_bus_contract.md R175). -/
def nextCpuWait (s : State) : Nat :=
  if cpuCandidate s && s.now.owner != .cpu then contentionCost s.cfg s.now.owner else s.blk.arb.cpuWait - 1

end Sys2Proof.Machine
end

