-- ==== Sys2Proof/Machine/Channels.lean ====
section
/-! DEFINITION. The entry point of a non-copper DMA channel: request, grant, wait, hold (41_arbiter.md R146 to R150). -/

namespace Sys2Proof.Machine

/-- The stored state after a granted tick (R147): unit 0 of a new fetch, or unit k. -/
def afterGrant (unitCount : Nat) : DmaState → DmaState
  | .fetching k => if k + 1 = unitCount then .idle else .fetching (k + 1)
  | _ => if unitCount = 1 then .idle else .fetching 1

/-- The channel's wish is taken up (R146): Idle, due, enabled and wanting, without owning the tick. -/
def takesWish (s : State) (c : Channel) : Bool :=
  dmaState s.blk.arb c == .idle && channelDue s c && enabled s c && wantsFetch s c

/-- The entry point of channel `c` (R146 to R149). On an owned tick it makes one transfer and moves one unit. -/
def channelStep (c : Channel) (s : State) : State :=
  if !channelExists s.cfg c then s
  else if s.now.owner = .channel c then
    (dmaTransfer s c s.now.inp.xfer).setArb
      (setDma s.blk.arb c (afterGrant (units s.cfg c) (dmaState s.blk.arb c)))
  else if takesWish s c then s.setArb (setDma s.blk.arb c .requesting)
  else s

end Sys2Proof.Machine
end

