-- ==== Sys2Proof/Machine/Flags.lean ====
section
/-! DEFINITION. The one condition the block computes: the beam comparison and the blitter term of WAIT and SKIP
(43_copper.md R205, R206). The block has no condition codes and stores no result of it (10_state.md R46). -/

namespace Sys2Proof.Machine

/-- `vmask = 0x80 | zext_8(ve)`: vPos bit 7 is always compared (R205). -/
def vMask (ve : BitVec 7) : BitVec 8 := 0x80#8 ||| ve.setWidth 8

/-- A comparison key: the masked vertical value above the masked horizontal one, 15 bits (R205). -/
def beamKeyOf (v : BitVec 8) (h : BitVec 7) (ve he : BitVec 7) : BitVec 15 :=
  (v &&& vMask ve).setWidth 15 <<< 7 ||| (h &&& he).setWidth 15

/-- The key of a beam position: vPos[7:0] and hPos[7:1] (R205). -/
def beamKey (w : WaitCond) (hPos : BitVec 8) (vPos : BitVec 16) : BitVec 15 :=
  beamKeyOf (vPos.extractLsb' 0 8) (hPos.extractLsb' 1 7) w.ve w.he

/-- The key of a target (R205). -/
def targetKey (w : WaitCond) : BitVec 15 := beamKeyOf w.vp w.hp w.ve w.he

/-- `beamOK`: the unsigned comparison beamKey >= tgtKey (R205). -/
def beamOK (w : WaitCond) (hPos : BitVec 8) (vPos : BitVec 16) : Bool :=
  (targetKey w).toNat ≤ (beamKey w hPos vPos).toNat

/-- `cond(T) = beamOK and (bfd = 1 or not IN.blitterBusy(T))` (R206). -/
def waitHolds (w : WaitCond) (i : TickIn) : Bool := beamOK w i.hPos i.vPos && (w.bfd == 1#1 || !i.blitterBusy)

end Sys2Proof.Machine
end

