-- ==== Sys2Proof/Syntax.lean ====
section
/-! DEFINITION. The copper instruction set: one constructor per row of spec/opcode_table.json, with the operands of the
assembler syntax of 30_encoding.md R99, and the pseudo-instructions of R100. -/

namespace Sys2Proof

/-- A copper instruction (00_scope.md R2; 30_encoding.md R92 to R95, R99). `ra` is the register's byte offset, `hp` and
`he` are written on hPos, so bit 0 of each of the three is 0 in a well-formed instruction (WellFormed.lean). -/
inductive Instr where
  /-- `MOVE #data, ra` (R93, R199): write `data` as a word to REG_BASE + ra. -/
  | move (ra : BitVec 9) (data : Word16)
  /-- `WAIT vp, hp, ve, he, bfd` (R94, R201): block until the beam reaches the target. -/
  | wait (vp : BitVec 8) (hp : BitVec 8) (ve : BitVec 7) (he : BitVec 8) (bfd : BitVec 1)
  /-- `SKIP vp, hp, ve, he, bfd` (R94, R202): discard the next instruction if the beam has reached the target. -/
  | skip (vp : BitVec 8) (hp : BitVec 8) (ve : BitVec 7) (he : BitVec 8) (bfd : BitVec 1)
deriving DecidableEq, Repr

/-- `WAIT vp, hp` with the optional operands at their defaults ve = 0x7F, he = 0xFE, bfd = 1 (R99). -/
def Instr.waitDefault (vp hp : BitVec 8) : Instr := .wait vp hp 0x7F 0xFE 1

/-- `SKIP vp, hp` with the optional operands at their defaults (R99). -/
def Instr.skipDefault (vp hp : BitVec 8) : Instr := .skip vp hp 0x7F 0xFE 1

/-- The pseudo-instruction `END` = `WAIT 0xFF, 0xFE, 0x7F, 0xFE, 1` (R100). -/
def Instr.pseudoEnd : Instr := .wait 0xFF 0xFE 0x7F 0xFE 1

/-- The pseudo-instruction `NOP` = `WAIT 0, 0, 0, 0, 1` (R100). -/
def Instr.pseudoNop : Instr := .wait 0 0 0 0 1

/-- The pseudo-instruction `WAITV vp` = `WAIT vp, 0, 0x7F, 0, 1` (R100). -/
def Instr.pseudoWaitV (vp : BitVec 8) : Instr := .wait vp 0 0x7F 0 1

end Sys2Proof
end

