-- ==== Sys2Proof/WellFormed.lean ====
section
/-! DEFINITION. What an assembler must reject (30_encoding.md R99): an odd register offset, an odd horizontal target, an
odd horizontal mask. (A value out of range, the other rejection of R99, cannot be written: the operand types are the
ranges; an `ra` above 0x1FE is 0x1FF, which is odd.) -/

namespace Sys2Proof

/-- The assembler's rejections (R99). -/
inductive IllFormed where
  /-- an odd `ra` (or the one 9-bit value above 0x1FE) -/
  | oddRegister
  /-- an odd `hp` -/
  | oddHorizontal
  /-- an odd `he` -/
  | oddHorizontalMask
deriving DecidableEq, Repr

/-- Bit 0 is clear. -/
def evenBits {n : Nat} (v : BitVec n) : Bool := !v.getLsbD 0

/-- The first reason the assembler rejects an instruction, if any (R99). -/
def Instr.illFormed : Instr → Option IllFormed
  | .move ra _ => if evenBits ra then none else some .oddRegister
  | .wait _ hp _ he _ =>
    if !evenBits hp then some .oddHorizontal else if !evenBits he then some .oddHorizontalMask else none
  | .skip _ hp _ he _ =>
    if !evenBits hp then some .oddHorizontal else if !evenBits he then some .oddHorizontalMask else none

/-- A well-formed instruction: one the assembler accepts (R99). -/
def Instr.wf (i : Instr) : Bool := i.illFormed.isNone

end Sys2Proof
end

