-- ==== Sys2Proof/Decode.lean ====
section
/-! DEFINITION. The copper decoder, total on any words and on any bytes and rejecting by name, the encoder, and the
host's `decodeTableWord` (30_encoding.md R90 to R98; 43_copper.md R198; spec/opcode_table.json). -/

namespace Sys2Proof

/-- Why the decoder gives no instruction. -/
inductive DecodeError where
  /-- a MOVE with a reserved bit IR1[15:9] set (R96) -/
  | reservedMoveBits
  /-- fewer than the four bytes of an instruction (R90) -/
  | tooShort
deriving DecidableEq, Repr

/-- A 7-bit field as an even 8-bit operand: the field is bits 7..1 (R95, R99). -/
def evenOperand (f : BitVec 7) : BitVec 8 := f.setWidth 8 <<< 1

/-- The 7-bit field of an even 8-bit operand: `hp >> 1`, `he >> 1` (R99). -/
def fieldOf (v : BitVec 8) : BitVec 7 := v.extractLsb' 1 7

/-- `ra = {IR1[8:1], 0}`, the byte offset of the MOVE's register (R93, R95). -/
def raOf (ir1 : Word16) : BitVec 9 := (ir1.extractLsb' 1 8).setWidth 9 <<< 1

/-- The reserved bits IR1[15:9] of a MOVE (R93, R96). -/
def reservedOf (ir1 : Word16) : BitVec 7 := ir1.extractLsb' 9 7

/-- VP = IR1[15:8] (R94). -/
def vpOf (ir1 : Word16) : BitVec 8 := ir1.extractLsb' 8 8

/-- HP = IR1[7:1] (R94). -/
def hpOf (ir1 : Word16) : BitVec 7 := ir1.extractLsb' 1 7

/-- BFD = IR2[15] (R94). -/
def bfdOf (ir2 : Word16) : BitVec 1 := ir2.extractLsb' 15 1

/-- VE = IR2[14:8] (R94). -/
def veOf (ir2 : Word16) : BitVec 7 := ir2.extractLsb' 8 7

/-- HE = IR2[7:1] (R94). -/
def heOf (ir2 : Word16) : BitVec 7 := ir2.extractLsb' 1 7

/-- Decode a word pair (R92, R96): IR1[0] = 0 is MOVE, refused when a reserved bit is set; IR1[0] = 1 is WAIT or SKIP by
IR2[0]. -/
def decodeWords (ir1 ir2 : Word16) : Except DecodeError Instr :=
  if ir1.getLsbD 0 then
    if ir2.getLsbD 0 then
      .ok (.skip (vpOf ir1) (evenOperand (hpOf ir1)) (veOf ir2) (evenOperand (heOf ir2)) (bfdOf ir2))
    else
      .ok (.wait (vpOf ir1) (evenOperand (hpOf ir1)) (veOf ir2) (evenOperand (heOf ir2)) (bfdOf ir2))
  else if reservedOf ir1 = 0#7 then .ok (.move (raOf ir1) ir2)
  else .error .reservedMoveBits

/-- Two bytes in memory order as a word (20_memory.md R61). -/
def wordOfBytes (order : ByteOrder) (b0 b1 : Byte) : Word16 :=
  match order with
  | .big => b0.setWidth 16 <<< 8 ||| b1.setWidth 16
  | .little => b1.setWidth 16 <<< 8 ||| b0.setWidth 16

/-- The bytes of a word in memory order (R61). -/
def bytesOfWord (order : ByteOrder) (w : Word16) : List Byte :=
  match order with
  | .big => [w.extractLsb' 8 8, w.extractLsb' 0 8]
  | .little => [w.extractLsb' 0 8, w.extractLsb' 8 8]

/-- Decode the instruction at the front of a list of bytes, with the rest of the list: IR1 first, IR2 second, each in
the byte order (R90, R61). -/
def decodeBytes (order : ByteOrder) : List Byte → Except DecodeError (Instr × List Byte)
  | b0 :: b1 :: b2 :: b3 :: rest =>
    match decodeWords (wordOfBytes order b0 b1) (wordOfBytes order b2 b3) with
    | .ok i => .ok (i, rest)
    | .error e => .error e
  | _ => .error .tooShort

/-- IR1 of a WAIT or SKIP: `{vp, hp[7:1], 1}` (R99). -/
def beamWord1 (vp hp : BitVec 8) : Word16 := vp.setWidth 16 <<< 8 ||| (fieldOf hp).setWidth 16 <<< 1 ||| 1#16

/-- IR2 of a WAIT or SKIP: `{bfd, ve, he[7:1], s}` (R99). -/
def beamWord2 (ve : BitVec 7) (he : BitVec 8) (bfd s : BitVec 1) : Word16 :=
  bfd.setWidth 16 <<< 15 ||| ve.setWidth 16 <<< 8 ||| (fieldOf he).setWidth 16 <<< 1 ||| s.setWidth 16

/-- The two words of an instruction (R99): for MOVE IR1 = `{0000000, ra[8:1], 0}` and IR2 = data. -/
def encode : Instr → Word16 × Word16
  | .move ra data => ((ra.extractLsb' 1 8).setWidth 16 <<< 1, data)
  | .wait vp hp ve he bfd => (beamWord1 vp hp, beamWord2 ve he bfd 0#1)
  | .skip vp hp ve he bfd => (beamWord1 vp hp, beamWord2 ve he bfd 1#1)

/-- The opcode table's value of a word pair, `W = {IR1, IR2}` (R91). -/
def wordPair (ir1 ir2 : Word16) : BitVec 32 := ir1.setWidth 32 <<< 16 ||| ir2.setWidth 32

/-- The opcode table's value of an instruction (R91). -/
def encodeW (i : Instr) : BitVec 32 := wordPair (encode i).1 (encode i).2

/-- The bytes of an instruction as they lie in memory (R99: two words per instruction, in BYTE_ORDER). -/
def encodeBytes (order : ByteOrder) (i : Instr) : List Byte :=
  bytesOfWord order (encode i).1 ++ bytesOfWord order (encode i).2

/-- IR1 of a table value W: bits 31..16 (R91). -/
def ir1OfW (w : Nat) : Word16 := BitVec.ofNat 16 (w / 65536)

/-- IR2 of a table value W: bits 15..0 (R91). -/
def ir2OfW (w : Nat) : Word16 := BitVec.ofNat 16 w

/-- The instruction the decoder reads from the table value `w` of a row of `nbits` bits (bits from `nbits` on are 0). W is
numbered as spec/opcode_table.json and R91 number it: IR1 is W[31:16] and lies first in memory, IR2 is W[15:0]
(DEDUCED, log 6). The words are laid out in the default byte order, Big, and given to the byte decoder. -/
def decodeTableWord (nbits w : Nat) : Option Instr :=
  let v := w % 2 ^ nbits
  match decodeBytes .big (bytesOfWord .big (ir1OfW v) ++ bytesOfWord .big (ir2OfW v)) with
  | .ok (i, _) => some i
  | .error _ => none

end Sys2Proof
end

