-- ==== Sys2Proof/Machine/Operands.lean ====
section
/-! DEFINITION. The operands of the copper's instructions (30_encoding.md R95; 43_copper.md R199, R201, R202) and the
instruction the copper's registers hold at its execute tick. -/

namespace Sys2Proof.Machine

/-- The wait condition of WAIT and SKIP operands (R94, R95, R99): `hp` and `he` are written on hPos, so their fields are
bits 7..1. -/
def waitOf (vp hp : BitVec 8) (ve : BitVec 7) (he : BitVec 8) (bfd : BitVec 1) : WaitCond :=
  ⟨vp, fieldOf hp, ve, fieldOf he, bfd⟩

/-- The bus address of a MOVE's target, `REG_BASE + ra` modulo 2^ADDR_BITS (R95, R199). -/
def moveTarget (cfg : Config) (ra : BitVec 9) : Nat := addAddr cfg cfg.regBase ra.toNat

/-- The address of the next instruction word, `COPPER_LIST_BASE + pc` modulo 2^ADDR_BITS (R197, R198, R216). -/
def listAddr (s : State) : Nat := addAddr s.cfg s.cfg.copperListBase s.blk.cop.pc

/-- `s.cop.pc` plus n, modulo 2^ADDR_BITS (R32, R62). -/
def pcPlus (s : State) (n : Nat) : Nat := addAddr s.cfg s.blk.cop.pc n

/-- The pc of the instruction whose first word has been fetched: two bytes back, modulo 2^ADDR_BITS (R197, R280). -/
def instrPc (s : State) : Nat := addAddr s.cfg s.blk.cop.pc (2 ^ s.cfg.addrBits - 2)

/-- The wait condition that the second fetch step stores (R198). -/
def fetchedWait (ir1 ir2 : Word16) : WaitCond := ⟨vpOf ir1, hpOf ir1, veOf ir2, heOf ir2, bfdOf ir2⟩

/-- The instruction the copper executes in its execute states, from the registers the rules read: MOVE from IR1 and IR2
(R199), WAIT and SKIP from the stored wait condition (R201, R202). -/
def currentInstr (c : Cop) : Option Instr :=
  match c.state with
  | .executeMove => some (.move (raOf c.ir1) c.ir2)
  | .executeWait => some (.wait c.wait.vp (evenOperand c.wait.hp) c.wait.ve (evenOperand c.wait.he) c.wait.bfd)
  | .executeSkip => some (.skip c.wait.vp (evenOperand c.wait.hp) c.wait.ve (evenOperand c.wait.he) c.wait.bfd)
  | _ => none

end Sys2Proof.Machine
end

