-- ==== Sys2Proof/Machine/Copper.lean ====
section
/-! DEFINITION. The meanings of MOVE, WAIT and SKIP: what the copper does in P3 of the tick at which it owns the bus and
executes the instruction (43_copper.md R199 to R203, R213). -/

namespace Sys2Proof.Machine

/-- MOVE (R199, R200, R213): one word write to `REG_BASE + ra` through the shared bus (dropped at a bus error, buffered
to P4 for a block register), then the next instruction; a forbidden register halts the copper with nothing written. -/
def execMove (ra : BitVec 9) (data : Word16) (s : State) : Host.Outcome State Fault Refusal :=
  if moveAllowed s.cfg ra then
    .next ((dmaWrite s .copper (moveTarget s.cfg ra) .word (data.setWidth 32)).setCopState .fetch0)
  else .next (s.setBlocked true)

/-- WAIT (R201): resume at this tick when the condition holds, otherwise block; R207 polls from the next tick on. -/
def execWait (vp hp : BitVec 8) (ve : BitVec 7) (he : BitVec 8) (bfd : BitVec 1) (s : State) :
    Host.Outcome State Fault Refusal :=
  if waitHolds (waitOf vp hp ve he bfd) s.now.inp then .next (s.setCopState .fetch0) else .next (s.setBlocked true)

/-- SKIP (R202, R203): when the condition holds, 4 more on pc, modulo 2^ADDR_BITS; then the next instruction. -/
def execSkip (vp hp : BitVec 8) (ve : BitVec 7) (he : BitVec 8) (bfd : BitVec 1) (s : State) :
    Host.Outcome State Fault Refusal :=
  let s' := if waitHolds (waitOf vp hp ve he bfd) s.now.inp then s.setCopPc (pcPlus s 4) else s
  .next (s'.setCopState .fetch0)

end Sys2Proof.Machine
end

