-- ==== Sys2Proof/Machine/Dispatch.lean ====
section
/-! DEFINITION. exec: one arm per constructor of Instr. -/

namespace Sys2Proof.Machine

def exec (i : Instr) (s : State) : Host.Outcome State Fault Refusal :=
  match i with
  | .move ra data => Sys2Proof.Machine.execMove ra data s
  | .wait vp hp ve he bfd => Sys2Proof.Machine.execWait vp hp ve he bfd s
  | .skip vp hp ve he bfd => Sys2Proof.Machine.execSkip vp hp ve he bfd s

end Sys2Proof.Machine
end

