-- ==== Sys2Proof/Machine/CopperUnit.lean ====
section
/-! DEFINITION. The copper around its instructions: restart strobe, leaving Idle, the two fetch steps, polling, and its
step in P3 (43_copper.md R190 to R198, R204, R207). -/

namespace Sys2Proof.Machine

/-- The copper exists in this configuration (R190). -/
def hasCopper (cfg : Config) : Bool := channelExists cfg .copper

/-- The restart strobe's effect (R193): Idle, pc 0, not blocked; IR1, IR2 and the wait condition keep their values. -/
def restartCopper (c : Cop) : Cop := { c with state := .idle, pc := 0, blocked := false }

/-- FetchInstruction(0) (R197): read IR1 at COPPER_LIST_BASE + pc, or IN.openBus at a bus error. -/
def fetchFirst (s : State) : State :=
  let a := listAddr s
  let t := dmaRead s .copper a .word
  t.setCop { s.blk.cop with ir1 := (dmaReadValue s a .word).setWidth 16, pc := pcPlus s 2, state := .fetch1 }

/-- The copper's registers after the second word `w2` has been read and decoded as `i` (R198). -/
def latchInstr (c : Cop) (pc : Nat) (w2 : Word16) (i : Instr) : Cop :=
  match i with
  | .move _ _ => { c with ir2 := w2, pc := pc, state := .executeMove }
  | .wait _ _ _ _ _ => { c with ir2 := w2, pc := pc, wait := fetchedWait c.ir1 w2, state := .executeWait }
  | .skip _ _ _ _ _ => { c with ir2 := w2, pc := pc, wait := fetchedWait c.ir1 w2, state := .executeSkip }

/-- FetchInstruction(1) and decode (R198): read IR2; a MOVE with reserved bits is refused. -/
def fetchSecond (s : State) : Host.Outcome State Fault Refusal :=
  let a := listAddr s
  let w2 := (dmaReadValue s a .word).setWidth 16
  match decodeWords s.blk.cop.ir1 w2 with
  | .ok i => .next ((dmaRead s .copper a .word).setCop (latchInstr s.blk.cop (pcPlus s 2) w2 i))
  | .error _ => .refused (.reservedMoveBits (instrPc s) s.blk.cop.ir1)

/-- The poll of a copper blocked in a WAIT (R207): resume at this tick when the condition holds; no transaction. -/
def poll (s : State) : State :=
  if waitHolds s.blk.cop.wait s.now.inp then s.setCop { s.blk.cop with blocked := false, state := .fetch0 } else s

/-- The copper's step on a tick it owns (R195): fetch, or execute the instruction its registers hold. -/
def copperOwned (s : State) : Host.Outcome State Fault Refusal :=
  match s.blk.cop.state with
  | .idle => .next s
  | .fetch0 => .next (fetchFirst s)
  | .fetch1 => fetchSecond s
  | .executeMove | .executeWait | .executeSkip =>
    match currentInstr s.blk.cop with
    | some i => exec i s
    | none => .next s

/-- `copperStep(T)` (R195, with R190 to R192, R194, R204, R207). -/
def copperStep (s : State) : Host.Outcome State Fault Refusal :=
  if !hasCopper s.cfg || !channelDue s .copper || !enabled s .copper then .next s
  else if s.now.owner = .channel .copper then copperOwned s
  else if s.blk.cop.state = .idle then .next (s.setCopState .fetch0)
  else if s.blk.cop.blocked && s.blk.cop.state == .executeWait then .next (poll s)
  else .next s

/-- The state in which the copper holds the instruction `ir1, ir2` as its two fetch ticks leave it (R197, R198) and owns
the next tick: pc two words further on, the DMAEN bit of the copper set, and quiet inputs for that tick. A word pair that
does not decode is left at the second fetch, which refuses it. This stands for the host's loading of a program (log 5). -/
def placeInstr (s : State) (ir1 ir2 : Word16) : State :=
  let bit : BitVec 15 := BitVec.ofNat 15 (2 ^ dmaBit s.cfg .copper)
  let c := { s.blk.cop with ir1 := ir1, blocked := false }
  let input := { TickIn.quiet with mem := ir2.setWidth 32 }
  let ready := (s.setArb { s.blk.arb with dmaEnable := s.blk.arb.dmaEnable ||| bit })
  let loaded :=
    match decodeWords ir1 ir2 with
    | .ok i => ready.setCop (latchInstr c (pcPlus s 4) ir2 i)
    | .error _ =>
      let t := ready.setCop { c with pc := pcPlus s 2, state := .fetch1 }
      t.setMem (storeBytes s.cfg s.mem (listAddr t) .word (ir2.setWidth 32))
  { loaded with inputs := input :: s.inputs }

end Sys2Proof.Machine
end

