-- ==== Sys2Proof/Machine/CpuBus.lean ====
section
/-! DEFINITION. The CPU's side of a tick: what the block answers to the CPU's request (42_cpu_bus_contract.md R170 to
R178). -/

namespace Sys2Proof.Machine

/-- Record the CPU's answer of the tick (R170). -/
def State.setAnswer (s : State) (a : CpuAnswer) : State := s.setNow { s.now with cpuAnswer := some a }

/-- The CPU owns the tick and the access is no bus error: it is performed, with 0 wait states (R172). -/
def cpuAccess (s : State) (op : BusOp) : State :=
  match op.kind with
  | .read =>
    let v := memRead s s.now.inp.mem op.addr op.width
    (s.setTxn .cpu false op false v).setAnswer ⟨some v, 0, false, none⟩
  | .write =>
    ((memWrite s op.addr op.width op.value).setTxn .cpu false op false op.value).setAnswer ⟨none, 0, false, none⟩

/-- The CPU's entry point: when it is a candidate it wins (R172), hits a bus error (R173) or loses (R174); otherwise its
request is not read and there is no answer (R171, R176, R178). -/
def cpuStep (s : State) : State :=
  match s.now.inp.cpuReq with
  | none => s
  | some op =>
    if !cpuCandidate s then s
    else if s.now.owner = .cpu then
      if busError s.cfg op.addr op.width then raiseBusError s op else cpuAccess s op
    else s.setAnswer ⟨none, contentionCost s.cfg s.now.owner, false, none⟩

end Sys2Proof.Machine
end

