-- ==== Sys2Proof/Machine/IntChain.lean ====
section
/-! DEFINITION. The interrupt chain of 44_interrupt_chain.md, and the SET/CLR commits of phase P4 for the three block
registers (R156, R232 to R236). -/

namespace Sys2Proof.Machine

/-- The two masks `(SETw, CLRw)` of a write of `v` to a register with implemented bits `m`: bit 15 selects SET or CLR
(R40, R156, R232). -/
def setClr (v : Word16) (m : BitVec 15) : BitVec 15 × BitVec 15 :=
  let bits := v.setWidth 15 &&& m
  if v.getLsbD 15 then (bits, 0) else (0, bits)

/-- The masks a register gets from the write buffered in this tick; zero when the write is to another register or there
is none (R233, R234). -/
def writeMasks (w : Option (BlockReg × Word16)) (r : BlockReg) (m : BitVec 15) : BitVec 15 × BitVec 15 :=
  match w with
  | some (r', v) => if r' = r then setClr v m else (0, 0)
  | none => (0, 0)

/-- `(x | sets) & ~clears` (R156, R233, R234). -/
def applyMasks (x sets clears : BitVec 15) : BitVec 15 := (x ||| sets) &&& ~~~clears

/-- `priorityEncode(x)`: the greatest level of a source whose bit is set, 0 when there is none (R236). -/
def priorityEncode (cfg : Config) (x : BitVec 15) : Nat :=
  ((List.range cfg.nSrc).filter (fun i => x.getLsbD i)).foldr (fun i m => max (levelOf cfg i) m) 0

/-- The pending merge of P4 (R233): raises and SETs set, a CLR wins. -/
def mergedPending (s : State) : BitVec 15 :=
  let m := srcMask s.cfg
  let w := writeMasks s.now.regWrite .intcPending m
  applyMasks (s.blk.intc.pending ||| (s.now.inp.raised &&& m)) w.1 w.2

/-- The enable commit of P4 (R234). -/
def mergedEnable (s : State) : BitVec 15 :=
  let w := writeMasks s.now.regWrite .intcEnable (srcMask s.cfg)
  applyMasks s.blk.intc.enable w.1 w.2

/-- The DMAEN commit of P4 (R156). -/
def mergedDmaEnable (s : State) : BitVec 15 :=
  let w := writeMasks s.now.regWrite .dmaEn (dmaMask s.cfg)
  applyMasks s.blk.arb.dmaEnable w.1 w.2

/-- Phase P5: `s.intc.level <- priorityEncode(s.intc.pending & s.intc.enable)` (R235). -/
def latch (s : State) : State :=
  s.setIntc { s.blk.intc with level := priorityEncode s.cfg (s.blk.intc.pending &&& s.blk.intc.enable) }

end Sys2Proof.Machine
end

