-- ==== Sys2Proof/Machine/Invariants.lean ====
section
/-! DEFINITION. The invariants of 10_state.md R43, numbered as there, and the types of the record of R21 that the Lean
types do not carry. -/

namespace Sys2Proof.Machine

/-- Invariant 1: frameAcc < FPS_NUM. -/
def inv1 (cfg : Config) (b : Block) : Bool := b.clock.frameAcc < cfg.fpsNum

/-- Invariant 2: Fetching(k) implies 1 <= k < UNITS(c). -/
def inv2 (cfg : Config) (b : Block) : Bool :=
  b.arb.dma.all fun e =>
    match e.2 with
    | .fetching k => 1 ≤ k && k < units cfg e.1
    | _ => true

/-- Invariant 3: the copper's pc is even. -/
def inv3 (b : Block) : Bool := b.cop.pc % 2 == 0

/-- Invariant 4: blocked implies ExecuteWait or ExecuteMove. -/
def inv4 (b : Block) : Bool := !b.cop.blocked || b.cop.state == .executeWait || b.cop.state == .executeMove

/-- Invariant 5: bits NSRC..14 of pending and enable are 0. -/
def inv5 (cfg : Config) (b : Block) : Bool :=
  b.intc.pending &&& ~~~srcMask cfg == 0 && b.intc.enable &&& ~~~srcMask cfg == 0

/-- Invariant 6: level = priorityEncode(pending & enable), between ticks. -/
def inv6 (cfg : Config) (b : Block) : Bool := b.intc.level == priorityEncode cfg (b.intc.pending &&& b.intc.enable)

/-- Invariant 7: bits of dmaEnable outside the image of DMA_BIT are 0. -/
def inv7 (cfg : Config) (b : Block) : Bool := b.arb.dmaEnable &&& ~~~dmaMask cfg == 0

/-- The first invariant of R43 that a block breaks, with the part of the block it is about. -/
def brokenInvariant (cfg : Config) (b : Block) : Option (Nat × FaultSite) :=
  if !inv1 cfg b then some (1, .clock)
  else if !inv2 cfg b then some (2, .arbiter)
  else if !inv3 b then some (3, .copper)
  else if !inv4 b then some (4, .copper)
  else if !inv5 cfg b then some (5, .interruptChain)
  else if !inv6 cfg b then some (6, .interruptChain)
  else if !inv7 cfg b then some (7, .arbiter)
  else none

/-- The block satisfies R43. -/
def Block.inv (cfg : Config) (b : Block) : Bool := (brokenInvariant cfg b).isNone

/-- The types of R21 that `Block` does not carry: pc has ADDR_BITS bits, dma is indexed by the non-copper channels, the
level is in 0..7, lastOwner is a SlotOwner of the configuration. -/
def Block.typed (cfg : Config) (b : Block) : Bool :=
  b.cop.pc < 2 ^ cfg.addrBits && b.arb.dma.map (·.1) == cfg.dmaChans && b.intc.level ≤ 7
    && ownerInRange cfg b.arb.lastOwner

end Sys2Proof.Machine
end

