-- ==== Sys2Proof/Machine/Tick.lean ====
section
/-! DEFINITION. One tick: phases P0 to P6 of 40_scheduler.md R114. -/

namespace Sys2Proof.Machine

/-- The counter value at which no tick is enabled, 2^64 - 1 (R118). -/
def topTick : BitVec 64 := BitVec.allOnes 64

/-- Why P0 finds the block stuck, if it does (R114, R118). -/
def stuckReason (s : State) : Option (Host.Outcome State Fault Refusal) :=
  match s.blk.fault, s.blk.refused with
  | some f, _ => some (.fault (.stuckAfterFatal f))
  | none, some r => some (.refused (.stuckAfterRefusal r))
  | none, none => if s.blk.clock.tick = topTick then some (.fault .stuckAtTopTick) else none

/-- The inputs of the coming tick: the next ones listed, or a draw (R15, R44; log 3). -/
def nextIn (s : State) : TickIn :=
  match s.inputs with
  | i :: _ => i
  | [] => Config.drawInput s.drawn

/-- An access as the bus sees it: the address has ADDR_BITS bits, the value the access's width (R13, R62). -/
def sampleOp (cfg : Config) (op : BusOp) : BusOp :=
  { op with addr := wrapAddr cfg op.addr, value := truncateTo op.width op.value }

/-- The inputs as their types in R44 hold them: vPos has VPOS_BITS bits, addresses have ADDR_BITS bits (log 18). -/
def sampleIn (cfg : Config) (i : TickIn) : TickIn :=
  { i with
    vPos := i.vPos &&& BitVec.ofNat 16 (2 ^ cfg.vposBits - 1)
    cpuReq := i.cpuReq.map (sampleOp cfg)
    xfer := sampleOp cfg i.xfer }

/-- The ephemeral values at the start of a tick: inputs sampled, due set, stall flag, sampled level; no owner yet. -/
def freshNow (s : State) : TickNow where
  inp := sampleIn s.cfg (nextIn s)
  due := (dueSet s.cfg s.tickNat).map (·.id)
  stalled := 0 < s.blk.arb.cpuWait
  level := s.blk.intc.level
  owner := .noOwner
  txn := none
  regWrite := none
  cpuAnswer := none

/-- The copper after P1 (R193): restarted by the strobe, when there is a copper. -/
def strobed (s : State) : Cop :=
  if (nextIn s).copRestart && hasCopper s.cfg then restartCopper s.blk.cop else s.blk.cop

/-- Phase P1: sample every input once, restart the copper on its strobe (R114). -/
def sample (s : State) : State :=
  { s with
    blk := { s.blk with cop := strobed s }
    inputs := s.inputs.tail
    drawn := if s.inputs.isEmpty then s.drawn + 1 else s.drawn
    now := freshNow s }

/-- The one-cycle entry point of a due component (R114 P3). Timers and other collaborators act outside the block. -/
def runEntry (c : Component) (s : State) : Host.Outcome State Fault Refusal :=
  match c.kind with
  | .cpu => .next (cpuStep s)
  | .channel .copper => copperStep s
  | .channel ch => .next (channelStep ch s)
  | .timer | .collaborator => .next s

/-- Entry points one after the other, each once (R115); a refusal or a fault ends the tick. -/
def runEntries : List Component → State → Host.Outcome State Fault Refusal
  | [], s => .next s
  | c :: cs, s =>
    match runEntry c s with
    | .next t => runEntries cs t
    | .fault f => .fault f
    | .refused r => .refused r

/-- Phase P3: the due components in COMPONENTS order (R114, R116). -/
def perform (s : State) : Host.Outcome State Fault Refusal := runEntries (dueSet s.cfg s.tickNat) s

/-- Phase P4: the interrupt registers, DMAEN, cpuWait and lastOwner (R114). -/
def commit (s : State) : State :=
  { s with
    blk := { s.blk with
      arb := { s.blk.arb with
        cpuWait := nextCpuWait s
        lastOwner := s.now.owner
        dmaEnable := mergedDmaEnable s }
      intc := { s.blk.intc with pending := mergedPending s, enable := mergedEnable s } } }

/-- Phase P6: the counter advances by exactly 1 (R114). -/
def advance (s : State) : State := s.setClock { s.blk.clock with tick := s.blk.clock.tick + 1 }

/-- Phases P4 to P6. -/
def finish (s : State) : State := advance (latch (commit s))

/-- Phases P1 and P2. -/
def begin (s : State) : State := arbitrate (sample s)

/-- The end of a tick that started in `s`: after P3 the commits follow; `refuse ReservedMoveBits` leaves the start-of-tick
state with the sticky reason (R287). -/
def endTick (s : State) : Host.Outcome State Fault Refusal → Host.Outcome State Fault Refusal
  | .next t => .next (finish t)
  | .fault f => .fault f
  | .refused (.reservedMoveBits pc ir1) => .next (recordRefusal s (.reservedMoveBits pc ir1))
  | .refused r => .refused r

/-- The phases P1 to P6 of a tick that P0 lets start. -/
def tickBody (s : State) : Host.Outcome State Fault Refusal := endTick s (perform (begin s))

/-- One tick (R113, R114). P0 first; then the check of R43, whose failure is a fatal InvariantViolation (R43, R285;
log 8); then P1 to P6. -/
def tick (s : State) : Host.Outcome State Fault Refusal :=
  match stuckReason s with
  | some o => o
  | none =>
    match brokenInvariant s.cfg s.blk with
    | some (n, site) => .next (recordFatal s (.invariantViolation n) site)
    | none => tickBody s

end Sys2Proof.Machine
end

