-- ==== Sys2Proof/Machine/Step.lean ====
section
/-! DEFINITION. The step of the machine, and the host's placing of an instruction. -/

namespace Sys2Proof.Machine

/-- One step is one master-clock tick, the block's only transition (00_scope.md R7, R19; 40_scheduler.md R113). -/
def step (s : State) : Host.Outcome State Fault Refusal := tick s

/-- `s` with the instruction of the table value `w` where the copper executes it at the very next tick (log 5). W is
numbered as R91 numbers it (log 6). -/
def State.withFetchWord (s : State) (nbits w : Nat) : State :=
  placeInstr s (ir1OfW (w % 2 ^ nbits)) (ir2OfW (w % 2 ^ nbits))

end Sys2Proof.Machine
end

