-- ==== Sys2Proof/Machine/ConfigCheck.lean ====
section
/-! DEFINITION. The ConfigurationError checks of 60_exceptions.md R283, numbered as there. -/

namespace Sys2Proof.Machine

/-- `ConfigurationError(check, id)`: the failed check and the component's id, none where the check is about no registered
component (R280, R283). -/
structure ConfigurationError where
  check : Nat
  id : Option Nat
deriving DecidableEq, Repr

/-- One failed check that is about no component, or nothing. -/
def failWhen (bad : Bool) (check : Nat) : List ConfigurationError := if bad then [⟨check, none⟩] else []

/-- The check failed for each member of the list that is not ok, with the id of its component (R280). -/
def failEach {α : Type} (l : List α) (ok : α → Bool) (check : Nat) (id : α → Option Nat) : List ConfigurationError :=
  (l.filter (fun a => !ok a)).map (fun a => ⟨check, id a⟩)

/-- The id of the component registered with a kind, when there is one. -/
def kindId (cfg : Config) (k : ComponentKind) : Option Nat := (componentOf cfg k).map (·.id)

/-- The id of a channel's component. -/
def channelId (cfg : Config) (c : Channel) : Option Nat := kindId cfg (.channel c)

/-- The id of the component that an owner stands for; refresh and None stand for none. -/
def ownerId (cfg : Config) : SlotOwner → Option Nat
  | .cpu => kindId cfg .cpu
  | .channel c => channelId cfg c
  | .refresh | .noOwner => none

/-- A list without repeats. -/
def noRepeats {α : Type} [DecidableEq α] : List α → Bool
  | [] => true
  | a :: l => !l.contains a && noRepeats l

/-- A power of two. -/
def powerOfTwo (n : Nat) : Bool := n != 0 && n &&& (n - 1) == 0

/-- Checks 1 and 2: every divisor is above 0 and every phase below its divisor. -/
def checkDivisors (cfg : Config) : List ConfigurationError :=
  cfg.components.flatMap fun c =>
    (if c.divisor = 0 then [⟨1, some c.id⟩] else []) ++ (if c.phase < c.divisor then [] else [⟨2, some c.id⟩])

/-- The components of a list that clash with an earlier one. -/
def clashing (clash : Component → Component → Bool) : List Component → List Component
  | [] => []
  | c :: l => l.filter (clash c) ++ clashing clash l

/-- Two components with the same id. -/
def sameId (c d : Component) : Bool := c.id == d.id

/-- Two components of kind CPU (R298). -/
def bothCpu (c d : Component) : Bool := c.kind == .cpu && d.kind == .cpu

/-- Check 3: ids are unique, and at most one component is the CPU (R298); the later of two that clash is named. -/
def checkIds (cfg : Config) : List ConfigurationError :=
  (clashing sameId cfg.components ++ clashing bothCpu cfg.components).map (fun c => ⟨3, some c.id⟩)

/-- A channel is a registered component, registered once (R143, check 4; log 14). -/
def registeredOnce (cfg : Config) (c : Channel) : Bool :=
  (cfg.components.filter (fun k => k.kind = .channel c)).length == 1

/-- Check 4: every channel is a registered component, CHANNEL_ORDER is a permutation of CHANNELS; a channel's index is
in the range of R26 (log 14). -/
def checkChannels (cfg : Config) : List ConfigurationError :=
  failEach cfg.chans (registeredOnce cfg) 4 (channelId cfg)
    ++ failWhen (!(noRepeats cfg.chans && noRepeats cfg.channelOrder && cfg.channelOrder.all cfg.chans.contains
        && cfg.chans.all cfg.channelOrder.contains)) 4
    ++ failEach cfg.chans (channelInRange cfg) 4 (channelId cfg)

/-- Check 5: the frame rate is positive and a frame has at least one tick. -/
def checkFrames (cfg : Config) : List ConfigurationError :=
  failWhen (cfg.fpsNum == 0 || cfg.fpsDen == 0 || frameNum cfg / cfg.fpsNum < 1) 5

/-- Check 6: CRYSTAL_HZ > 0 (and below 2^64, R8). -/
def checkCrystal (cfg : Config) : List ConfigurationError :=
  failWhen (cfg.crystalHz == 0 || 2 ^ 64 ≤ cfg.crystalHz) 6

/-- Check 7: every contention cost and every UNITS is at least 1. -/
def checkCosts (cfg : Config) : List ConfigurationError :=
  failEach cfg.contention (fun e => 1 ≤ e.2) 7 (fun e => ownerId cfg e.1)
    ++ failEach cfg.dmaChans (fun c => 1 ≤ units cfg c) 7 (channelId cfg)

/-- Check 8: 1 <= NSRC <= 15, and every level is in 1..7. -/
def checkSources (cfg : Config) : List ConfigurationError :=
  failWhen (cfg.nSrc == 0 || 15 < cfg.nSrc
    || !(List.range cfg.nSrc).all (fun i => 1 ≤ levelOf cfg i && levelOf cfg i ≤ 7)) 8

/-- Check 9: DMA_BIT(c) in 0..14. -/
def checkDmaBits (cfg : Config) : List ConfigurationError :=
  failEach cfg.chans (fun c => dmaBit cfg c ≤ 14) 9 (channelId cfg)

/-- Check 10: the three register addresses are distinct, even, and mapped for words. -/
def checkRegisters (cfg : Config) : List ConfigurationError :=
  failWhen (!noRepeats (blockRegs.map (regAddr cfg))
    || !blockRegs.all (fun r => regAddr cfg r % 2 == 0 && isMapped cfg (regAddr cfg r) .word)) 10

/-- Check 11: bases even, 1 <= ADDR_BITS <= 32, every address parameter below 2^ADDR_BITS. -/
def checkAddresses (cfg : Config) : List ConfigurationError :=
  failWhen (cfg.regBase % 2 != 0 || cfg.copperListBase % 2 != 0 || cfg.addrBits == 0 || 32 < cfg.addrBits
    || !(cfg.regBase :: cfg.copperListBase :: blockRegs.map (regAddr cfg)).all (fun a => a < 2 ^ cfg.addrBits)) 11

/-- Check 12: ALIGN is a power of two for each width, 8 <= VPOS_BITS <= 16. -/
def checkWidths (cfg : Config) : List ConfigurationError :=
  failWhen (!powerOfTwo cfg.alignByte || !powerOfTwo cfg.alignWord || !powerOfTwo cfg.alignLong
    || cfg.vposBits < 8 || 16 < cfg.vposBits) 12

/-- Every failed check; R284 lets a model report any one of them (log 15). -/
def configErrors (cfg : Config) : List ConfigurationError :=
  checkDivisors cfg ++ checkIds cfg ++ checkChannels cfg ++ checkFrames cfg ++ checkCrystal cfg ++ checkCosts cfg
    ++ checkSources cfg ++ checkDmaBits cfg ++ checkRegisters cfg ++ checkAddresses cfg ++ checkWidths cfg

/-- The configuration passes every check of R283. -/
def configValid (cfg : Config) : Bool := (configErrors cfg).isEmpty

end Sys2Proof.Machine
end

