-- ==== Sys2Proof/Machine/HostCalls.lean ====
section
/-! DEFINITION. The host's entry points of 45_host_interface.md R260, all between ticks (R268). -/

namespace Sys2Proof.Machine

/-- `configure(cfg)` (R261): the block in its reset state, or the failed checks and no block (R283, R284). -/
def configure (cfg : Config) : Except (List ConfigurationError) State :=
  if configValid cfg then .ok (State.fresh cfg) else .error (configErrors cfg)

/-- `reset()` (R310, R311): every field of s but the sticky `fault` and `refused` takes its reset value at once.
Configuration and platform storage stay. -/
def hostReset (s : State) : State :=
  { s with
    blk := { Block.fresh s.cfg with fault := s.blk.fault, refused := s.blk.refused }
    now := TickNow.idle }

/-- `tick()` as the host calls it (R262): one tick; a stuck block changes nothing. -/
def hostTick (s : State) : State :=
  match tick s with
  | .next t => t
  | _ => s

/-- The block has no enabled step (R14, R114 P0). -/
def isStuck (s : State) : Bool := (stuckReason s).isSome

/-- What `runFrame` leaves: the state reached, and whether it returned normally (R119; log 20). -/
structure RunResult where
  state : State
  finished : Bool
deriving DecidableEq, Repr

/-- A fatal error or a refusal is recorded (R39). -/
def hasStopped (s : State) : Bool := s.blk.fault.isSome || s.blk.refused.isSome

/-- `n` ticks in a row, stopping at a stuck one (R119). A tick that a fatal error or a refusal discards is no stuck one:
the call ends early only if another tick follows it. -/
def runTicks : Nat → State → RunResult
  | 0, s => ⟨s, true⟩
  | n + 1, s => if isStuck s then ⟨s, false⟩ else runTicks n (hostTick s)

/-- The remainder accumulator at the start of a frame, before the reduction: `frameAcc + r` (R120). -/
def frameSum (cfg : Config) (acc : Nat) : Nat := acc + frameNum cfg % cfg.fpsNum

/-- Ticks of the frame that starts with the accumulator at `acc`: q, or q + 1 when the sum reaches FPS_NUM (R120). -/
def frameTicks (cfg : Config) (acc : Nat) : Nat :=
  frameNum cfg / cfg.fpsNum + (if cfg.fpsNum ≤ frameSum cfg acc then 1 else 0)

/-- The accumulator after the frame's start (R120). -/
def frameAccAfter (cfg : Config) (acc : Nat) : Nat :=
  frameSum cfg acc - (if cfg.fpsNum ≤ frameSum cfg acc then 1 else 0) * cfg.fpsNum

/-- The start of a frame: the accumulator is written before the frame's first tick (R120). -/
def startFrame (s : State) : State :=
  s.setClock { s.blk.clock with frameAcc := frameAccAfter s.cfg s.blk.clock.frameAcc }

/-- One frame: its start, then its ticks (R119, R120). -/
def runOneFrame (s : State) : RunResult := runTicks (frameTicks s.cfg s.blk.clock.frameAcc) (startFrame s)

/-- `runFrame(n)` (R119, R263): n frames one after the other, stopping at a stuck tick. -/
def runFrame : Nat → State → RunResult
  | 0, s => ⟨s, true⟩
  | n + 1, s =>
    let r := runOneFrame s
    if r.finished then runFrame n r.state else r

/-- Ticks of the first `k` frames from the accumulator `acc` (R122). -/
def framesTicks (cfg : Config) : Nat → Nat → Nat
  | 0, _ => 0
  | k + 1, acc => frameTicks cfg acc + framesTicks cfg k (frameAccAfter cfg acc)

/-- `snapshot()` (R264): the record s, whole. -/
def snapshot (s : State) : Block := s.blk

/-- The blob is a value of the record type that satisfies R43 under the configuration (R265; log 25). -/
def compatible (cfg : Config) (b : Block) : Bool := b.typed cfg && b.inv cfg

/-- The blob as a block takes it over: a record that is set stays, because only a fresh configuration starts with
`fault` and `refused` empty (R39, R285, R287; log 13). Into a block with neither set it is the blob itself. -/
def restored (b old : Block) : Block :=
  { b with fault := old.fault.or b.fault, refused := old.refused.or b.refused }

/-- `restore(blob)` (R265): replace s, or refuse IncompatibleSnapshot (R287). -/
def restore (b : Block) (s : State) : State :=
  if compatible s.cfg b then s.setBlk (restored b s.blk) else recordRefusal s .incompatibleSnapshot

/-- `sampleInterruptLevel()` (R179, R237): the latched level; it writes nothing. -/
def sampleInterruptLevel (s : State) : Nat := s.blk.intc.level

/-- `isBusErrorAt(a)`: `busError(a, 1)` (R64, R180, C6; log 12). -/
def isBusErrorAt (s : State) (a : Nat) : Bool := busError s.cfg (wrapAddr s.cfg a) .byte

/-- The host read (R270): what a bus read at the start of the next tick would return, no value at a bus error; it writes
nothing. -/
def hostRead (s : State) (a : Nat) (w : Width) : Option BusValue :=
  let x := wrapAddr s.cfg a
  if busError s.cfg x w then none else some (memRead s (nextIn s).mem x w)

end Sys2Proof.Machine
end

