-- ==== Sys2Proof/Safety.lean ====
section
/-! DEFINITION. What counts as a sound state and a safe run, in the terms the claims use. -/

namespace Sys2Proof.Machine

/-- A sound state: a configuration that passes R283, a block of the types of R21 that satisfies R43, storage in canonical
form inside the address space. -/
def State.sound (s : State) : Bool :=
  configValid s.cfg && s.blk.typed s.cfg && s.blk.inv s.cfg && Memory.wf s.mem && Memory.inSpace s.cfg s.mem

/-- The block can take a tick: P0 lets it start (R114). -/
def State.live (s : State) : Bool := !isStuck s

/-- From `s` a whole tick ran to `t`: P0 let it start, the check of R43 passed, and P1 to P6 were all done (R114), with no
fatal error and no refusal to discard it (R285, R287). -/
def wholeTick (s t : State) : Prop := step s = .next t ∧ t.blk.fault = none ∧ t.blk.refused = none

/-- The coming tick gets past P0 and past the check of R43. -/
def State.runs (s : State) : Bool := s.live && s.blk.inv s.cfg

/-- The copper owns the coming tick (R191). -/
def copperWins (s : State) : Bool := (begin s).now.owner == .channel .copper

/-- The restart strobe reaches a copper in the coming tick (R193). -/
def strobeComes (s : State) : Bool := (nextIn s).copRestart && hasCopper s.cfg

/-- The copper exists, is due and is enabled in the coming tick: its step runs (R191, R192). -/
def copperActive (s : State) : Bool := hasCopper s.cfg && channelDue s .copper && enabled s .copper

/-- The word that a fetch at address `a` reads in a tick with inputs `i`: IN.openBus at a bus error (R65, R197). -/
def listWord (s : State) (i : TickIn) (a : Nat) : Word16 :=
  if busError s.cfg a .word then i.openBus.setWidth 16 else (memRead s i.mem a .word).setWidth 16

/-- Plain storage holds the word `w` at address `a`, in the configured byte order, where a word read reaches it. -/
def storedWord (s : State) (a : Nat) (w : Word16) : Prop :=
  busError s.cfg a .word = false ∧ blockRegAt s.cfg a = none ∧
    ∀ j < 2, isStorage s.cfg (addAddr s.cfg a j) = true ∧
      Memory.read s.mem (addAddr s.cfg a j) = (bytesOfWord s.cfg.byteOrder w)[j]?

/-- No fatal error is recorded: what "the timing model is right" means for a run (R285, R286). -/
def State.noFatal (s : State) : Bool := s.blk.fault.isNone

/-- The channel's grant signal of the last tick (R45, R147). -/
def State.granted (s : State) (c : Channel) : Bool := s.now.owner == .channel c

/-- The requester owned the last tick or made a transaction in it (R45). -/
def State.busUsedBy (s : State) (o : SlotOwner) : Bool :=
  s.now.owner == o || s.now.txn.any (fun x => x.request.requester == o)

/-- How many of a list of owners are active in the last tick: `countActiveOwners` (R140). -/
def countActiveOwners (s : State) (owners : List SlotOwner) : Nat :=
  (owners.filter (fun o => o != .noOwner && o == s.now.owner)).length

end Sys2Proof.Machine
end

