-- ==== Sys2Proof/Certificates/Slice0/Obligations.lean ====
section
/-! DEFINITION. The statements for the provers, from the numbered rules of spec/. Each docstring names the rule, and a log
entry where a clause is the model's choice. -/

open Sys2Proof Sys2Proof.Machine

/-! ### Encoding -/

/-- The worked encodings of R101: each table value decodes to its source line, and the line encodes to the value. -/
def Obligations.WorkedEncodingsDecode : Prop :=
  ∀ e ∈ ([
      (0x01801234, .move 0x180 0x1234), (0x01800F00, .move 0x180 0x0F00), (0x2C01FFFE, .waitDefault 0x2C 0),
      (0x0105FFFE, .waitDefault 0x01 4), (0x0005FFFF, .skipDefault 0x00 4), (0xFFFFFFFE, .pseudoEnd),
      (0x00018000, .pseudoNop), (0x80110000, .wait 0x80 0x10 0x00 0x00 0)] : List (Nat × Instr)),
    decodeTableWord 32 e.1 = some e.2 ∧ (encodeW e.2).toNat = e.1

/-- Decoding the encoding of any well-formed instruction, as words or as bytes in either byte order, gives it back
(R90, R92 to R95, R99). -/
def Obligations.DecodeInvertsEncode : Prop :=
  ∀ i : Instr, i.wf = true →
    decodeWords (encode i).1 (encode i).2 = .ok i ∧
    ∀ (order : ByteOrder) (rest : List Byte), decodeBytes order (encodeBytes order i ++ rest) = .ok (i, rest)

/-- Every word pair that decodes is the encoding of the well-formed instruction it decodes to: no bit is dropped
(R92 to R97). -/
def Obligations.EncodeInvertsDecode : Prop :=
  ∀ (ir1 ir2 : Word16) (i : Instr), decodeWords ir1 ir2 = .ok i → i.wf = true ∧ encode i = (ir1, ir2)

/-- The opcode map of R98 over W = {IR1, IR2}: MOVE, WAIT and SKIP are exactly the words that match their rows, and
exactly the reserved MOVE space of R96 is refused. -/
def Obligations.OpcodeMapIsTheTable : Prop :=
  ∀ ir1 ir2 : Word16,
    ((∃ ra data, decodeWords ir1 ir2 = .ok (.move ra data)) ↔ wordPair ir1 ir2 &&& 0xFE010000#32 = 0#32) ∧
    ((∃ vp hp ve he bfd, decodeWords ir1 ir2 = .ok (.wait vp hp ve he bfd)) ↔
      wordPair ir1 ir2 &&& 0x00010001#32 = 0x00010000#32) ∧
    ((∃ vp hp ve he bfd, decodeWords ir1 ir2 = .ok (.skip vp hp ve he bfd)) ↔
      wordPair ir1 ir2 &&& 0x00010001#32 = 0x00010001#32) ∧
    (decodeWords ir1 ir2 = .error .reservedMoveBits ↔
      wordPair ir1 ir2 &&& 0x00010000#32 = 0#32 ∧ wordPair ir1 ir2 &&& 0xFE000000#32 ≠ 0#32)

/-! ### MOVE -/

/-- MOVE to a register of the platform (R199, R66, R61): it completes; the two bytes at REG_BASE + ra that are plain
storage hold the data in the byte order; nothing else changes but the copper's state and the transaction record. -/
def Obligations.MoveStoresItsWord : Prop :=
  ∀ (s : State) (ra : BitVec 9) (data : Word16),
    1 ≤ s.cfg.addrBits → moveAllowed s.cfg ra = true → busError s.cfg (moveTarget s.cfg ra) .word = false →
    blockRegAt s.cfg (moveTarget s.cfg ra) = none →
    ∃ t, exec (.move ra data) s = .next t ∧
      t.blk = { s.blk with cop := { s.blk.cop with state := .fetch0 } } ∧
      t.cfg = s.cfg ∧ t.inputs = s.inputs ∧ t.drawn = s.drawn ∧
      t.now = { s.now with
        txn := some ⟨⟨⟨.write, moveTarget s.cfg ra, .word, data.setWidth 32⟩, .channel .copper, true⟩, false,
          data.setWidth 32⟩ } ∧
      (∀ j < 2, isStorage s.cfg (addAddr s.cfg (moveTarget s.cfg ra) j) = true →
        Memory.read t.mem (addAddr s.cfg (moveTarget s.cfg ra) j) = (bytesOfWord s.cfg.byteOrder data)[j]?) ∧
      (∀ x, (∀ j < 2, x ≠ addAddr s.cfg (moveTarget s.cfg ra) j) ∨ isStorage s.cfg x = false →
        Memory.read t.mem x = Memory.read s.mem x)

/-- MOVE to a block register (R199, R67): it completes; the write is buffered to P4, no register and no byte of storage
changes yet, and the rest of the state stays. -/
def Obligations.MoveBuffersARegisterWrite : Prop :=
  ∀ (s : State) (ra : BitVec 9) (data : Word16) (r : BlockReg),
    moveAllowed s.cfg ra = true → busError s.cfg (moveTarget s.cfg ra) .word = false →
    blockRegAt s.cfg (moveTarget s.cfg ra) = some r →
    ∃ t, exec (.move ra data) s = .next t ∧
      t.blk = { s.blk with cop := { s.blk.cop with state := .fetch0 } } ∧
      t.cfg = s.cfg ∧ t.inputs = s.inputs ∧ t.drawn = s.drawn ∧ t.mem = s.mem ∧
      t.now = { s.now with
        regWrite := some (r, data)
        txn := some ⟨⟨⟨.write, moveTarget s.cfg ra, .word, data.setWidth 32⟩, .channel .copper, true⟩, false,
          data.setWidth 32⟩ }

/-- MOVE at a bus error (R65, R199, R282): the write is dropped, with no exception; the copper goes on. -/
def Obligations.MoveAtABusErrorIsDropped : Prop :=
  ∀ (s : State) (ra : BitVec 9) (data : Word16),
    moveAllowed s.cfg ra = true → busError s.cfg (moveTarget s.cfg ra) .word = true →
    ∃ t, exec (.move ra data) s = .next t ∧
      t.blk = { s.blk with cop := { s.blk.cop with state := .fetch0 } } ∧
      t.cfg = s.cfg ∧ t.inputs = s.inputs ∧ t.drawn = s.drawn ∧ t.mem = s.mem ∧
      t.now = { s.now with
        txn := some ⟨⟨⟨.write, moveTarget s.cfg ra, .word, data.setWidth 32⟩, .channel .copper, true⟩, true,
          data.setWidth 32⟩ }

/-- MOVE to a forbidden register (R200): nothing is written and blocked is set with the state unchanged, in a tick the
copper owns; from then on the copper neither owns a tick nor makes a transaction and its registers stay, until the
restart strobe makes it Idle at pc 0 (and, when its step runs in that tick, FetchInstruction(0)); a reset ends the halt
too. -/
def Obligations.ForbiddenMoveHaltsTheCopper : Prop :=
  (∀ (s : State) (ra : BitVec 9) (data : Word16), moveAllowed s.cfg ra = false →
    exec (.move ra data) s = .next { s with blk := { s.blk with cop := { s.blk.cop with blocked := true } } }) ∧
  (∀ (s : State) (ra : BitVec 9) (data : Word16), configValid s.cfg = true → s.runs = true → copperWins s = true →
    currentInstr s.blk.cop = some (.move ra data) → moveAllowed s.cfg ra = false →
    ∃ t, wholeTick s t ∧ t.now.owner = .channel .copper ∧ t.blk.cop = { s.blk.cop with blocked := true } ∧
      t.now.txn = none ∧ t.now.regWrite = none ∧ t.mem = s.mem) ∧
  (∀ s t : State, configValid s.cfg = true → s.blk.cop.state = .executeMove → s.blk.cop.blocked = true →
    wholeTick s t → t.busUsedBy (.channel .copper) = false ∧
      t.blk.cop = if strobeComes s then
        { s.blk.cop with state := if copperActive s then .fetch0 else .idle, pc := 0, blocked := false }
        else s.blk.cop) ∧
  (∀ s : State, (hostReset s).blk.cop.state = .idle ∧ (hostReset s).blk.cop.blocked = false)

/-! ### WAIT and SKIP -/

/-- The condition of WAIT and SKIP in plain arithmetic (R205, R206): the masked 15-bit keys compared as numbers, with
vPos[7:0] = vPos mod 256, hPos[7:1] = hPos div 2, vPos bit 7 always compared, and the blitter term. -/
def Obligations.BeamConditionComparesMaskedKeys : Prop :=
  ∀ (w : WaitCond) (i : TickIn),
    waitHolds w i = true ↔
      (w.vp.toNat &&& (128 ||| w.ve.toNat)) * 128 + (w.hp.toNat &&& w.he.toNat) ≤
        ((i.vPos.toNat % 256) &&& (128 ||| w.ve.toNat)) * 128 + ((i.hPos.toNat / 2) &&& w.he.toNat) ∧
      (w.bfd = 1#1 ∨ i.blitterBusy = false)

/-- WAIT (R201): it completes; with the condition true at its execute tick it resumes at that tick and is not blocked,
otherwise it blocks where it stands; no transaction, no byte of storage, nothing else changes. -/
def Obligations.WaitResumesOrBlocks : Prop :=
  ∀ (s : State) (vp hp : BitVec 8) (ve : BitVec 7) (he : BitVec 8) (bfd : BitVec 1),
    let w : WaitCond := ⟨vp, fieldOf hp, ve, fieldOf he, bfd⟩
    let after : Cop :=
      if waitHolds w s.now.inp = true then { s.blk.cop with state := .fetch0 } else { s.blk.cop with blocked := true }
    exec (.wait vp hp ve he bfd) s = .next { s with blk := { s.blk with cop := after } }

/-- SKIP (R202, R203): it completes, never blocks, adds 4 to pc modulo 2^ADDR_BITS when the condition is true, and
changes nothing else; no transaction is made. -/
def Obligations.SkipDiscardsTheNextInstruction : Prop :=
  ∀ (s : State) (vp hp : BitVec 8) (ve : BitVec 7) (he : BitVec 8) (bfd : BitVec 1),
    let w : WaitCond := ⟨vp, fieldOf hp, ve, fieldOf he, bfd⟩
    let pc := if waitHolds w s.now.inp = true then (s.blk.cop.pc + 4) % 2 ^ s.cfg.addrBits else s.blk.cop.pc
    exec (.skip vp hp ve he bfd) s =
      .next { s with blk := { s.blk with cop := { s.blk.cop with state := .fetch0, pc := pc } } }

/-- A WAIT never ends early (R211): a whole tick that takes the copper out of ExecuteWait without a strobe takes it to
FetchInstruction(0), unblocked, and the condition held in that tick. -/
def Obligations.WaitNeverResumesEarly : Prop :=
  ∀ s t : State, configValid s.cfg = true → s.blk.cop.state = .executeWait → strobeComes s = false →
    wholeTick s t → t.blk.cop.state ≠ .executeWait →
    t.blk.cop = { s.blk.cop with state := .fetch0, blocked := false } ∧ waitHolds s.blk.cop.wait t.now.inp = true

/-- Polling (R207): a blocked WAIT whose copper's step runs resumes at the tick whose condition holds and otherwise keeps
every register; the copper neither owns the tick nor makes a transaction. -/
def Obligations.BlockedWaitIsPolled : Prop :=
  ∀ s t : State, configValid s.cfg = true → s.blk.cop.state = .executeWait → s.blk.cop.blocked = true →
    strobeComes s = false → copperActive s = true → wholeTick s t →
    t.busUsedBy (.channel .copper) = false ∧
    t.blk.cop = if waitHolds s.blk.cop.wait t.now.inp = true
      then { s.blk.cop with blocked := false, state := .fetch0 } else s.blk.cop

/-! ### The copper around its instructions -/

/-- A step runs the decoded instruction (R195, R199 to R202): when the copper owns the coming tick and holds instruction
`i`, the step is exec of `i` at the state P2 leaves, then P4 to P6: the copper's registers, storage, transaction and
buffered write are exec's, the block's registers and the level are those P4 and P5 make of exec's state, the counter
advances by 1. -/
def Obligations.StepExecutesTheHeldInstruction : Prop :=
  ∀ (s : State) (i : Instr), configValid s.cfg = true → s.runs = true → copperWins s = true →
    currentInstr (begin s).blk.cop = some i →
    ∃ b t, exec i (begin s) = .next b ∧ step s = .next t ∧
      t.blk.cop = b.blk.cop ∧ t.mem = b.mem ∧ t.now.txn = b.now.txn ∧ t.now.regWrite = b.now.regWrite ∧
      t.now.owner = .channel .copper ∧ t.blk.intc = (finish b).blk.intc ∧
      t.blk.arb.dmaEnable = (finish b).blk.arb.dmaEnable ∧ t.blk.clock.tick = s.blk.clock.tick + 1

/-- FetchInstruction(0) (R197): on an owned tick the copper reads its first word at COPPER_LIST_BASE + pc, or
IN.openBus at a bus error, adds 2 to pc and goes to FetchInstruction(1). -/
def Obligations.FirstFetchReadsTheListWord : Prop :=
  ∀ s t : State, configValid s.cfg = true → s.blk.cop.state = .fetch0 → wholeTick s t →
    t.now.owner = .channel .copper →
    t.blk.cop = { s.blk.cop with
      ir1 := listWord s t.now.inp ((s.cfg.copperListBase + s.blk.cop.pc) % 2 ^ s.cfg.addrBits)
      pc := (s.blk.cop.pc + 2) % 2 ^ s.cfg.addrBits
      state := .fetch1 }

/-- FetchInstruction(1) and decode (R198): on an owned tick the copper reads its second word and decodes; a MOVE with a
reserved bit sets the sticky refusal on the start-of-tick state with every other effect discarded (R287; the recorded pc
is the instruction's, R280), and no step follows; a legal MOVE goes to ExecuteMove; WAIT and SKIP store their condition
and go to ExecuteWait or ExecuteSkip. -/
def Obligations.SecondFetchDecodes : Prop :=
  ∀ s : State, configValid s.cfg = true → s.runs = true → s.blk.cop.state = .fetch1 → copperWins s = true →
    let w2 := listWord s (begin s).now.inp ((s.cfg.copperListBase + s.blk.cop.pc) % 2 ^ s.cfg.addrBits)
    let pc := (s.blk.cop.pc + 2) % 2 ^ s.cfg.addrBits
    let ir1 := s.blk.cop.ir1
    if ir1.getLsbD 0 = false then
      if ir1.toNat / 512 ≠ 0 then
        ∃ t, step s = .next t ∧
          t = { s with blk := { s.blk with
            refused := some (.reservedMoveBits ((s.blk.cop.pc + (2 ^ s.cfg.addrBits - 2)) % 2 ^ s.cfg.addrBits) ir1) } } ∧
          ∀ u, step t ≠ .next u
      else ∃ t, wholeTick s t ∧ t.blk.cop = { s.blk.cop with ir2 := w2, pc := pc, state := .executeMove }
    else ∃ t, wholeTick s t ∧ t.blk.cop = { s.blk.cop with
      ir2 := w2
      pc := pc
      wait := ⟨ir1.extractLsb' 8 8, ir1.extractLsb' 1 7, w2.extractLsb' 8 7, w2.extractLsb' 1 7, w2.extractLsb' 15 1⟩
      state := if w2.getLsbD 0 = true then .executeSkip else .executeWait }

/-- The instruction cycle (R196, R73, R77, R90): an instruction that plain storage holds at the copper's list address is
fetched in two owned ticks and executed in the third, here one right after the other, and pc has then moved by 4 before
the execution. Which addresses are plain storage is the configuration's (log 4). -/
def Obligations.ListInstructionRunsInThreeOwnedTicks : Prop :=
  ∀ (s s1 s2 s3 : State) (w1 w2 : Word16) (i : Instr), configValid s.cfg = true → s.blk.cop.state = .fetch0 →
    storedWord s (addAddr s.cfg s.cfg.copperListBase s.blk.cop.pc) w1 →
    storedWord s (addAddr s.cfg s.cfg.copperListBase (addAddr s.cfg s.blk.cop.pc 2)) w2 →
    decodeWords w1 w2 = .ok i →
    wholeTick s s1 → s1.now.owner = .channel .copper →
    wholeTick s1 s2 → s2.now.owner = .channel .copper →
    wholeTick s2 s3 → s3.now.owner = .channel .copper →
    currentInstr s2.blk.cop = some i ∧
    s2.blk.cop.pc = addAddr s.cfg (addAddr s.cfg s.blk.cop.pc 2) 2 ∧
    ∃ b, exec i (begin s2) = .next b ∧ s3.blk.cop = b.blk.cop ∧ s3.mem = b.mem ∧ s3.now.regWrite = b.now.regWrite

/-- Leaving Idle (R194): an Idle copper whose step runs goes to FetchInstruction(0), neither owning the tick nor making a
transaction, with or without a restart strobe in the tick. -/
def Obligations.IdleCopperWakes : Prop :=
  ∀ s t : State, configValid s.cfg = true → s.blk.cop.state = .idle → copperActive s = true → wholeTick s t →
    t.blk.cop =
      (if strobeComes s then { s.blk.cop with state := .fetch0, pc := 0, blocked := false }
        else { s.blk.cop with state := .fetch0 }) ∧
    t.busUsedBy (.channel .copper) = false

/-- The restart strobe (R193, R214): in the tick of the strobe, whatever its state, the copper restarts at pc 0,
unblocked, keeps IR1, IR2 and the wait condition, neither owns the tick nor makes a transaction (so a pending MOVE is not
written), and leaves Idle in the same tick when its step runs. -/
def Obligations.RestartStrobeRestartsTheCopper : Prop :=
  ∀ s t : State, configValid s.cfg = true → strobeComes s = true → wholeTick s t →
    t.blk.cop = { s.blk.cop with
      state := if copperActive s then .fetch0 else .idle
      pc := 0
      blocked := false } ∧
    t.busUsedBy (.channel .copper) = false

/-- A copper whose step does not run holds (R191, R192): when it is not due, or its DMAEN bit is clear at the start of
the tick, it neither owns the tick nor makes a transaction, and every register keeps its value, an Idle or polling one's
too, but for a restart strobe, which still applies (R193). -/
def Obligations.DisabledCopperHolds : Prop :=
  ∀ s t : State, configValid s.cfg = true → copperActive s = false → wholeTick s t →
    t.blk.cop =
      (if strobeComes s then { s.blk.cop with state := .idle, pc := 0, blocked := false } else s.blk.cop) ∧
    t.busUsedBy (.channel .copper) = false

/-- Holding (R204): a copper that does not own the tick, is not Idle, and is not blocked in ExecuteWait keeps every
register. -/
def Obligations.LosingCopperHolds : Prop :=
  ∀ s t : State, configValid s.cfg = true → strobeComes s = false → wholeTick s t →
    t.now.owner ≠ .channel .copper → s.blk.cop.state ≠ .idle →
    ¬ (s.blk.cop.blocked = true ∧ s.blk.cop.state = .executeWait) →
    t.blk.cop = s.blk.cop

/-- The copper's control transfer (R215): in one step pc stays, is set to 0 by the strobe, adds 2 on a fetch or adds 4
on a SKIP, all modulo 2^ADDR_BITS; the last two only on ticks the copper owns. -/
def Obligations.CopperPcMovesInThreeWays : Prop :=
  ∀ s t : State, configValid s.cfg = true → step s = .next t →
    t.blk.cop.pc = s.blk.cop.pc ∨
    (strobeComes s = true ∧ t.blk.cop.pc = 0) ∨
    (t.now.owner = .channel .copper ∧ (s.blk.cop.state = .fetch0 ∨ s.blk.cop.state = .fetch1) ∧
      t.blk.cop.pc = (s.blk.cop.pc + 2) % 2 ^ s.cfg.addrBits) ∨
    (t.now.owner = .channel .copper ∧ s.blk.cop.state = .executeSkip ∧
      t.blk.cop.pc = (s.blk.cop.pc + 4) % 2 ^ s.cfg.addrBits)

/-- A copper MOVE to a block register takes effect at P4 of its tick (R213, R156, R232 to R234): the register it names
has the SET/CLR result, computed on its implemented bits, and a pending raise of the same tick is merged below it. -/
def Obligations.CopperMoveCommitsARegister : Prop :=
  ∀ (s : State) (ra : BitVec 9) (data : Word16) (r : BlockReg), configValid s.cfg = true → s.runs = true →
    copperWins s = true → currentInstr s.blk.cop = some (.move ra data) → moveAllowed s.cfg ra = true →
    busError s.cfg (moveTarget s.cfg ra) .word = false → blockRegAt s.cfg (moveTarget s.cfg ra) = some r →
    ∃ t, step s = .next t ∧
      let bits := data.setWidth 15
      let set := data.getLsbD 15
      match r with
      | .intcEnable => t.blk.intc.enable =
          (if set then s.blk.intc.enable ||| (bits &&& srcMask s.cfg)
            else s.blk.intc.enable &&& ~~~(bits &&& srcMask s.cfg))
      | .intcPending => t.blk.intc.pending =
          (if set then s.blk.intc.pending ||| (t.now.inp.raised &&& srcMask s.cfg) ||| (bits &&& srcMask s.cfg)
            else (s.blk.intc.pending ||| (t.now.inp.raised &&& srcMask s.cfg)) &&& ~~~(bits &&& srcMask s.cfg))
      | .dmaEn => t.blk.arb.dmaEnable =
          (if set then s.blk.arb.dmaEnable ||| (bits &&& dmaMask s.cfg)
            else s.blk.arb.dmaEnable &&& ~~~(bits &&& dmaMask s.cfg))

/-! ### The arbiter and the channels -/

/-- The ladder (R141, R145), read as what each answer means: refresh exactly when due; a channel is eligible, is
mid-fetch or (with no eligible mid-fetch channel) requesting, and every earlier channel of CHANNEL_ORDER fails the same
test; below the channels the CPU exactly when it is a candidate, and otherwise nobody. -/
def Obligations.LadderFollowsItsRungs : Prop :=
  ∀ s : State,
    let mid := fun c => eligible s c && midFetch s c
    let req := fun c => eligible s c && requesting s c
    (ladder s = .refresh ↔ refreshDue s.cfg s.tickNat = true) ∧
    (∀ c, ladder s = .channel c ↔ refreshDue s.cfg s.tickNat = false ∧ ∃ pre post,
      s.cfg.channelOrder = pre ++ c :: post ∧
      ((mid c = true ∧ ∀ d ∈ pre, mid d = false) ∨
        ((∀ d ∈ s.cfg.channelOrder, mid d = false) ∧ req c = true ∧ ∀ d ∈ pre, req d = false))) ∧
    (ladder s = .cpu ↔ refreshDue s.cfg s.tickNat = false ∧
      (∀ d ∈ s.cfg.channelOrder, mid d = false ∧ req d = false) ∧ cpuCandidate s = true) ∧
    (ladder s = .noOwner ↔ refreshDue s.cfg s.tickNat = false ∧
      (∀ d ∈ s.cfg.channelOrder, mid d = false ∧ req d = false) ∧ cpuCandidate s = false)

/-- Only the owner transacts (R140, R142, R151, R155): after a whole tick, the owner is the ladder's answer in P2, the
recorded transaction is the owner's, there is none when refresh or nobody owns the tick, storage is then unchanged,
lastOwner is the owner, and of any list of different owners at most one is active. -/
def Obligations.OnlyTheOwnerTransacts : Prop :=
  ∀ s t : State, wholeTick s t →
    t.now.owner = ladder (begin s) ∧
    (∀ x, t.now.txn = some x → x.request.requester = t.now.owner) ∧
    (t.now.owner = .refresh ∨ t.now.owner = .noOwner →
      t.now.txn = none ∧ t.now.regWrite = none ∧ t.mem = s.mem) ∧
    t.blk.arb.lastOwner = t.now.owner ∧
    ∀ owners : List SlotOwner, owners.Nodup → countActiveOwners t owners ≤ 1

/-- A channel owns a tick only when it exists, is enabled at the start of the tick, is due, and is in its slot window
(R144). -/
def Obligations.OwningChannelWasEligible : Prop :=
  ∀ (s t : State) (c : Channel), wholeTick s t → t.now.owner = .channel c →
    c ∈ s.cfg.channelOrder ∧ channelExists s.cfg c = true ∧ s.blk.arb.dmaEnable.getLsbD (dmaBit s.cfg c) = true ∧
    kindDue s.cfg (.channel c) s.tickNat = true ∧ slotWindow s.cfg c s.tickNat = true ∧
    refreshDue s.cfg s.tickNat = false

/-- Grant (R147, R150, R64 to R70): the channel that owns a tick makes the one transaction its chip logic presents, and
moves exactly one unit of its fetch. A read gets what the bus holds at the start of the tick, or IN.openBus at a bus
error, and writes nothing; a write stores its bytes, is buffered to P4 at a block register, and is dropped at a bus error.
The value has the access's width (log 16); the storage written is the configuration's plain storage (log 4). -/
def Obligations.GrantMovesOneUnit : Prop :=
  ∀ (s t : State) (c : Channel), configValid s.cfg = true → c ≠ .copper → c ∈ s.blk.arb.dma.map (·.1) →
    wholeTick s t → t.now.owner = .channel c →
    let op := t.now.inp.xfer
    let bad := busError s.cfg op.addr op.width
    (match op.kind with
      | .read =>
        t.now.txn = some ⟨⟨⟨.read, op.addr, op.width, 0⟩, .channel c, true⟩, bad,
          if bad then truncateTo op.width t.now.inp.openBus else memRead s t.now.inp.mem op.addr op.width⟩ ∧
        t.mem = s.mem ∧ t.now.regWrite = none
      | .write =>
        t.now.txn = some ⟨⟨⟨.write, op.addr, op.width, op.value⟩, .channel c, true⟩, bad, op.value⟩ ∧
        if bad then t.mem = s.mem ∧ t.now.regWrite = none
        else match blockRegAt s.cfg op.addr with
          | some r => t.mem = s.mem ∧ t.now.regWrite = some (r, op.value.setWidth 16)
          | none => t.mem = storeBytes s.cfg s.mem op.addr op.width op.value ∧ t.now.regWrite = none) ∧
    dmaState t.blk.arb c =
      match dmaState s.blk.arb c with
      | .fetching k => if k + 1 = units s.cfg c then .idle else .fetching (k + 1)
      | _ => if units s.cfg c = 1 then .idle else .fetching 1

/-- Request, losing and disabled hold (R146, R148, R149): an existing channel that does not own the tick goes from Idle to
Requesting exactly when it is due, enabled and wants a fetch, and otherwise keeps its state. -/
def Obligations.ChannelWithoutTheTickRequestsOrHolds : Prop :=
  ∀ (s t : State) (c : Channel), configValid s.cfg = true → c ∈ s.cfg.dmaChans → c ∈ s.blk.arb.dma.map (·.1) →
    wholeTick s t → t.now.owner ≠ .channel c →
    dmaState t.blk.arb c =
      if dmaState s.blk.arb c = .idle ∧ kindDue s.cfg (.channel c) s.tickNat = true ∧ enabled s c = true ∧
        t.now.inp.wants.contains c = true then .requesting else dmaState s.blk.arb c

/-! ### The CPU's side -/

/-- The CPU wins (R172): on a tick it owns, with no bus error, a read is answered with the value the bus gives at the
start of the tick and a write is performed; 0 wait states, no bus error. -/
def Obligations.CpuWinsItsAccess : Prop :=
  ∀ (s t : State) (op : BusOp), configValid s.cfg = true → wholeTick s t → t.now.owner = .cpu →
    t.now.inp.cpuReq = some op → busError s.cfg op.addr op.width = false →
    match op.kind with
    | .read => t.now.cpuAnswer = some ⟨some (memRead s t.now.inp.mem op.addr op.width), 0, false, none⟩ ∧
        t.mem = s.mem ∧ t.now.regWrite = none
    | .write => t.now.cpuAnswer = some ⟨none, 0, false, none⟩ ∧
        match blockRegAt s.cfg op.addr with
        | some r => t.mem = s.mem ∧ t.now.regWrite = some (r, op.value.setWidth 16)
        | none => t.mem = storeBytes s.cfg s.mem op.addr op.width op.value ∧ t.now.regWrite = none

/-- Bus error (R173, R281): on a tick the CPU owns, at a bus error, nothing is read or written and the answer is
`(none, 0, true)` with the access as its info; the owner of the tick is still the CPU. -/
def Obligations.CpuBusErrorIsAnswered : Prop :=
  ∀ (s t : State) (op : BusOp), configValid s.cfg = true → wholeTick s t → t.now.owner = .cpu →
    t.now.inp.cpuReq = some op → busError s.cfg op.addr op.width = true →
    t.now.cpuAnswer = some ⟨none, 0, true, some op⟩ ∧ t.mem = s.mem ∧ t.now.regWrite = none ∧
    t.blk.arb.lastOwner = .cpu

/-- The CPU loses (R174): a candidate that does not own the tick is answered `(none, CONTENTION_COST(owner), false)`,
at least 1, nothing is read or written for it, and refresh or a channel owns the tick. -/
def Obligations.LosingCpuGetsWaitStates : Prop :=
  ∀ s t : State, configValid s.cfg = true → wholeTick s t → cpuCandidate (begin s) = true → t.now.owner ≠ .cpu →
    t.now.cpuAnswer = some ⟨none, contentionCost s.cfg t.now.owner, false, none⟩ ∧
    1 ≤ contentionCost s.cfg t.now.owner ∧ t.busUsedBy .cpu = false ∧
    (t.now.owner = .refresh ∨ ∃ c, t.now.owner = .channel c)

/-- The stall count (R175, R176): what P4 commits at every whole tick, due or not; and after a loss with cost W the next W
ticks are stall ticks, in which the CPU is no candidate, after which it is stalled no more. -/
def Obligations.StallLastsItsCost : Prop :=
  (∀ s t : State, wholeTick s t →
    t.blk.arb.cpuWait =
      if cpuCandidate (begin s) = true ∧ t.now.owner ≠ .cpu then contentionCost s.cfg t.now.owner
      else if 0 < s.blk.arb.cpuWait then s.blk.arb.cpuWait - 1 else 0) ∧
  (∀ (t u : State) (k : Nat), k ≤ t.blk.arb.cpuWait → Host.Core.run Sys2Proof.core k t = .next u →
    u.blk.fault = none → u.blk.refused = none →
    u.blk.arb.cpuWait = t.blk.arb.cpuWait - k ∧
    (k < t.blk.arb.cpuWait → cpuCandidate (begin u) = false) ∧
    (k = t.blk.arb.cpuWait → (begin u).now.stalled = false))

/-! ### Memory and registers -/

/-- Storage returns the latest write (R61, R73): a read of the same access right after a write to plain storage gives the
written value, cut to the width, whatever the platform input presents. -/
def Obligations.StorageReturnsTheLatestWrite : Prop :=
  ∀ (s : State) (a : Nat) (w : Width) (v inMem : BusValue), 2 ≤ s.cfg.addrBits → blockRegAt s.cfg a = none →
    (∀ j < w.bytes, isStorage s.cfg (addAddr s.cfg a j) = true) →
    memRead (memWrite s a w v) inMem a w = truncateTo w v

/-- The block's registers answer word accesses at their own addresses only (R64, R66, R67, R40): for a valid
configuration, a word read at a register's address is `{0, reg[14:0]}`, and every other access that touches a byte of a
register is a bus error. -/
def Obligations.BlockRegistersAreWordOnly : Prop :=
  ∀ (s : State) (inMem : BusValue), configValid s.cfg = true →
    (memRead s inMem (regAddr s.cfg .intcEnable) .word = s.blk.intc.enable.setWidth 32 ∧
      memRead s inMem (regAddr s.cfg .intcPending) .word = s.blk.intc.pending.setWidth 32 ∧
      memRead s inMem (regAddr s.cfg .dmaEn) .word = s.blk.arb.dmaEnable.setWidth 32) ∧
    ∀ (r : BlockReg) (a : Nat) (w : Width) (j k : Nat), j < w.bytes → k < 2 →
      (a + j) % 2 ^ s.cfg.addrBits = (regAddr s.cfg r + k) % 2 ^ s.cfg.addrBits →
      busError s.cfg a w = false → w = .word ∧ ∃ r', a = regAddr s.cfg r'

/-- Every step keeps storage canonical (addresses strictly rising) and inside the address space, whatever the state
(R62, R73; the list form is the model's, log 4). -/
def Obligations.StepKeepsStorageCanonical : Prop :=
  ∀ s t : State, Memory.wf s.mem = true → Memory.inSpace s.cfg s.mem = true → step s = .next t →
    Memory.wf t.mem = true ∧ Memory.inSpace t.cfg t.mem = true

/-! ### The interrupt chain -/

/-- The priority encoder (R236): the greatest LEVEL_OF of a source whose bit is set, 0 when there is none. -/
def Obligations.PriorityEncodeIsTheGreatestLevel : Prop :=
  ∀ (cfg : Config) (x : BitVec 15),
    (∀ i < cfg.nSrc, x.getLsbD i = true → levelOf cfg i ≤ priorityEncode cfg x) ∧
    ((∃ i < cfg.nSrc, x.getLsbD i = true ∧ priorityEncode cfg x = levelOf cfg i) ∨
      (priorityEncode cfg x = 0 ∧ ∀ i < cfg.nSrc, x.getLsbD i = true → levelOf cfg i = 0)) ∧
    (configValid cfg = true → priorityEncode cfg x ≤ 7)

/-- The pending merge (R233) bit by bit: an implemented bit is 1 after the tick exactly when it was pending, raised or
SET, and is not cleared by a CLR write of the same tick; a bit that is raised and cleared in one tick is 0 (R240). -/
def Obligations.PendingMergesRaisesAndWrites : Prop :=
  ∀ (s t : State), configValid s.cfg = true → wholeTick s t → ∀ i < 15,
    let written := fun (set : Bool) => match t.now.regWrite with
      | some (.intcPending, v) => v.getLsbD 15 == set && v.getLsbD i && decide (i < s.cfg.nSrc)
      | _ => false
    t.blk.intc.pending.getLsbD i =
      ((s.blk.intc.pending.getLsbD i || (t.now.inp.raised.getLsbD i && decide (i < s.cfg.nSrc)) || written true)
        && !written false)

/-- The enable commit (R234) bit by bit: only a bus write changes the enable register. -/
def Obligations.EnableChangesByBusWriteOnly : Prop :=
  ∀ (s t : State), configValid s.cfg = true → wholeTick s t → ∀ i < 15,
    let written := fun (set : Bool) => match t.now.regWrite with
      | some (.intcEnable, v) => v.getLsbD 15 == set && v.getLsbD i && decide (i < s.cfg.nSrc)
      | _ => false
    t.blk.intc.enable.getLsbD i = ((s.blk.intc.enable.getLsbD i || written true) && !written false)

/-- The DMAEN commit (R156) bit by bit: a bit changes only by a write to DMAEN, and only if it is the DMA_BIT of an
existing channel. -/
def Obligations.DmaenChangesByBusWriteOnly : Prop :=
  ∀ (s t : State), configValid s.cfg = true → wholeTick s t → ∀ i < 15,
    let written := fun (set : Bool) => match t.now.regWrite with
      | some (.dmaEn, v) => v.getLsbD 15 == set && v.getLsbD i && s.cfg.chans.any (fun c => dmaBit s.cfg c == i)
      | _ => false
    t.blk.arb.dmaEnable.getLsbD i = ((s.blk.arb.dmaEnable.getLsbD i || written true) && !written false)

/-- Latch and sample (R235, R237, R242): after a whole tick the latched level is the encoding of the registers just
committed, and during the tick the CPU could sample only the level latched by the tick before. -/
def Obligations.LevelIsLatchedAndSampledOneTickLater : Prop :=
  ∀ s t : State, wholeTick s t →
    t.blk.intc.level = priorityEncode s.cfg (t.blk.intc.pending &&& t.blk.intc.enable) ∧
    t.now.level = s.blk.intc.level ∧ sampleInterruptLevel t = t.blk.intc.level

/-! ### The tick, the clock and the frames -/

/-- A component's due ticks (R111, R124): the due set of tick T is the registered components with T mod divisor = phase;
in the source's toy machine the CPU is due at 0, 4, 8, 12 and the DMA channel at 2, 6, 10, 14 of the first 16 ticks. -/
def Obligations.DueSetIsThePhaseTest : Prop :=
  (∀ (cfg : Config) (t : Nat) (c : Component),
    c ∈ dueSet cfg t ↔ c ∈ cfg.components ∧ t % c.divisor = c.phase) ∧
  (let cpu : Component := ⟨0, .cpu, 4, 0⟩
   let dma : Component := ⟨1, .channel .disk, 4, 2⟩
   let toy : Config := { Config.worked with components := [cpu, dma] }
   (List.range 16).filter (fun t => (dueSet toy t).contains cpu) = [0, 4, 8, 12] ∧
   (List.range 16).filter (fun t => (dueSet toy t).contains dma) = [2, 6, 10, 14])

/-- A whole tick adds exactly 1 to the counter and leaves frameAcc and the configuration (R22, R23, R24, R113, R114). -/
def Obligations.TickAdvancesTheCounterByOne : Prop :=
  ∀ s t : State, wholeTick s t →
    t.blk.clock.tick.toNat = s.blk.clock.tick.toNat + 1 ∧ t.blk.clock.frameAcc = s.blk.clock.frameAcc ∧
    t.cfg = s.cfg

/-- Stuck (R114 P0, R118, R39, R310): no step at counter 2^64 - 1, none after a fatal error or a refusal; a reset keeps
both sticky records, so every tick after it stays stuck too. -/
def Obligations.StuckBlocksTakeNoStep : Prop :=
  ∀ s : State,
    (s.blk.clock.tick.toNat = 2 ^ 64 - 1 → ∀ t, step s ≠ .next t) ∧
    (s.blk.fault ≠ none ∨ s.blk.refused ≠ none →
      (∀ t, step s ≠ .next t) ∧ hostTick s = s ∧
      (hostReset s).blk.fault = s.blk.fault ∧ (hostReset s).blk.refused = s.blk.refused ∧
      ∀ t, step (hostReset s) ≠ .next t)

/-- No input and no guest action stops the block (R289, R153): a live state that satisfies R43 always has a next state;
no fatal error is recorded in it, and a refusal only for a MOVE with a reserved bit (R287). -/
def Obligations.GuestNeverStopsTheBlock : Prop :=
  ∀ s : State, s.runs = true →
    ∃ t, step s = .next t ∧ t.blk.fault = none ∧
      (t.blk.refused = none ∨ ∃ pc ir1, t.blk.refused = some (.reservedMoveBits pc ir1) ∧
        ir1.getLsbD 0 = false ∧ reservedOf ir1 ≠ 0#7)

/-- No hidden state (R266, R41, R42): the ephemeral values of the tick before play no part in a whole tick. -/
def Obligations.TickReadsNoEphemeralValue : Prop :=
  ∀ (s t : State) (x : TickNow), wholeTick s t → wholeTick { s with now := x } t

/-- The order of the entry points is unobservable in the block (R116): for components of which at most one is the CPU and
at most one is each channel, P3 answers the same whatever their order. -/
def Obligations.EntryPointOrderIsUnobservable : Prop :=
  ∀ (cs ds : List Component) (s : State), cs.Perm ds →
    (cs.filter (fun c => c.kind = .cpu)).length ≤ 1 →
    (∀ ch, (cs.filter (fun c => c.kind = .channel ch)).length ≤ 1) →
    runEntries cs s = runEntries ds s

/-- Drift bound (R122): from an accumulator of 0, the first K frames take exactly floor(K * N / Dn) ticks, which is at
most the rational K * N / Dn and less than 1 tick below it. -/
def Obligations.FramesTakeTheRationalTickCount : Prop :=
  ∀ (cfg : Config) (k : Nat), 0 < cfg.fpsNum →
    framesTicks cfg k 0 = k * frameNum cfg / cfg.fpsNum ∧
    framesTicks cfg k 0 * cfg.fpsNum ≤ k * frameNum cfg ∧
    k * frameNum cfg < (framesTicks cfg k 0 + 1) * cfg.fpsNum

/-- runFrame (R119, R120, R263; the form of its answer is log 20's): it stops only at a stuck tick; when it returns
normally, the counter has advanced by the ticks of its frames (by one less when a fatal error or a refusal discarded the
last of them, R285, R287), the accumulator stays below FPS_NUM, and the configuration is the same. -/
def Obligations.RunFrameRunsItsTicks : Prop :=
  ∀ (n : Nat) (s : State), 0 < s.cfg.fpsNum → s.blk.clock.frameAcc < s.cfg.fpsNum →
    let r := (runFrame n s).state
    ((runFrame n s).finished = false → isStuck r = true) ∧
    ((runFrame n s).finished = true →
      r.blk.clock.tick.toNat + (if hasStopped r = true ∧ hasStopped s = false then 1 else 0) =
        s.blk.clock.tick.toNat + framesTicks s.cfg n s.blk.clock.frameAcc ∧
      r.blk.clock.frameAcc < s.cfg.fpsNum ∧ r.cfg = s.cfg)

/-! ### Invariants, reset and the host -/

/-- Every step keeps a sound state sound: R43's seven invariants, the types of R21 (pc even and in range, level in 0..7,
reserved bits of the three registers 0, fetch states within their units), the configuration's validity and the canonical
storage, from every sound state. -/
def Obligations.StepKeepsSoundness : Prop :=
  ∀ s t : State, s.sound = true → step s = .next t → t.sound = true

/-- The reset state of the model is sound (its configuration is the model's choice, log 1). -/
def Obligations.ResetStateIsSound : Prop := State.reset.sound = true

/-- Every accepted configuration gives a sound block in the reset state of R311, with no fault and no refusal (R261). -/
def Obligations.ConfiguredBlockIsResetAndSound : Prop :=
  ∀ (cfg : Config) (s : State), configure cfg = .ok s →
    s.sound = true ∧ s.cfg = cfg ∧ s.blk.fault = none ∧ s.blk.refused = none ∧
    s.blk.clock.tick = 0 ∧ s.blk.clock.frameAcc = 0 ∧
    (∀ c, dmaState s.blk.arb c = .idle) ∧ s.blk.arb.cpuWait = 0 ∧ s.blk.arb.lastOwner = .noOwner ∧
    s.blk.arb.dmaEnable = 0 ∧ s.blk.cop = ⟨.idle, 0, 0, 0, ⟨0, 0, 0, 0, 0⟩, false⟩ ∧ s.blk.intc = ⟨0, 0, 0⟩

/-- No run from a sound state records a fatal error (R286, R285): over any number of steps, the state stays sound and
free of fault. -/
def Obligations.SoundRunsHaveNoFatalError : Prop :=
  ∀ (n : Nat) (s t : State), s.sound = true → s.blk.fault = none → Host.Core.run Sys2Proof.core n s = .next t →
    t.sound = true ∧ t.blk.fault = none

/-- reset() (R310, R311): it keeps a sound state sound, sets every field of s but the two sticky records to its reset
value, and changes neither the configuration nor platform storage. That the inputs to come stay as they are is the model's
choice (log 23). -/
def Obligations.HostResetSetsEveryField : Prop :=
  ∀ s : State,
    (s.sound = true → (hostReset s).sound = true) ∧
    (hostReset s).blk =
      ⟨⟨0, 0⟩, ⟨(s.cfg.chans.filter (· ≠ .copper)).map (fun c => (c, .idle)), 0, .noOwner, 0⟩,
        ⟨.idle, 0, 0, 0, ⟨0, 0, 0, 0, 0⟩, false⟩, ⟨0, 0, 0⟩, s.blk.fault, s.blk.refused⟩ ∧
    (hostReset s).cfg = s.cfg ∧ (hostReset s).mem = s.mem ∧ (hostReset s).inputs = s.inputs

/-- snapshot and restore (R264, R265, R287): restoring a sound state's own snapshot changes nothing. A blob that is a
value of the record type and satisfies R43 replaces s, but for a fault or a refusal that is set already, which stays (R39,
R285, R287; how they meet R265 is log 13's reading); into a block with neither set it replaces s whole. Every other blob
sets the sticky refusal, the first one staying (log 21), and nothing else; that a blob outside the record type is refused
is log 25's reading. A block that either record makes stuck stays stuck. -/
def Obligations.RestoreReplacesOrRefuses : Prop :=
  (∀ s : State, s.sound = true → restore (snapshot s) s = s) ∧
  ∀ (s : State) (b : Block),
    (b.typed s.cfg = true → b.inv s.cfg = true →
      restore b s = { s with blk := { b with
        fault := if s.blk.fault = none then b.fault else s.blk.fault
        refused := if s.blk.refused = none then b.refused else s.blk.refused } }) ∧
    (b.typed s.cfg = false ∨ b.inv s.cfg = false →
      restore b s = { s with blk := { s.blk with refused := some (s.blk.refused.getD .incompatibleSnapshot) } }) ∧
    (s.blk.fault ≠ none ∨ s.blk.refused ≠ none → ∀ t, step (restore b s) ≠ .next t)

/-- The host read (R270): it gives what a read by the CPU in the next tick is answered, when the CPU owns that tick, and
no value exactly at a bus error. -/
def Obligations.HostReadIsTheNextBusRead : Prop :=
  ∀ (s t : State) (a : Nat) (w : Width) (v : BusValue), configValid s.cfg = true →
    (nextIn s).cpuReq = some ⟨.read, a, w, v⟩ → wholeTick s t → t.now.owner = .cpu →
    ∃ ans, t.now.cpuAnswer = some ans ∧ ans.value = hostRead s a w ∧ (ans.busError = true ↔ hostRead s a w = none)

/-- Configuration errors (R283 checks 1 and 2, R261): with a divisor of 0 or a phase not below its divisor no block
exists. That this very check, with its component's id, is among those reported is the model's choice: configure lists
every failed check, where R284 lets it report any one (log 15). -/
def Obligations.BadDivisorOrPhaseIsRejected : Prop :=
  ∀ (cfg : Config) (c : Component), c ∈ cfg.components →
    (c.divisor = 0 → ∃ errs, configure cfg = .error errs ∧ (⟨1, some c.id⟩ : ConfigurationError) ∈ errs) ∧
    (c.divisor ≤ c.phase → ∃ errs, configure cfg = .error errs ∧ (⟨2, some c.id⟩ : ConfigurationError) ∈ errs)

/-- A CPU that does not compete (R171, R176, R178): it is a candidate exactly when it is due, not stalled, not halted and
has a request; in a tick in which it is none it gets no answer, does not own the tick and makes no transaction. -/
def Obligations.NonCandidateCpuGetsNoAnswer : Prop :=
  ∀ s : State,
    (cpuCandidate (begin s) = true ↔
      kindDue s.cfg .cpu s.tickNat = true ∧ s.blk.arb.cpuWait = 0 ∧ (nextIn s).cpuHalted = false ∧
        (nextIn s).cpuReq ≠ none) ∧
    ∀ t : State, wholeTick s t → cpuCandidate (begin s) = false →
      t.now.cpuAnswer = none ∧ t.busUsedBy .cpu = false

/-- The component of a configuration error (R280, R283 checks 3, 7 and 9, R261): of two components with one id, or two
CPUs, the later one is reported; a channel with a DMA_BIT above 14, or a non-copper one with UNITS below 1, with its
component's id. That these very checks are among those reported, and which of two clashing components is named, is the
model's choice (log 15). -/
def Obligations.FailedChecksNameTheirComponent : Prop :=
  ∀ (cfg : Config),
    (∀ (pre mid post : List Component) (c d : Component), cfg.components = pre ++ c :: (mid ++ d :: post) →
      c.id = d.id ∨ (c.kind = .cpu ∧ d.kind = .cpu) →
      ∃ errs, configure cfg = .error errs ∧ (⟨3, some d.id⟩ : ConfigurationError) ∈ errs) ∧
    ∀ (c : Channel) (k : Component), componentOf cfg (.channel c) = some k →
      (c ∈ cfg.chans → 14 < dmaBit cfg c →
        ∃ errs, configure cfg = .error errs ∧ (⟨9, some k.id⟩ : ConfigurationError) ∈ errs) ∧
      (c ∈ cfg.dmaChans → units cfg c = 0 →
        ∃ errs, configure cfg = .error errs ∧ (⟨7, some k.id⟩ : ConfigurationError) ∈ errs)
end

