-- ==== Sys2Proof/Laws/State.lean ====
section
/-! SUPPORT. One lemma per field per state update, true by rfl, so that no later proof unfolds a record update. -/

namespace Sys2Proof.Machine

section setClock
variable (s : State) (x : Clock)
@[simp] theorem setClock_cfg : (s.setClock x).cfg = s.cfg := rfl
@[simp] theorem setClock_clock : (s.setClock x).blk.clock = x := rfl
@[simp] theorem setClock_arb : (s.setClock x).blk.arb = s.blk.arb := rfl
@[simp] theorem setClock_cop : (s.setClock x).blk.cop = s.blk.cop := rfl
@[simp] theorem setClock_intc : (s.setClock x).blk.intc = s.blk.intc := rfl
@[simp] theorem setClock_fault : (s.setClock x).blk.fault = s.blk.fault := rfl
@[simp] theorem setClock_refused : (s.setClock x).blk.refused = s.blk.refused := rfl
@[simp] theorem setClock_mem : (s.setClock x).mem = s.mem := rfl
@[simp] theorem setClock_inputs : (s.setClock x).inputs = s.inputs := rfl
@[simp] theorem setClock_drawn : (s.setClock x).drawn = s.drawn := rfl
@[simp] theorem setClock_now : (s.setClock x).now = s.now := rfl
end setClock

section setArb
variable (s : State) (x : Arb)
@[simp] theorem setArb_cfg : (s.setArb x).cfg = s.cfg := rfl
@[simp] theorem setArb_clock : (s.setArb x).blk.clock = s.blk.clock := rfl
@[simp] theorem setArb_arb : (s.setArb x).blk.arb = x := rfl
@[simp] theorem setArb_cop : (s.setArb x).blk.cop = s.blk.cop := rfl
@[simp] theorem setArb_intc : (s.setArb x).blk.intc = s.blk.intc := rfl
@[simp] theorem setArb_fault : (s.setArb x).blk.fault = s.blk.fault := rfl
@[simp] theorem setArb_refused : (s.setArb x).blk.refused = s.blk.refused := rfl
@[simp] theorem setArb_mem : (s.setArb x).mem = s.mem := rfl
@[simp] theorem setArb_inputs : (s.setArb x).inputs = s.inputs := rfl
@[simp] theorem setArb_drawn : (s.setArb x).drawn = s.drawn := rfl
@[simp] theorem setArb_now : (s.setArb x).now = s.now := rfl
end setArb

section setCop
variable (s : State) (x : Cop)
@[simp] theorem setCop_cfg : (s.setCop x).cfg = s.cfg := rfl
@[simp] theorem setCop_clock : (s.setCop x).blk.clock = s.blk.clock := rfl
@[simp] theorem setCop_arb : (s.setCop x).blk.arb = s.blk.arb := rfl
@[simp] theorem setCop_cop : (s.setCop x).blk.cop = x := rfl
@[simp] theorem setCop_intc : (s.setCop x).blk.intc = s.blk.intc := rfl
@[simp] theorem setCop_fault : (s.setCop x).blk.fault = s.blk.fault := rfl
@[simp] theorem setCop_refused : (s.setCop x).blk.refused = s.blk.refused := rfl
@[simp] theorem setCop_mem : (s.setCop x).mem = s.mem := rfl
@[simp] theorem setCop_inputs : (s.setCop x).inputs = s.inputs := rfl
@[simp] theorem setCop_drawn : (s.setCop x).drawn = s.drawn := rfl
@[simp] theorem setCop_now : (s.setCop x).now = s.now := rfl
end setCop

section setIntc
variable (s : State) (x : Intc)
@[simp] theorem setIntc_cfg : (s.setIntc x).cfg = s.cfg := rfl
@[simp] theorem setIntc_clock : (s.setIntc x).blk.clock = s.blk.clock := rfl
@[simp] theorem setIntc_arb : (s.setIntc x).blk.arb = s.blk.arb := rfl
@[simp] theorem setIntc_cop : (s.setIntc x).blk.cop = s.blk.cop := rfl
@[simp] theorem setIntc_intc : (s.setIntc x).blk.intc = x := rfl
@[simp] theorem setIntc_fault : (s.setIntc x).blk.fault = s.blk.fault := rfl
@[simp] theorem setIntc_refused : (s.setIntc x).blk.refused = s.blk.refused := rfl
@[simp] theorem setIntc_mem : (s.setIntc x).mem = s.mem := rfl
@[simp] theorem setIntc_inputs : (s.setIntc x).inputs = s.inputs := rfl
@[simp] theorem setIntc_drawn : (s.setIntc x).drawn = s.drawn := rfl
@[simp] theorem setIntc_now : (s.setIntc x).now = s.now := rfl
end setIntc

section setFault
variable (s : State) (x : Option FatalRecord)
@[simp] theorem setFault_cfg : (s.setFault x).cfg = s.cfg := rfl
@[simp] theorem setFault_clock : (s.setFault x).blk.clock = s.blk.clock := rfl
@[simp] theorem setFault_arb : (s.setFault x).blk.arb = s.blk.arb := rfl
@[simp] theorem setFault_cop : (s.setFault x).blk.cop = s.blk.cop := rfl
@[simp] theorem setFault_intc : (s.setFault x).blk.intc = s.blk.intc := rfl
@[simp] theorem setFault_fault : (s.setFault x).blk.fault = x := rfl
@[simp] theorem setFault_refused : (s.setFault x).blk.refused = s.blk.refused := rfl
@[simp] theorem setFault_mem : (s.setFault x).mem = s.mem := rfl
@[simp] theorem setFault_inputs : (s.setFault x).inputs = s.inputs := rfl
@[simp] theorem setFault_drawn : (s.setFault x).drawn = s.drawn := rfl
@[simp] theorem setFault_now : (s.setFault x).now = s.now := rfl
end setFault

section setRefused
variable (s : State) (x : Option RefuseReason)
@[simp] theorem setRefused_cfg : (s.setRefused x).cfg = s.cfg := rfl
@[simp] theorem setRefused_clock : (s.setRefused x).blk.clock = s.blk.clock := rfl
@[simp] theorem setRefused_arb : (s.setRefused x).blk.arb = s.blk.arb := rfl
@[simp] theorem setRefused_cop : (s.setRefused x).blk.cop = s.blk.cop := rfl
@[simp] theorem setRefused_intc : (s.setRefused x).blk.intc = s.blk.intc := rfl
@[simp] theorem setRefused_fault : (s.setRefused x).blk.fault = s.blk.fault := rfl
@[simp] theorem setRefused_refused : (s.setRefused x).blk.refused = x := rfl
@[simp] theorem setRefused_mem : (s.setRefused x).mem = s.mem := rfl
@[simp] theorem setRefused_inputs : (s.setRefused x).inputs = s.inputs := rfl
@[simp] theorem setRefused_drawn : (s.setRefused x).drawn = s.drawn := rfl
@[simp] theorem setRefused_now : (s.setRefused x).now = s.now := rfl
end setRefused

section setBlk
variable (s : State) (x : Block)
@[simp] theorem setBlk_cfg : (s.setBlk x).cfg = s.cfg := rfl
@[simp] theorem setBlk_clock : (s.setBlk x).blk.clock = x.clock := rfl
@[simp] theorem setBlk_arb : (s.setBlk x).blk.arb = x.arb := rfl
@[simp] theorem setBlk_cop : (s.setBlk x).blk.cop = x.cop := rfl
@[simp] theorem setBlk_intc : (s.setBlk x).blk.intc = x.intc := rfl
@[simp] theorem setBlk_fault : (s.setBlk x).blk.fault = x.fault := rfl
@[simp] theorem setBlk_refused : (s.setBlk x).blk.refused = x.refused := rfl
@[simp] theorem setBlk_mem : (s.setBlk x).mem = s.mem := rfl
@[simp] theorem setBlk_inputs : (s.setBlk x).inputs = s.inputs := rfl
@[simp] theorem setBlk_drawn : (s.setBlk x).drawn = s.drawn := rfl
@[simp] theorem setBlk_now : (s.setBlk x).now = s.now := rfl
end setBlk

section setMem
variable (s : State) (x : Memory)
@[simp] theorem setMem_cfg : (s.setMem x).cfg = s.cfg := rfl
@[simp] theorem setMem_clock : (s.setMem x).blk.clock = s.blk.clock := rfl
@[simp] theorem setMem_arb : (s.setMem x).blk.arb = s.blk.arb := rfl
@[simp] theorem setMem_cop : (s.setMem x).blk.cop = s.blk.cop := rfl
@[simp] theorem setMem_intc : (s.setMem x).blk.intc = s.blk.intc := rfl
@[simp] theorem setMem_fault : (s.setMem x).blk.fault = s.blk.fault := rfl
@[simp] theorem setMem_refused : (s.setMem x).blk.refused = s.blk.refused := rfl
@[simp] theorem setMem_mem : (s.setMem x).mem = x := rfl
@[simp] theorem setMem_inputs : (s.setMem x).inputs = s.inputs := rfl
@[simp] theorem setMem_drawn : (s.setMem x).drawn = s.drawn := rfl
@[simp] theorem setMem_now : (s.setMem x).now = s.now := rfl
end setMem

section setNow
variable (s : State) (x : TickNow)
@[simp] theorem setNow_cfg : (s.setNow x).cfg = s.cfg := rfl
@[simp] theorem setNow_clock : (s.setNow x).blk.clock = s.blk.clock := rfl
@[simp] theorem setNow_arb : (s.setNow x).blk.arb = s.blk.arb := rfl
@[simp] theorem setNow_cop : (s.setNow x).blk.cop = s.blk.cop := rfl
@[simp] theorem setNow_intc : (s.setNow x).blk.intc = s.blk.intc := rfl
@[simp] theorem setNow_fault : (s.setNow x).blk.fault = s.blk.fault := rfl
@[simp] theorem setNow_refused : (s.setNow x).blk.refused = s.blk.refused := rfl
@[simp] theorem setNow_mem : (s.setNow x).mem = s.mem := rfl
@[simp] theorem setNow_inputs : (s.setNow x).inputs = s.inputs := rfl
@[simp] theorem setNow_drawn : (s.setNow x).drawn = s.drawn := rfl
@[simp] theorem setNow_now : (s.setNow x).now = x := rfl
end setNow

section setCopState
variable (s : State) (x : CopState)
@[simp] theorem setCopState_cfg : (s.setCopState x).cfg = s.cfg := rfl
@[simp] theorem setCopState_clock : (s.setCopState x).blk.clock = s.blk.clock := rfl
@[simp] theorem setCopState_arb : (s.setCopState x).blk.arb = s.blk.arb := rfl
@[simp] theorem setCopState_cop : (s.setCopState x).blk.cop = { s.blk.cop with state := x } := rfl
@[simp] theorem setCopState_intc : (s.setCopState x).blk.intc = s.blk.intc := rfl
@[simp] theorem setCopState_fault : (s.setCopState x).blk.fault = s.blk.fault := rfl
@[simp] theorem setCopState_refused : (s.setCopState x).blk.refused = s.blk.refused := rfl
@[simp] theorem setCopState_mem : (s.setCopState x).mem = s.mem := rfl
@[simp] theorem setCopState_inputs : (s.setCopState x).inputs = s.inputs := rfl
@[simp] theorem setCopState_drawn : (s.setCopState x).drawn = s.drawn := rfl
@[simp] theorem setCopState_now : (s.setCopState x).now = s.now := rfl
end setCopState

section setCopPc
variable (s : State) (x : Nat)
@[simp] theorem setCopPc_cfg : (s.setCopPc x).cfg = s.cfg := rfl
@[simp] theorem setCopPc_clock : (s.setCopPc x).blk.clock = s.blk.clock := rfl
@[simp] theorem setCopPc_arb : (s.setCopPc x).blk.arb = s.blk.arb := rfl
@[simp] theorem setCopPc_cop : (s.setCopPc x).blk.cop = { s.blk.cop with pc := x } := rfl
@[simp] theorem setCopPc_intc : (s.setCopPc x).blk.intc = s.blk.intc := rfl
@[simp] theorem setCopPc_fault : (s.setCopPc x).blk.fault = s.blk.fault := rfl
@[simp] theorem setCopPc_refused : (s.setCopPc x).blk.refused = s.blk.refused := rfl
@[simp] theorem setCopPc_mem : (s.setCopPc x).mem = s.mem := rfl
@[simp] theorem setCopPc_inputs : (s.setCopPc x).inputs = s.inputs := rfl
@[simp] theorem setCopPc_drawn : (s.setCopPc x).drawn = s.drawn := rfl
@[simp] theorem setCopPc_now : (s.setCopPc x).now = s.now := rfl
end setCopPc

section setBlocked
variable (s : State) (x : Bool)
@[simp] theorem setBlocked_cfg : (s.setBlocked x).cfg = s.cfg := rfl
@[simp] theorem setBlocked_clock : (s.setBlocked x).blk.clock = s.blk.clock := rfl
@[simp] theorem setBlocked_arb : (s.setBlocked x).blk.arb = s.blk.arb := rfl
@[simp] theorem setBlocked_cop : (s.setBlocked x).blk.cop = { s.blk.cop with blocked := x } := rfl
@[simp] theorem setBlocked_intc : (s.setBlocked x).blk.intc = s.blk.intc := rfl
@[simp] theorem setBlocked_fault : (s.setBlocked x).blk.fault = s.blk.fault := rfl
@[simp] theorem setBlocked_refused : (s.setBlocked x).blk.refused = s.blk.refused := rfl
@[simp] theorem setBlocked_mem : (s.setBlocked x).mem = s.mem := rfl
@[simp] theorem setBlocked_inputs : (s.setBlocked x).inputs = s.inputs := rfl
@[simp] theorem setBlocked_drawn : (s.setBlocked x).drawn = s.drawn := rfl
@[simp] theorem setBlocked_now : (s.setBlocked x).now = s.now := rfl
end setBlocked

section setTxn
variable (s : State) (q : SlotOwner) (d : Bool) (op : BusOp) (e : Bool) (v : BusValue)
@[simp] theorem setTxn_cfg : (s.setTxn q d op e v).cfg = s.cfg := rfl
@[simp] theorem setTxn_clock : (s.setTxn q d op e v).blk.clock = s.blk.clock := rfl
@[simp] theorem setTxn_arb : (s.setTxn q d op e v).blk.arb = s.blk.arb := rfl
@[simp] theorem setTxn_cop : (s.setTxn q d op e v).blk.cop = s.blk.cop := rfl
@[simp] theorem setTxn_intc : (s.setTxn q d op e v).blk.intc = s.blk.intc := rfl
@[simp] theorem setTxn_fault : (s.setTxn q d op e v).blk.fault = s.blk.fault := rfl
@[simp] theorem setTxn_refused : (s.setTxn q d op e v).blk.refused = s.blk.refused := rfl
@[simp] theorem setTxn_mem : (s.setTxn q d op e v).mem = s.mem := rfl
@[simp] theorem setTxn_inputs : (s.setTxn q d op e v).inputs = s.inputs := rfl
@[simp] theorem setTxn_drawn : (s.setTxn q d op e v).drawn = s.drawn := rfl
@[simp] theorem setTxn_now : (s.setTxn q d op e v).now = { s.now with txn := some ⟨⟨op, q, d⟩, e, v⟩ } := rfl
end setTxn

section setAnswer
variable (s : State) (x : CpuAnswer)
@[simp] theorem setAnswer_cfg : (s.setAnswer x).cfg = s.cfg := rfl
@[simp] theorem setAnswer_clock : (s.setAnswer x).blk.clock = s.blk.clock := rfl
@[simp] theorem setAnswer_arb : (s.setAnswer x).blk.arb = s.blk.arb := rfl
@[simp] theorem setAnswer_cop : (s.setAnswer x).blk.cop = s.blk.cop := rfl
@[simp] theorem setAnswer_intc : (s.setAnswer x).blk.intc = s.blk.intc := rfl
@[simp] theorem setAnswer_fault : (s.setAnswer x).blk.fault = s.blk.fault := rfl
@[simp] theorem setAnswer_refused : (s.setAnswer x).blk.refused = s.blk.refused := rfl
@[simp] theorem setAnswer_mem : (s.setAnswer x).mem = s.mem := rfl
@[simp] theorem setAnswer_inputs : (s.setAnswer x).inputs = s.inputs := rfl
@[simp] theorem setAnswer_drawn : (s.setAnswer x).drawn = s.drawn := rfl
@[simp] theorem setAnswer_now : (s.setAnswer x).now = { s.now with cpuAnswer := some x } := rfl
end setAnswer

section arbitratePhase
variable (s : State)
@[simp] theorem arbitrate_cfg : (arbitrate s).cfg = s.cfg := rfl
@[simp] theorem arbitrate_clock : (arbitrate s).blk.clock = s.blk.clock := rfl
@[simp] theorem arbitrate_arb : (arbitrate s).blk.arb = s.blk.arb := rfl
@[simp] theorem arbitrate_cop : (arbitrate s).blk.cop = s.blk.cop := rfl
@[simp] theorem arbitrate_intc : (arbitrate s).blk.intc = s.blk.intc := rfl
@[simp] theorem arbitrate_fault : (arbitrate s).blk.fault = s.blk.fault := rfl
@[simp] theorem arbitrate_refused : (arbitrate s).blk.refused = s.blk.refused := rfl
@[simp] theorem arbitrate_mem : (arbitrate s).mem = s.mem := rfl
@[simp] theorem arbitrate_inputs : (arbitrate s).inputs = s.inputs := rfl
@[simp] theorem arbitrate_drawn : (arbitrate s).drawn = s.drawn := rfl
@[simp] theorem arbitrate_now : (arbitrate s).now = { s.now with owner := ladder s } := rfl
end arbitratePhase

section latchPhase
variable (s : State)
@[simp] theorem latch_cfg : (latch s).cfg = s.cfg := rfl
@[simp] theorem latch_clock : (latch s).blk.clock = s.blk.clock := rfl
@[simp] theorem latch_arb : (latch s).blk.arb = s.blk.arb := rfl
@[simp] theorem latch_cop : (latch s).blk.cop = s.blk.cop := rfl
@[simp] theorem latch_intc : (latch s).blk.intc =
    { s.blk.intc with level := priorityEncode s.cfg (s.blk.intc.pending &&& s.blk.intc.enable) } := rfl
@[simp] theorem latch_fault : (latch s).blk.fault = s.blk.fault := rfl
@[simp] theorem latch_refused : (latch s).blk.refused = s.blk.refused := rfl
@[simp] theorem latch_mem : (latch s).mem = s.mem := rfl
@[simp] theorem latch_inputs : (latch s).inputs = s.inputs := rfl
@[simp] theorem latch_drawn : (latch s).drawn = s.drawn := rfl
@[simp] theorem latch_now : (latch s).now = s.now := rfl
end latchPhase

section advancePhase
variable (s : State)
@[simp] theorem advance_cfg : (advance s).cfg = s.cfg := rfl
@[simp] theorem advance_clock : (advance s).blk.clock = { s.blk.clock with tick := s.blk.clock.tick + 1 } := rfl
@[simp] theorem advance_arb : (advance s).blk.arb = s.blk.arb := rfl
@[simp] theorem advance_cop : (advance s).blk.cop = s.blk.cop := rfl
@[simp] theorem advance_intc : (advance s).blk.intc = s.blk.intc := rfl
@[simp] theorem advance_fault : (advance s).blk.fault = s.blk.fault := rfl
@[simp] theorem advance_refused : (advance s).blk.refused = s.blk.refused := rfl
@[simp] theorem advance_mem : (advance s).mem = s.mem := rfl
@[simp] theorem advance_inputs : (advance s).inputs = s.inputs := rfl
@[simp] theorem advance_drawn : (advance s).drawn = s.drawn := rfl
@[simp] theorem advance_now : (advance s).now = s.now := rfl
end advancePhase

section commitPhase
variable (s : State)
@[simp] theorem commit_cfg : (commit s).cfg = s.cfg := rfl
@[simp] theorem commit_clock : (commit s).blk.clock = s.blk.clock := rfl
@[simp] theorem commit_arb : (commit s).blk.arb =
    { s.blk.arb with cpuWait := nextCpuWait s, lastOwner := s.now.owner, dmaEnable := mergedDmaEnable s } := rfl
@[simp] theorem commit_cop : (commit s).blk.cop = s.blk.cop := rfl
@[simp] theorem commit_intc : (commit s).blk.intc =
    { s.blk.intc with pending := mergedPending s, enable := mergedEnable s } := rfl
@[simp] theorem commit_fault : (commit s).blk.fault = s.blk.fault := rfl
@[simp] theorem commit_refused : (commit s).blk.refused = s.blk.refused := rfl
@[simp] theorem commit_mem : (commit s).mem = s.mem := rfl
@[simp] theorem commit_inputs : (commit s).inputs = s.inputs := rfl
@[simp] theorem commit_drawn : (commit s).drawn = s.drawn := rfl
@[simp] theorem commit_now : (commit s).now = s.now := rfl
end commitPhase

section samplePhase
variable (s : State)
@[simp] theorem sample_cfg : (sample s).cfg = s.cfg := rfl
@[simp] theorem sample_clock : (sample s).blk.clock = s.blk.clock := rfl
@[simp] theorem sample_arb : (sample s).blk.arb = s.blk.arb := rfl
@[simp] theorem sample_cop : (sample s).blk.cop = strobed s := rfl
@[simp] theorem sample_intc : (sample s).blk.intc = s.blk.intc := rfl
@[simp] theorem sample_fault : (sample s).blk.fault = s.blk.fault := rfl
@[simp] theorem sample_refused : (sample s).blk.refused = s.blk.refused := rfl
@[simp] theorem sample_mem : (sample s).mem = s.mem := rfl
@[simp] theorem sample_inputs : (sample s).inputs = s.inputs.tail := rfl
@[simp] theorem sample_drawn : (sample s).drawn = if s.inputs.isEmpty then s.drawn + 1 else s.drawn := rfl
@[simp] theorem sample_now : (sample s).now = freshNow s := rfl
end samplePhase

end Sys2Proof.Machine
end

