-- ==== Sys2Proof/Laws/Memory.lean ====
section
/-! SUPPORT. Platform storage: a read after a write, and the canonical form that every operation keeps. -/

namespace Sys2Proof.Machine

@[simp] theorem Memory.read_write_same (m : Memory) (x : Nat) (v : Byte) :
    Memory.read (Memory.write m x v) x = some v := by
  induction m with
  | nil => simp [Memory.write, Memory.read]
  | cons e rest ih =>
    obtain ⟨a, b⟩ := e
    simp only [Memory.write]
    split
    · simp [Memory.read]
    · split
      · simp [Memory.read, *]
      · simp [Memory.read, *]

theorem Memory.read_write_other (m : Memory) {x y : Nat} (v : Byte) (h : y ≠ x) :
    Memory.read (Memory.write m x v) y = Memory.read m y := by
  induction m with
  | nil => simp [Memory.write, Memory.read, h]
  | cons e rest ih =>
    obtain ⟨a, b⟩ := e
    simp only [Memory.write]
    split
    · simp [Memory.read, h]
    · split
      · next hx => subst hx; simp [Memory.read, h]
      · simp [Memory.read, ih]

theorem Memory.write_bounded (m : Memory) (x : Nat) (v : Byte) (P : Nat → Bool) (hm : m.all (fun e => P e.1))
    (hx : P x) : (Memory.write m x v).all (fun e => P e.1) := by
  induction m with
  | nil => simpa [Memory.write] using hx
  | cons e rest ih =>
    obtain ⟨a, b⟩ := e
    simp only [List.all_cons, Bool.and_eq_true] at hm
    simp only [Memory.write]
    split
    · simp only [List.all_cons, Bool.and_eq_true]; exact ⟨hx, hm⟩
    · split
      · simp only [List.all_cons, Bool.and_eq_true]; exact hm
      · simp only [List.all_cons, Bool.and_eq_true]; exact ⟨hm.1, ih hm.2⟩

theorem Memory.write_wf (m : Memory) (x : Nat) (v : Byte) (h : Memory.wf m) : Memory.wf (Memory.write m x v) := by
  induction m with
  | nil => simp [Memory.write, Memory.wf]
  | cons e rest ih =>
    obtain ⟨a, b⟩ := e
    simp only [Memory.wf, Bool.and_eq_true] at h
    simp only [Memory.write]
    split
    · next hx =>
      simp only [Memory.wf, List.all_cons, Bool.and_eq_true, decide_eq_true_eq]
      refine ⟨⟨hx, ?_⟩, h⟩
      have := h.1
      simp only [List.all_eq_true, decide_eq_true_eq] at this ⊢
      intro e he
      exact Nat.lt_trans hx (this e he)
    · split
      · simpa [Memory.wf] using h
      · next h1 h2 =>
        simp only [Memory.wf, Bool.and_eq_true]
        exact ⟨Memory.write_bounded rest x v (fun y => decide (a < y)) h.1 (by simp; omega), ih h.2⟩

theorem wrapAddr_lt (cfg : Config) (a : Nat) : wrapAddr cfg a < 2 ^ cfg.addrBits :=
  Nat.mod_lt _ (Nat.two_pow_pos _)

theorem addAddr_lt (cfg : Config) (a b : Nat) : addAddr cfg a b < 2 ^ cfg.addrBits := wrapAddr_lt cfg (a + b)

theorem storeByte_wf (cfg : Config) (a n : Nat) (v : BusValue) (m : Memory) (j : Nat) (h : Memory.wf m) :
    Memory.wf (storeByte cfg a n v m j) := by
  unfold storeByte; dsimp only; split
  · exact Memory.write_wf _ _ _ h
  · exact h

theorem storeByte_inSpace (cfg : Config) (a n : Nat) (v : BusValue) (m : Memory) (j : Nat)
    (h : Memory.inSpace cfg m) : Memory.inSpace cfg (storeByte cfg a n v m j) := by
  unfold storeByte; dsimp only; split
  · exact Memory.write_bounded _ _ _ (fun y => decide (y < 2 ^ cfg.addrBits)) h (by simp [addAddr_lt])
  · exact h

/-- What one stored byte does to a read of any address. -/
theorem read_storeByte (cfg : Config) (a n : Nat) (v : BusValue) (m : Memory) (j x : Nat) :
    Memory.read (storeByte cfg a n v m j) x =
      if isStorage cfg x ∧ x = addAddr cfg a j then some (byteAtOffset cfg.byteOrder n v j) else Memory.read m x := by
  unfold storeByte; dsimp only
  by_cases hx : x = addAddr cfg a j
  · subst hx; by_cases hs : isStorage cfg (addAddr cfg a j) <;> simp [hs]
  · by_cases hs : isStorage cfg (addAddr cfg a j) <;> simp [hs, hx, Memory.read_write_other]

theorem storeBytes_wf (cfg : Config) (m : Memory) (a : Nat) (w : Width) (v : BusValue) (h : Memory.wf m) :
    Memory.wf (storeBytes cfg m a w v) := by
  unfold storeBytes
  generalize List.range w.bytes = l
  induction l generalizing m with
  | nil => exact h
  | cons j l ih => exact ih _ (storeByte_wf _ _ _ _ _ _ h)

theorem storeBytes_inSpace (cfg : Config) (m : Memory) (a : Nat) (w : Width) (v : BusValue)
    (h : Memory.inSpace cfg m) : Memory.inSpace cfg (storeBytes cfg m a w v) := by
  unfold storeBytes
  generalize List.range w.bytes = l
  induction l generalizing m with
  | nil => exact h
  | cons j l ih => exact ih _ (storeByte_inSpace _ _ _ _ _ _ h)

/-- An address outside the access's bytes reads as before. -/
theorem read_storeBytes_other (cfg : Config) (m : Memory) (a : Nat) (w : Width) (v : BusValue) (x : Nat)
    (h : ∀ j < w.bytes, x ≠ addAddr cfg a j) : Memory.read (storeBytes cfg m a w v) x = Memory.read m x := by
  unfold storeBytes
  have : ∀ j ∈ List.range w.bytes, x ≠ addAddr cfg a j := fun j hj => h j (List.mem_range.mp hj)
  generalize List.range w.bytes = l at this
  induction l generalizing m with
  | nil => rfl
  | cons j l ih =>
    simp only [List.foldl_cons]
    rw [ih _ (fun k hk => this k (List.mem_cons_of_mem _ hk)), read_storeByte]
    simp [this j List.mem_cons_self]

/-- Byte `k` of an access whose bytes lie at different addresses is stored at its address. -/
theorem read_storeBytes_at (cfg : Config) (m : Memory) (a : Nat) (w : Width) (v : BusValue) (k : Nat)
    (hk : k < w.bytes) (hs : isStorage cfg (addAddr cfg a k))
    (hd : ∀ j < w.bytes, addAddr cfg a j = addAddr cfg a k → j = k) :
    Memory.read (storeBytes cfg m a w v) (addAddr cfg a k) = some (byteAtOffset cfg.byteOrder w.bytes v k) := by
  unfold storeBytes
  have hd' : ∀ j ∈ List.range w.bytes, addAddr cfg a j = addAddr cfg a k → j = k :=
    fun j hj => hd j (List.mem_range.mp hj)
  have hmem : k ∈ List.range w.bytes := List.mem_range.mpr hk
  have hnd : (List.range w.bytes).Nodup := List.nodup_range
  generalize List.range w.bytes = l at hd' hmem hnd
  generalize w.bytes = n
  induction l generalizing m with
  | nil => simp at hmem
  | cons j l ih =>
    simp only [List.foldl_cons]
    simp only [List.nodup_cons] at hnd
    by_cases hkl : k ∈ l
    · exact ih _ (fun i hi => hd' i (List.mem_cons_of_mem _ hi)) hkl hnd.2
    · have hjk : k = j := by simpa [hkl] using hmem
      subst hjk
      have : ∀ (l' : List Nat) (m' : Memory), (∀ i ∈ l', addAddr cfg a k ≠ addAddr cfg a i) →
          Memory.read (l'.foldl (storeByte cfg a n v) m') (addAddr cfg a k) = Memory.read m' (addAddr cfg a k) := by
        intro l' m' h'
        induction l' generalizing m' with
        | nil => rfl
        | cons i l' ih' =>
          simp only [List.foldl_cons]
          rw [ih' _ (fun p hp => h' p (List.mem_cons_of_mem _ hp)), read_storeByte]
          simp [h' i List.mem_cons_self]
      rw [this l _ (fun i hi e => hkl (hd' i (List.mem_cons_of_mem _ hi) e.symm ▸ hi)), read_storeByte]
      simp [hs]

end Sys2Proof.Machine
end

