-- ==== Sys2Proof/Laws/Bus.lean ====
section
/-! SUPPORT. What the bus operations leave unchanged: none touches the block's record; a write reaches only storage, the
buffered register write and the transaction record. -/

namespace Sys2Proof.Machine

/-- What phase P3 leaves unchanged, whatever runs in it: everything but the copper, the channels' fetch states, storage,
and the transaction, buffered write and CPU answer of the tick. -/
structure PerformFrame (s t : State) : Prop where
  cfg : t.cfg = s.cfg
  clock : t.blk.clock = s.blk.clock
  intc : t.blk.intc = s.blk.intc
  fault : t.blk.fault = s.blk.fault
  refused : t.blk.refused = s.blk.refused
  cpuWait : t.blk.arb.cpuWait = s.blk.arb.cpuWait
  lastOwner : t.blk.arb.lastOwner = s.blk.arb.lastOwner
  dmaEnable : t.blk.arb.dmaEnable = s.blk.arb.dmaEnable
  inputs : t.inputs = s.inputs
  drawn : t.drawn = s.drawn
  inp : t.now.inp = s.now.inp
  due : t.now.due = s.now.due
  stalled : t.now.stalled = s.now.stalled
  level : t.now.level = s.now.level
  owner : t.now.owner = s.now.owner

theorem PerformFrame.refl (s : State) : PerformFrame s s := by constructor <;> rfl

theorem PerformFrame.trans {s t u : State} (h : PerformFrame s t) (k : PerformFrame t u) : PerformFrame s u := by
  constructor
  · rw [k.cfg, h.cfg]
  · rw [k.clock, h.clock]
  · rw [k.intc, h.intc]
  · rw [k.fault, h.fault]
  · rw [k.refused, h.refused]
  · rw [k.cpuWait, h.cpuWait]
  · rw [k.lastOwner, h.lastOwner]
  · rw [k.dmaEnable, h.dmaEnable]
  · rw [k.inputs, h.inputs]
  · rw [k.drawn, h.drawn]
  · rw [k.inp, h.inp]
  · rw [k.due, h.due]
  · rw [k.stalled, h.stalled]
  · rw [k.level, h.level]
  · rw [k.owner, h.owner]

@[simp] theorem setNow_blk (s : State) (x : TickNow) : (s.setNow x).blk = s.blk := rfl
@[simp] theorem setMem_blk (s : State) (x : Memory) : (s.setMem x).blk = s.blk := rfl
@[simp] theorem setAnswer_blk (s : State) (x : CpuAnswer) : (s.setAnswer x).blk = s.blk := rfl
@[simp] theorem setTxn_blk (s : State) (q : SlotOwner) (d : Bool) (op : BusOp) (e : Bool) (v : BusValue) :
    (s.setTxn q d op e v).blk = s.blk := rfl

@[simp] theorem memWrite_blk (s : State) (a : Nat) (w : Width) (v : BusValue) : (memWrite s a w v).blk = s.blk := by
  unfold memWrite; split <;> rfl

@[simp] theorem memWrite_cfg (s : State) (a : Nat) (w : Width) (v : BusValue) : (memWrite s a w v).cfg = s.cfg := by
  unfold memWrite; split <;> rfl

@[simp] theorem memWrite_inputs (s : State) (a : Nat) (w : Width) (v : BusValue) :
    (memWrite s a w v).inputs = s.inputs := by unfold memWrite; split <;> rfl

@[simp] theorem memWrite_drawn (s : State) (a : Nat) (w : Width) (v : BusValue) :
    (memWrite s a w v).drawn = s.drawn := by unfold memWrite; split <;> rfl

/-- A write that is no bus error: to a block register it is buffered, elsewhere it reaches storage (R66, R67). -/
theorem memWrite_now (s : State) (a : Nat) (w : Width) (v : BusValue) :
    (memWrite s a w v).now =
      match blockRegAt s.cfg a with
      | some r => { s.now with regWrite := some (r, v.setWidth 16) }
      | none => s.now := by unfold memWrite; cases blockRegAt s.cfg a <;> rfl

theorem memWrite_mem (s : State) (a : Nat) (w : Width) (v : BusValue) :
    (memWrite s a w v).mem =
      match blockRegAt s.cfg a with
      | some _ => s.mem
      | none => storeBytes s.cfg s.mem a w v := by unfold memWrite; cases blockRegAt s.cfg a <;> rfl

theorem memWrite_frame (s : State) (a : Nat) (w : Width) (v : BusValue) : PerformFrame s (memWrite s a w v) := by
  unfold memWrite; split <;> constructor <;> rfl

theorem memWrite_wf (s : State) (a : Nat) (w : Width) (v : BusValue) (h : Memory.wf s.mem) :
    Memory.wf (memWrite s a w v).mem := by
  rw [memWrite_mem]; split
  · exact h
  · exact storeBytes_wf _ _ _ _ _ h

theorem memWrite_inSpace (s : State) (a : Nat) (w : Width) (v : BusValue) (h : Memory.inSpace s.cfg s.mem) :
    Memory.inSpace s.cfg (memWrite s a w v).mem := by
  rw [memWrite_mem]; split
  · exact h
  · exact storeBytes_inSpace _ _ _ _ _ h

@[simp] theorem dmaRead_blk (s : State) (c : Channel) (a : Nat) (w : Width) : (dmaRead s c a w).blk = s.blk := rfl
@[simp] theorem dmaRead_cfg (s : State) (c : Channel) (a : Nat) (w : Width) : (dmaRead s c a w).cfg = s.cfg := rfl
@[simp] theorem dmaRead_mem (s : State) (c : Channel) (a : Nat) (w : Width) : (dmaRead s c a w).mem = s.mem := rfl
theorem dmaRead_frame (s : State) (c : Channel) (a : Nat) (w : Width) : PerformFrame s (dmaRead s c a w) := by
  constructor <;> rfl

@[simp] theorem dmaWrite_blk (s : State) (c : Channel) (a : Nat) (w : Width) (v : BusValue) :
    (dmaWrite s c a w v).blk = s.blk := by unfold dmaWrite; dsimp only; split <;> simp

@[simp] theorem dmaWrite_cfg (s : State) (c : Channel) (a : Nat) (w : Width) (v : BusValue) :
    (dmaWrite s c a w v).cfg = s.cfg := by unfold dmaWrite; dsimp only; split <;> simp

/-- What a DMA or copper write does to storage (R65, R66). -/
theorem dmaWrite_mem (s : State) (c : Channel) (a : Nat) (w : Width) (v : BusValue) :
    (dmaWrite s c a w v).mem = if busError s.cfg a w then s.mem else (memWrite s a w v).mem := by
  unfold dmaWrite; dsimp only; split <;> simp

/-- What a DMA or copper write does to the buffered register write (R65, R67). -/
theorem dmaWrite_regWrite (s : State) (c : Channel) (a : Nat) (w : Width) (v : BusValue) :
    (dmaWrite s c a w v).now.regWrite =
      if busError s.cfg a w then s.now.regWrite else (memWrite s a w v).now.regWrite := by
  unfold dmaWrite; dsimp only; split <;> simp

theorem dmaWrite_frame (s : State) (c : Channel) (a : Nat) (w : Width) (v : BusValue) :
    PerformFrame s (dmaWrite s c a w v) := by
  unfold dmaWrite; dsimp only; split
  · constructor <;> rfl
  · exact (memWrite_frame s a w v).trans (by constructor <;> rfl)

theorem dmaWrite_wf (s : State) (c : Channel) (a : Nat) (w : Width) (v : BusValue) (h : Memory.wf s.mem) :
    Memory.wf (dmaWrite s c a w v).mem := by
  rw [dmaWrite_mem]; split
  · exact h
  · exact memWrite_wf _ _ _ _ h

theorem dmaWrite_inSpace (s : State) (c : Channel) (a : Nat) (w : Width) (v : BusValue)
    (h : Memory.inSpace s.cfg s.mem) : Memory.inSpace s.cfg (dmaWrite s c a w v).mem := by
  rw [dmaWrite_mem]; split
  · exact h
  · exact memWrite_inSpace _ _ _ _ h

@[simp] theorem dmaTransfer_blk (s : State) (c : Channel) (op : BusOp) : (dmaTransfer s c op).blk = s.blk := by
  unfold dmaTransfer; split <;> simp

@[simp] theorem dmaTransfer_cfg (s : State) (c : Channel) (op : BusOp) : (dmaTransfer s c op).cfg = s.cfg := by
  unfold dmaTransfer; split <;> simp

theorem dmaTransfer_frame (s : State) (c : Channel) (op : BusOp) : PerformFrame s (dmaTransfer s c op) := by
  unfold dmaTransfer; split
  · exact dmaRead_frame _ _ _ _
  · exact dmaWrite_frame _ _ _ _ _

theorem dmaTransfer_wf (s : State) (c : Channel) (op : BusOp) (h : Memory.wf s.mem) :
    Memory.wf (dmaTransfer s c op).mem := by
  unfold dmaTransfer; split
  · exact h
  · exact dmaWrite_wf _ _ _ _ _ h

theorem dmaTransfer_inSpace (s : State) (c : Channel) (op : BusOp) (h : Memory.inSpace s.cfg s.mem) :
    Memory.inSpace s.cfg (dmaTransfer s c op).mem := by
  unfold dmaTransfer; split
  · exact h
  · exact dmaWrite_inSpace _ _ _ _ _ h

/-- The bus error signal touches only the transaction record and the CPU's answer (R173, R281). -/
theorem raiseBusError_frame (s : State) (op : BusOp) :
    PerformFrame s (raiseBusError s op) ∧ (raiseBusError s op).blk = s.blk ∧ (raiseBusError s op).mem = s.mem
      ∧ (raiseBusError s op).now.regWrite = s.now.regWrite
      ∧ (raiseBusError s op).now.cpuAnswer = some ⟨none, 0, true, some op⟩ :=
  ⟨by constructor <;> rfl, rfl, rfl, rfl, rfl⟩

end Sys2Proof.Machine
end

