-- ==== Sys2Proof/Laws/Exec.lean ====
section
/-! SUPPORT. Everything the three instructions can do: each answers a next state, whose copper, storage and buffered
write these lemmas give. -/

namespace Sys2Proof.Machine

/-- MOVE to an allowed register (R199). -/
theorem exec_move_allowed {s : State} {ra : BitVec 9} (data : Word16) (h : moveAllowed s.cfg ra) :
    exec (.move ra data) s =
      .next ((dmaWrite s .copper (moveTarget s.cfg ra) .word (data.setWidth 32)).setCopState .fetch0) := by
  simp [exec, execMove, h]

/-- MOVE to a forbidden register (R200). -/
theorem exec_move_forbidden {s : State} {ra : BitVec 9} (data : Word16) (h : moveAllowed s.cfg ra = false) :
    exec (.move ra data) s = .next (s.setBlocked true) := by simp [exec, execMove, h]

/-- Every instruction answers a next state that differs as P3 allows, and in the copper's `state`, `pc` and `blocked`
only. -/
theorem exec_cases (i : Instr) (s : State) : ∃ t, exec i s = .next t ∧ PerformFrame s t ∧ t.blk.arb = s.blk.arb
    ∧ t.now.cpuAnswer = s.now.cpuAnswer ∧ (Memory.wf s.mem → Memory.wf t.mem)
    ∧ (Memory.inSpace s.cfg s.mem → Memory.inSpace s.cfg t.mem)
    ∧ (t.blk.cop = { s.blk.cop with state := .fetch0 }
      ∨ (t.blk.cop = { s.blk.cop with blocked := true } ∧ ∀ vp hp ve he bfd, i ≠ .skip vp hp ve he bfd)
      ∨ t.blk.cop = { s.blk.cop with state := .fetch0, pc := pcPlus s 4 }) := by
  cases i with
  | move ra data =>
    by_cases h : moveAllowed s.cfg ra
    · refine ⟨_, exec_move_allowed data h,
        (dmaWrite_frame s .copper (moveTarget s.cfg ra) .word (data.setWidth 32)).trans
          (by constructor <;> rfl), ?_, ?_, ?_, ?_, ?_⟩
      · simp
      · simp only [setCopState_now]; unfold dmaWrite memWrite; dsimp only; split
        · rfl
        · split <;> rfl
      · exact dmaWrite_wf s .copper _ _ _
      · exact dmaWrite_inSpace s .copper _ _ _
      · simp
    · exact ⟨_, exec_move_forbidden data (by simpa using h), by constructor <;> rfl, rfl, rfl, id, id, by simp⟩
  | wait vp hp ve he bfd =>
    simp only [exec, execWait]; split
    · exact ⟨_, rfl, by constructor <;> rfl, rfl, rfl, id, id, by simp⟩
    · exact ⟨_, rfl, by constructor <;> rfl, rfl, rfl, id, id, by simp⟩
  | skip vp hp ve he bfd =>
    simp only [exec, execSkip]; split
    · exact ⟨_, rfl, by constructor <;> rfl, rfl, rfl, id, id, by simp⟩
    · exact ⟨_, rfl, by constructor <;> rfl, rfl, rfl, id, id, by simp⟩

end Sys2Proof.Machine
end

