-- ==== Sys2Proof/Laws/Perform.lean ====
section
/-! SUPPORT. Phase P3: what each entry point can do, and what a whole P3 leaves unchanged. -/

namespace Sys2Proof.Machine

/-- Storage, transaction and buffered write: what only the owner's step may touch (R140). -/
structure BusUntouched (s t : State) : Prop where
  mem : t.mem = s.mem
  txn : t.now.txn = s.now.txn
  regWrite : t.now.regWrite = s.now.regWrite

theorem BusUntouched.refl (s : State) : BusUntouched s s := ⟨rfl, rfl, rfl⟩

theorem BusUntouched.trans {s t u : State} (h : BusUntouched s t) (k : BusUntouched t u) : BusUntouched s u :=
  ⟨k.mem.trans h.mem, k.txn.trans h.txn, k.regWrite.trans h.regWrite⟩

/-- The transaction a tick records is its owner's (R140). -/
def TxnByOwner (s : State) : Prop := ∀ x, s.now.txn = some x → x.request.requester = s.now.owner

/-- Storage stays canonical and inside the address space. -/
structure MemKept (s t : State) : Prop where
  wf : Memory.wf s.mem → Memory.wf t.mem
  inSpace : Memory.inSpace s.cfg s.mem → Memory.inSpace s.cfg t.mem

theorem MemKept.refl (s : State) : MemKept s s := ⟨id, id⟩

/-- The CPU's entry point writes the CPU's answer, and storage, transaction and buffered write only when the CPU owns
the tick (R172 to R174). -/
theorem cpuStep_cases (s : State) : PerformFrame s (cpuStep s) ∧ (cpuStep s).blk = s.blk ∧ MemKept s (cpuStep s)
    ∧ (s.now.owner ≠ .cpu → BusUntouched s (cpuStep s)) ∧ (TxnByOwner s → TxnByOwner (cpuStep s)) := by
  unfold cpuStep
  split
  · exact ⟨.refl s, rfl, .refl s, fun _ => .refl s, id⟩
  · next op _ =>
    split
    · exact ⟨.refl s, rfl, .refl s, fun _ => .refl s, id⟩
    · split
      · next ho =>
        split
        · refine ⟨(raiseBusError_frame s op).1, rfl, ⟨id, id⟩, fun h => absurd ho h, ?_⟩
          intro _ x hx
          simp only [raiseBusError, setNow_now, setTxn_now, Option.some.injEq] at hx ⊢
          subst hx; exact ho.symm
        · unfold cpuAccess
          split
          · refine ⟨by constructor <;> rfl, rfl, ⟨id, id⟩, fun h => absurd ho h, ?_⟩
            intro _ x hx
            simp only [setAnswer_now, setTxn_now, Option.some.injEq] at hx ⊢
            subst hx; exact ho.symm
          · have hf := memWrite_frame s op.addr op.width op.value
            refine ⟨hf.trans (by constructor <;> rfl), by simp,
              ⟨memWrite_wf _ _ _ _, memWrite_inSpace _ _ _ _⟩, fun h => absurd ho h, ?_⟩
            intro _ x hx
            simp only [setAnswer_now, setTxn_now, Option.some.injEq] at hx ⊢
            subst hx; rw [hf.owner]; exact ho.symm
      · exact ⟨by constructor <;> rfl, rfl, ⟨id, id⟩, fun _ => ⟨rfl, rfl, rfl⟩, id⟩

/-- A channel's entry point writes its own fetch state, and storage, transaction and buffered write only when it owns the
tick (R146 to R149). -/
theorem channelStep_cases (c : Channel) (s : State) : PerformFrame s (channelStep c s)
    ∧ (channelStep c s).blk.cop = s.blk.cop ∧ MemKept s (channelStep c s)
    ∧ ((channelStep c s).blk.arb = s.blk.arb ∨ ∃ d, (channelStep c s).blk.arb = setDma s.blk.arb c d
        ∧ (d = .requesting ∨ d = afterGrant (units s.cfg c) (dmaState s.blk.arb c)))
    ∧ (s.now.owner ≠ .channel c → BusUntouched s (channelStep c s))
    ∧ (TxnByOwner s → TxnByOwner (channelStep c s)) := by
  unfold channelStep
  split
  · exact ⟨.refl s, rfl, .refl s, .inl rfl, fun _ => .refl s, id⟩
  · split
    · next ho =>
      have hf := dmaTransfer_frame s c s.now.inp.xfer
      refine ⟨hf.trans ?_, by simp, ⟨dmaTransfer_wf _ _ _, dmaTransfer_inSpace _ _ _⟩,
        .inr ⟨_, rfl, .inr rfl⟩, fun h => absurd ho h, ?_⟩
      · constructor <;> first | rfl | simp [setDma]
      · intro _ x hx
        have hx' : (dmaTransfer s c s.now.inp.xfer).now.txn = some x := hx
        have hr : x.request.requester = .channel c := by
          unfold dmaTransfer at hx'; split at hx'
          · simp only [dmaRead, setTxn_now, Option.some.injEq] at hx'; subst hx'; rfl
          · simp only [dmaWrite, setTxn_now, Option.some.injEq] at hx'; subst hx'; rfl
        rw [hr]; exact (ho.symm.trans hf.owner.symm)
    · split
      · exact ⟨by constructor <;> rfl, rfl, ⟨id, id⟩, .inr ⟨_, rfl, .inl rfl⟩, fun _ => ⟨rfl, rfl, rfl⟩, id⟩
      · exact ⟨.refl s, rfl, .refl s, .inl rfl, fun _ => .refl s, id⟩

/-- The copper's registers after a step that may run: what each rule can leave (R193 to R207). -/
inductive CopMove (s : State) : Cop → Prop where
  /-- nothing (R192, R204) -/
  | hold : CopMove s s.blk.cop
  /-- out of Idle (R194) -/
  | wake (h : s.blk.cop.state = .idle) : CopMove s { s.blk.cop with state := .fetch0 }
  /-- the first word (R197) -/
  | first (ho : s.now.owner = .channel .copper) (h : s.blk.cop.state = .fetch0) :
      CopMove s { s.blk.cop with
        ir1 := (dmaReadValue s (listAddr s) .word).setWidth 16, pc := pcPlus s 2, state := .fetch1 }
  /-- the second word (R198) -/
  | second (ho : s.now.owner = .channel .copper) (h : s.blk.cop.state = .fetch1) (i : Instr)
      (hd : decodeWords s.blk.cop.ir1 ((dmaReadValue s (listAddr s) .word).setWidth 16) = .ok i) :
      CopMove s (latchInstr s.blk.cop (pcPlus s 2) ((dmaReadValue s (listAddr s) .word).setWidth 16) i)
  /-- an instruction is executed (R199 to R202) -/
  | execute (ho : s.now.owner = .channel .copper) (i : Instr) (h : currentInstr s.blk.cop = some i) (t : State)
      (he : exec i s = .next t) : CopMove s t.blk.cop
  /-- the poll succeeds (R207) -/
  | polled (h : s.blk.cop.state = .executeWait) (hb : s.blk.cop.blocked) (hc : waitHolds s.blk.cop.wait s.now.inp) :
      CopMove s { s.blk.cop with blocked := false, state := .fetch0 }

theorem exec_txn (i : Instr) (s t : State) (h : exec i s = .next t) :
    t.now.txn = s.now.txn ∨ ∃ x, t.now.txn = some x ∧ x.request.requester = .channel .copper := by
  cases i with
  | move ra data =>
    simp only [exec, execMove] at h
    split at h <;> cases h
    · exact .inr ⟨_, rfl, rfl⟩
    · exact .inl rfl
  | wait vp hp ve he bfd => simp only [exec, execWait] at h; split at h <;> cases h <;> exact .inl rfl
  | skip vp hp ve he bfd => simp only [exec, execSkip] at h; split at h <;> cases h <;> exact .inl rfl

/-- The decoder refuses only a MOVE with a reserved bit set (R96). -/
theorem decodeWords_error {ir1 ir2 : Word16} {e : DecodeError} (h : decodeWords ir1 ir2 = .error e) :
    ir1.getLsbD 0 = false ∧ reservedOf ir1 ≠ 0#7 := by
  unfold decodeWords at h
  split at h
  · split at h <;> cases h
  · next h0 =>
    split at h
    · cases h
    · next hr => exact ⟨by simpa using h0, hr⟩

/-- The copper's step: a next state that moves the copper's registers by one rule, or the refusal of a reserved MOVE at
the second fetch (R195, R198). -/
theorem copperStep_cases (s : State) :
    (∃ t, copperStep s = .next t ∧ PerformFrame s t ∧ t.blk.arb = s.blk.arb ∧ MemKept s t ∧ CopMove s t.blk.cop
      ∧ (s.now.owner ≠ .channel .copper → BusUntouched s t) ∧ (TxnByOwner s → TxnByOwner t)
      ∧ t.now.cpuAnswer = s.now.cpuAnswer)
    ∨ (copperStep s = .refused (.reservedMoveBits (instrPc s) s.blk.cop.ir1) ∧ s.now.owner = .channel .copper
      ∧ s.blk.cop.state = .fetch1 ∧ s.blk.cop.ir1.getLsbD 0 = false ∧ reservedOf s.blk.cop.ir1 ≠ 0#7) := by
  have keep : ∃ t, Host.Outcome.next (φ := Fault) (ρ := Refusal) s = .next t ∧ PerformFrame s t
      ∧ t.blk.arb = s.blk.arb ∧ MemKept s t ∧ CopMove s t.blk.cop
      ∧ (s.now.owner ≠ .channel .copper → BusUntouched s t) ∧ (TxnByOwner s → TxnByOwner t)
      ∧ t.now.cpuAnswer = s.now.cpuAnswer :=
    ⟨s, rfl, .refl s, rfl, .refl s, .hold, fun _ => .refl s, id, rfl⟩
  have run : s.now.owner = .channel .copper → ∀ i, currentInstr s.blk.cop = some i → ∃ t, exec i s = .next t
      ∧ PerformFrame s t ∧ t.blk.arb = s.blk.arb ∧ MemKept s t ∧ CopMove s t.blk.cop
      ∧ (s.now.owner ≠ .channel .copper → BusUntouched s t) ∧ (TxnByOwner s → TxnByOwner t)
      ∧ t.now.cpuAnswer = s.now.cpuAnswer := by
    intro ho i hi
    obtain ⟨t, he, hf, ha, hc, hw, hs, -⟩ := exec_cases i s
    refine ⟨t, he, hf, ha, ⟨hw, hs⟩, .execute ho i hi t he, fun h => absurd ho h, ?_, hc⟩
    intro hx x htx
    rcases exec_txn i s t he with h | ⟨y, hy, hr⟩
    · rw [hf.owner]; exact hx x (h ▸ htx)
    · rw [hy] at htx; cases htx; rw [hr, hf.owner, ho]
  unfold copperStep
  split
  · exact .inl keep
  · split
    · next ho =>
      unfold copperOwned
      split
      · exact .inl keep
      · next hst =>
        refine .inl ⟨_, rfl, (dmaRead_frame s .copper (listAddr s) .word).trans (by constructor <;> rfl), rfl, ⟨id, id⟩,
          .first ho hst, fun h => absurd ho h, ?_, rfl⟩
        intro _ x hx
        simp only [fetchFirst, setCop_now, dmaRead, setTxn_now, Option.some.injEq] at hx ⊢
        subst hx; exact ho.symm
      · next hst =>
        unfold fetchSecond
        dsimp only
        split
        · next i hd =>
          refine .inl ⟨_, rfl, (dmaRead_frame s .copper (listAddr s) .word).trans (by constructor <;> rfl), rfl,
            ⟨id, id⟩, .second ho hst i hd, fun h => absurd ho h, ?_, rfl⟩
          intro _ x hx
          simp only [setCop_now, dmaRead, setTxn_now, Option.some.injEq] at hx ⊢
          subst hx; exact ho.symm
        · next e hd => exact .inr ⟨rfl, ho, hst, decodeWords_error hd⟩
      all_goals
        · split
          · next i hi => exact .inl (run ho i hi)
          · exact .inl keep
    · split
      · next hst => exact .inl ⟨_, rfl, by constructor <;> rfl, rfl, ⟨id, id⟩, .wake hst, fun _ => ⟨rfl, rfl, rfl⟩, id, rfl⟩
      · split
        · next hb =>
          simp only [Bool.and_eq_true, beq_iff_eq] at hb
          refine .inl ⟨_, rfl, ?_⟩
          unfold poll
          split
          · next hc => exact ⟨by constructor <;> rfl, rfl, ⟨id, id⟩, .polled hb.2 hb.1 hc, fun _ => ⟨rfl, rfl, rfl⟩, id, rfl⟩
          · exact ⟨.refl s, rfl, .refl s, .hold, fun _ => .refl s, id, rfl⟩
        · exact .inl keep

/-- An entry point answers a next state within the frame of P3, or the copper's refusal. -/
theorem runEntry_cases (c : Component) (s : State) :
    (∃ t, runEntry c s = .next t ∧ PerformFrame s t ∧ MemKept s t ∧ (TxnByOwner s → TxnByOwner t))
    ∨ (c.kind = .channel .copper ∧ runEntry c s = .refused (.reservedMoveBits (instrPc s) s.blk.cop.ir1)
      ∧ s.blk.cop.ir1.getLsbD 0 = false ∧ reservedOf s.blk.cop.ir1 ≠ 0#7) := by
  obtain ⟨id, kind, d, p⟩ := c
  cases kind with
  | cpu =>
    obtain ⟨hf, -, hm, -, ht⟩ := cpuStep_cases s
    exact .inl ⟨_, rfl, hf, hm, ht⟩
  | channel ch =>
    by_cases h : ch = .copper
    · subst h
      rcases copperStep_cases s with ⟨t, he, hf, -, hm, -, -, ht, -⟩ | ⟨he, -, -, hr⟩
      · exact .inl ⟨t, he, hf, hm, ht⟩
      · exact .inr ⟨rfl, he, hr⟩
    · obtain ⟨hf, -, hm, -, -, ht⟩ := channelStep_cases ch s
      refine .inl ⟨channelStep ch s, ?_, hf, hm, ht⟩
      cases ch <;> first | rfl | exact absurd rfl h
  | timer => exact .inl ⟨s, rfl, .refl s, .refl s, fun h => h⟩
  | collaborator => exact .inl ⟨s, rfl, .refl s, .refl s, fun h => h⟩

/-- A whole P3 answers a next state within its frame, or the copper's refusal. -/
theorem runEntries_cases (cs : List Component) (s : State) :
    (∃ t, runEntries cs s = .next t ∧ PerformFrame s t ∧ MemKept s t ∧ (TxnByOwner s → TxnByOwner t))
    ∨ ∃ pc ir1, runEntries cs s = .refused (.reservedMoveBits pc ir1) ∧ ir1.getLsbD 0 = false
      ∧ reservedOf ir1 ≠ 0#7 := by
  induction cs generalizing s with
  | nil => exact .inl ⟨s, rfl, .refl s, .refl s, id⟩
  | cons c cs ih =>
    rcases runEntry_cases c s with ⟨t, he, hf, hm, ht⟩ | ⟨-, he, hd⟩
    · simp only [runEntries, he]
      rcases ih t with ⟨u, hu, hf', hm', ht'⟩ | hr
      · exact .inl ⟨u, hu, hf.trans hf', ⟨fun h => hm'.wf (hm.wf h), fun h => hf.cfg ▸ hm'.inSpace (hf.cfg ▸ hm.inSpace h)⟩,
          fun h => ht' (ht h)⟩
      · exact .inr hr
    · exact .inr ⟨_, _, by simp only [runEntries, he]; rfl, hd⟩

end Sys2Proof.Machine
end

