-- ==== Sys2Proof/Laws/Phases.lean ====
section
/-! SUPPORT. A registered component's step is the only one of its tick that touches its own part of the state: P3 splits
at that step. And the inversion of a whole step. -/

namespace Sys2Proof.Machine

/-- The SlotOwner value under which a component's step performs the tick's transaction. -/
def ownerOfKind : ComponentKind → SlotOwner
  | .cpu => .cpu
  | .channel c => .channel c
  | _ => .noOwner

/-- The part of the state that only the step of a component of this kind writes. -/
def OwnPartKept (k : ComponentKind) (s t : State) : Prop :=
  match k with
  | .cpu => t.now.cpuAnswer = s.now.cpuAnswer
  | .channel c =>
    if c = .copper then t.blk.cop = s.blk.cop else dmaState t.blk.arb c = dmaState s.blk.arb c
  | _ => True

theorem OwnPartKept.refl (k : ComponentKind) (s : State) : OwnPartKept k s s := by
  unfold OwnPartKept; split
  · rfl
  · split <;> rfl
  · trivial

theorem OwnPartKept.trans {k : ComponentKind} {s t u : State} (h : OwnPartKept k s t) (g : OwnPartKept k t u) :
    OwnPartKept k s u := by
  cases k with
  | cpu => exact Eq.trans (show u.now.cpuAnswer = t.now.cpuAnswer from g) h
  | channel c =>
    simp only [OwnPartKept] at *
    split at h <;> simp_all
  | timer => trivial
  | collaborator => trivial

theorem lookup_map_other {β : Type} (l : List (Channel × β)) (c c' : Channel) (d : β) (h : c' ≠ c) :
    (l.map (fun e => if e.1 = c then (e.1, d) else e)).lookup c' = l.lookup c' := by
  induction l with
  | nil => rfl
  | cons e l ih =>
    obtain ⟨a, b⟩ := e
    by_cases ha : a = c
    · subst ha
      have : (c' == a) = false := by simpa using h
      simp [List.lookup_cons, this, ih]
    · simp [List.lookup_cons, ha, ih]

/-- Writing one channel's fetch state leaves the others'. -/
theorem dmaState_setDma_other (a : Arb) {c c' : Channel} (d : DmaState) (h : c' ≠ c) :
    dmaState (setDma a c d) c' = dmaState a c' := by
  simp [dmaState, setDma, lookup_map_other _ _ _ _ h]

/-- Writing the fetch state of a channel that has an entry. -/
theorem dmaState_setDma_same (a : Arb) {c : Channel} (d : DmaState) (h : c ∈ a.dma.map (·.1)) :
    dmaState (setDma a c d) c = d := by
  unfold dmaState setDma
  generalize a.dma = l at h
  induction l with
  | nil => simp at h
  | cons e l ih =>
    obtain ⟨x, y⟩ := e
    by_cases hx : x = c
    · subst hx; simp
    · have hc : c ∈ l.map (·.1) := by
        rcases List.mem_cons.mp h with h | h
        · exact absurd h.symm hx
        · exact h
      have hb : (c == x) = false := by simpa using fun h : c = x => hx h.symm
      simp only [List.map_cons, hx, if_false, List.lookup_cons, hb]
      exact ih hc

theorem setDma_keys (a : Arb) (c : Channel) (d : DmaState) :
    (setDma a c d).dma.map (·.1) = a.dma.map (·.1) := by
  simp only [setDma, List.map_map]
  apply List.map_congr_left
  intro e _
  by_cases h : e.1 = c <;> simp [h]

@[simp] theorem memWrite_cpuAnswer (s : State) (a : Nat) (w : Width) (v : BusValue) :
    (memWrite s a w v).now.cpuAnswer = s.now.cpuAnswer := by
  rw [memWrite_now]; cases blockRegAt s.cfg a <;> rfl

@[simp] theorem dmaTransfer_cpuAnswer (s : State) (c : Channel) (op : BusOp) :
    (dmaTransfer s c op).now.cpuAnswer = s.now.cpuAnswer := by
  unfold dmaTransfer; split
  · rfl
  · unfold dmaWrite; dsimp only; split <;> simp

@[simp] theorem channelStep_cpuAnswer (c : Channel) (s : State) :
    (channelStep c s).now.cpuAnswer = s.now.cpuAnswer := by
  unfold channelStep; split
  · rfl
  · split
    · simp
    · split <;> rfl

/-- The step of a component of another kind leaves this kind's part, and leaves the bus alone when this kind owns the
tick (R116, R140). -/
theorem runEntry_other {k : ComponentKind} {c : Component} {s t : State} (hk : c.kind ≠ k)
    (hr : k = .cpu ∨ ∃ ch, k = .channel ch) (h : runEntry c s = .next t) :
    OwnPartKept k s t ∧ (s.now.owner = ownerOfKind k → BusUntouched s t) := by
  obtain ⟨id, kind, d, p⟩ := c
  simp only at hk
  cases kind with
  | cpu =>
    cases h
    obtain ⟨hf, hb, -, hu, -⟩ := cpuStep_cases s
    rcases hr with rfl | ⟨ch, rfl⟩
    · exact absurd rfl hk
    · refine ⟨?_, fun ho => hu (by rw [ho]; simp [ownerOfKind])⟩
      simp only [OwnPartKept]; split <;> rw [hb]
  | channel ch =>
    by_cases hc : ch = .copper
    · subst hc
      rcases copperStep_cases s with ⟨u, he, hf, ha, -, -, hu, -, hq⟩ | ⟨he, -⟩
      · have : u = t := by simpa [runEntry, he] using h
        subst this
        rcases hr with rfl | ⟨c', rfl⟩
        · exact ⟨hq, fun ho => hu (by rw [ho]; simp [ownerOfKind])⟩
        · have hne : c' ≠ .copper := fun e => hk (by rw [e])
          refine ⟨?_, fun ho => hu (by rw [ho]; simpa [ownerOfKind] using hne)⟩
          simp only [OwnPartKept, hne, if_false, ha]
      · simp [runEntry, he] at h
    · have hh : runEntry ⟨id, .channel ch, d, p⟩ s = .next (channelStep ch s) := by
        cases ch <;> first | rfl | exact absurd rfl hc
      rw [hh] at h; cases h
      obtain ⟨hf, hcop, -, ha, hu, -⟩ := channelStep_cases ch s
      rcases hr with rfl | ⟨c', rfl⟩
      · exact ⟨by simp [OwnPartKept], fun ho => hu (by rw [ho]; simp [ownerOfKind])⟩
      · have hne : c' ≠ ch := fun e => hk (by rw [e])
        refine ⟨?_, fun ho => hu (by rw [ho]; simpa [ownerOfKind] using hne)⟩
        simp only [OwnPartKept]; split
        · exact hcop
        · rcases ha with ha | ⟨d, ha, -⟩
          · rw [ha]
          · rw [ha, dmaState_setDma_other _ _ hne]
  | timer => cases h; exact ⟨.refl _ _, fun _ => .refl s⟩
  | collaborator => cases h; exact ⟨.refl _ _, fun _ => .refl s⟩

theorem runEntries_next_cons {c : Component} {cs : List Component} {s u : State} (h : runEntries (c :: cs) s = .next u) :
    ∃ t, runEntry c s = .next t ∧ runEntries cs t = .next u := by
  simp only [runEntries] at h
  split at h
  · next t ht => exact ⟨t, ht, h⟩
  · cases h
  · cases h

theorem runEntries_next_append {cs ds : List Component} {s u : State} (h : runEntries (cs ++ ds) s = .next u) :
    ∃ t, runEntries cs s = .next t ∧ runEntries ds t = .next u := by
  induction cs generalizing s with
  | nil => exact ⟨s, rfl, h⟩
  | cons c cs ih =>
    obtain ⟨t, ht, hr⟩ := runEntries_next_cons h
    obtain ⟨v, hv, hw⟩ := ih hr
    exact ⟨v, by simp only [runEntries, ht]; exact hv, hw⟩

/-- Steps of components of other kinds leave this kind's part, and the bus when this kind owns the tick. -/
theorem runEntries_other {k : ComponentKind} {cs : List Component} {s t : State} (hk : ∀ c ∈ cs, c.kind ≠ k)
    (hr : k = .cpu ∨ ∃ ch, k = .channel ch) (h : runEntries cs s = .next t) :
    PerformFrame s t ∧ OwnPartKept k s t ∧ (s.now.owner = ownerOfKind k → BusUntouched s t) := by
  induction cs generalizing s with
  | nil => cases h; exact ⟨.refl _, .refl _ _, fun _ => .refl _⟩
  | cons c cs ih =>
    obtain ⟨u, hu, hv⟩ := runEntries_next_cons h
    obtain ⟨ho, hb⟩ := runEntry_other (hk c List.mem_cons_self) hr hu
    have hf : PerformFrame s u := by
      rcases runEntry_cases c s with ⟨u', he, hf, -⟩ | ⟨-, he, -⟩
      · rw [he] at hu; cases hu; exact hf
      · rw [he] at hu; cases hu
    obtain ⟨hf', ho', hb'⟩ := ih (fun d hd => hk d (List.mem_cons_of_mem _ hd)) hv
    exact ⟨hf.trans hf', ho.trans ho', fun h => (hb h).trans (hb' (hf.owner.trans h))⟩

/-- The list of due components splits at the one component of kind `k`. -/
theorem split_at_kind {k : ComponentKind} {cs : List Component} (h1 : (cs.filter (fun c => c.kind = k)).length = 1) :
    ∃ pre c post, cs = pre ++ c :: post ∧ c.kind = k ∧ (∀ d ∈ pre, d.kind ≠ k) ∧ (∀ d ∈ post, d.kind ≠ k) := by
  induction cs with
  | nil => simp at h1
  | cons c cs ih =>
    by_cases hc : c.kind = k
    · simp only [List.filter_cons, hc, decide_true, if_true, List.length_cons] at h1
      have h0 : cs.filter (fun c => c.kind = k) = [] := List.eq_nil_of_length_eq_zero (by omega)
      refine ⟨[], c, cs, rfl, hc, by simp, fun d hd hk => ?_⟩
      have : d ∈ cs.filter (fun c => c.kind = k) := List.mem_filter.mpr ⟨hd, by simpa using hk⟩
      rw [h0] at this; cases this
    · simp only [List.filter_cons, hc, decide_false, Bool.false_eq_true, if_false] at h1
      obtain ⟨pre, e, post, rfl, he, hp, hq⟩ := ih h1
      exact ⟨c :: pre, e, post, rfl, he, fun d hd => by
        rcases List.mem_cons.mp hd with rfl | h
        · exact hc
        · exact hp d h, hq⟩

/-- P3 around the one step of a component of kind `k`: before it and after it, its own part is as P2 left it and as it
left it; when it owns the tick, so is the bus. -/
theorem perform_split {k : ComponentKind} {cs : List Component} {s t : State}
    (h1 : (cs.filter (fun c => c.kind = k)).length = 1) (hr : k = .cpu ∨ ∃ ch, k = .channel ch)
    (h : runEntries cs s = .next t) :
    ∃ c u v, c ∈ cs ∧ c.kind = k ∧ PerformFrame s u ∧ OwnPartKept k s u
      ∧ (s.now.owner = ownerOfKind k → BusUntouched s u)
      ∧ runEntry c u = .next v ∧ PerformFrame v t ∧ OwnPartKept k v t
      ∧ (s.now.owner = ownerOfKind k → BusUntouched v t) := by
  obtain ⟨pre, c, post, rfl, hc, hp, hq⟩ := split_at_kind h1
  obtain ⟨u, hu, hrest⟩ := runEntries_next_append h
  obtain ⟨v, hv, hw⟩ := runEntries_next_cons hrest
  obtain ⟨f1, o1, b1⟩ := runEntries_other hp hr hu
  obtain ⟨f2, o2, b2⟩ := runEntries_other hq hr hw
  refine ⟨c, u, v, by simp, hc, f1, o1, b1, hv, f2, o2, fun ho => b2 ?_⟩
  rcases runEntry_cases c u with ⟨v', he, hf, -⟩ | ⟨-, he, -⟩
  · rw [he] at hv; cases hv; rw [hf.owner, f1.owner, ho]
  · rw [he] at hv; cases hv

/-- Everything a step can do. It answers no next state when P0 finds the block stuck. Otherwise it records a broken
invariant, or the refusal of a reserved MOVE, on the start-of-tick state, or it finishes what P3 answers. -/
theorem step_cases (s : State) :
    (∃ o, stuckReason s = some o ∧ step s = o ∧ ∀ t, step s ≠ .next t)
    ∨ (stuckReason s = none ∧ ∃ n site, brokenInvariant s.cfg s.blk = some (n, site)
        ∧ step s = .next (recordFatal s (.invariantViolation n) site))
    ∨ (stuckReason s = none ∧ brokenInvariant s.cfg s.blk = none
        ∧ ∃ pc ir1, perform (begin s) = .refused (.reservedMoveBits pc ir1) ∧ ir1.getLsbD 0 = false
          ∧ reservedOf ir1 ≠ 0#7 ∧ step s = .next (recordRefusal s (.reservedMoveBits pc ir1)))
    ∨ (stuckReason s = none ∧ brokenInvariant s.cfg s.blk = none
        ∧ ∃ u, perform (begin s) = .next u ∧ step s = .next (finish u) ∧ PerformFrame (begin s) u
          ∧ MemKept (begin s) u ∧ TxnByOwner u) := by
  unfold step tick
  cases hs : stuckReason s with
  | some o =>
    refine .inl ⟨o, rfl, rfl, fun t ht => ?_⟩
    simp only at ht
    unfold stuckReason at hs
    split at hs
    · cases hs; cases ht
    · cases hs; cases ht
    · split at hs
      · cases hs; cases ht
      · cases hs
  | none =>
    right
    cases hb : brokenInvariant s.cfg s.blk with
    | some p => exact .inl ⟨rfl, p.1, p.2, rfl, rfl⟩
    | none =>
      right
      simp only [tickBody]
      rcases runEntries_cases (dueSet (begin s).cfg (begin s).tickNat) (begin s) with
        ⟨u, hu, hf, hm, ht⟩ | ⟨pc, ir1, hr, hd⟩
      · refine .inr ⟨trivial, trivial, u, hu, ?_, hf, hm, ht ?_⟩
        · rw [perform, hu]; rfl
        · intro x hx; simp [begin, freshNow] at hx
      · refine .inl ⟨trivial, trivial, pc, ir1, hr, hd.1, hd.2, ?_⟩
        rw [perform, hr]; rfl

/-- A step that stays free of fault and refusal is a whole tick. -/
theorem step_ran {s t : State} (h : step s = .next t) (hf : t.blk.fault = none) (hr : t.blk.refused = none) :
    ∃ u, perform (begin s) = .next u ∧ t = finish u ∧ PerformFrame (begin s) u ∧ MemKept (begin s) u ∧ TxnByOwner u
      ∧ stuckReason s = none ∧ brokenInvariant s.cfg s.blk = none := by
  rcases step_cases s with
    ⟨o, -, -, hn⟩ | ⟨-, n, site, -, he⟩ | ⟨-, -, pc, ir1, -, -, -, he⟩ | ⟨h0, h1, u, hu, he, hp, hm, ht⟩
  · exact absurd h (hn t)
  · rw [he] at h; cases h; simp [recordFatal] at hf
  · rw [he] at h; cases h; simp [recordRefusal] at hr
  · rw [he] at h; cases h; exact ⟨u, hu, rfl, hp, hm, ht, h0, h1⟩

end Sys2Proof.Machine
end

