-- ==== Sys2Proof/Laws/Valid.lean ====
section
/-! SUPPORT. What a configuration that passes R283 guarantees, in the terms proofs use. -/

namespace Sys2Proof.Machine

theorem failWhen_nil {bad : Bool} {n : Nat} : failWhen bad n = [] ↔ bad = false := by
  cases bad <;> simp [failWhen]

theorem failEach_nil {α : Type} {l : List α} {ok : α → Bool} {n : Nat} {id : α → Option Nat} :
    failEach l ok n id = [] ↔ ∀ a ∈ l, ok a = true := by
  simp [failEach, List.filter_eq_nil_iff]

/-- No two CPUs clash exactly when at most one is registered. -/
theorem oneCpu_of_clashing {l : List Component} (h : clashing bothCpu l = []) :
    (l.filter (fun c => c.kind = .cpu)).length ≤ 1 := by
  induction l with
  | nil => simp
  | cons c l ih =>
    simp only [clashing, List.append_eq_nil_iff, List.filter_eq_nil_iff] at h
    rw [List.filter_cons]
    split
    · next hc =>
      have : l.filter (fun c => c.kind = .cpu) = [] := by
        rw [List.filter_eq_nil_iff]
        intro d hd hk
        exact h.1 d hd (by simp [bothCpu, of_decide_eq_true hc, of_decide_eq_true hk])
      simp [this]
    · exact ih h.2

/-- The checks of R283 read as facts. -/
structure ValidFacts (cfg : Config) : Prop where
  divisor : ∀ c ∈ cfg.components, 0 < c.divisor ∧ c.phase < c.divisor
  oneCpu : (cfg.components.filter (fun c => c.kind = .cpu)).length ≤ 1
  registered : ∀ c ∈ cfg.chans, (cfg.components.filter (fun k => k.kind = .channel c)).length = 1
  orderIn : ∀ c ∈ cfg.channelOrder, c ∈ cfg.chans
  inOrder : ∀ c ∈ cfg.chans, c ∈ cfg.channelOrder
  chanRange : ∀ c ∈ cfg.chans, channelInRange cfg c
  fpsNum : 0 < cfg.fpsNum
  frame : 1 ≤ frameNum cfg / cfg.fpsNum
  cost : ∀ o, 1 ≤ contentionCost cfg o
  unitsPos : ∀ c ∈ cfg.dmaChans, 1 ≤ units cfg c
  nSrcPos : 1 ≤ cfg.nSrc
  nSrcTop : cfg.nSrc ≤ 15
  level : ∀ i < cfg.nSrc, 1 ≤ levelOf cfg i ∧ levelOf cfg i ≤ 7
  dmaBit : ∀ c ∈ cfg.chans, dmaBit cfg c ≤ 14
  addrBitsPos : 1 ≤ cfg.addrBits
  addrBitsTop : cfg.addrBits ≤ 32
  regEven : ∀ r, regAddr cfg r % 2 = 0
  regMapped : ∀ r, isMapped cfg (regAddr cfg r) .word
  regRange : ∀ r, regAddr cfg r < 2 ^ cfg.addrBits
  regDistinct : ∀ r r', regAddr cfg r = regAddr cfg r' → r = r'
  listBaseEven : cfg.copperListBase % 2 = 0
  regBaseEven : cfg.regBase % 2 = 0
  alignPos : ∀ w, 0 < align cfg w

theorem lookup_getD_mem {α β : Type} [BEq α] [LawfulBEq α] (l : List (α × β)) (a : α) (d : β) :
    (l.lookup a).getD d = d ∨ ∃ e ∈ l, e.1 = a ∧ (l.lookup a).getD d = e.2 := by
  induction l with
  | nil => exact .inl rfl
  | cons e l ih =>
    obtain ⟨x, y⟩ := e
    by_cases hx : a == x
    · right; refine ⟨(x, y), List.mem_cons_self, (eq_of_beq hx).symm, ?_⟩
      simp [List.lookup_cons, hx]
    · simp only [List.lookup_cons, hx]
      rcases ih with h | ⟨e, he, h1, h2⟩
      · exact .inl h
      · exact .inr ⟨e, List.mem_cons_of_mem _ he, h1, h2⟩

theorem mem_blockRegs (r : BlockReg) : r ∈ blockRegs := by cases r <;> simp [blockRegs]

theorem noRepeats_map_inj {cfg : Config} (h : noRepeats (blockRegs.map (regAddr cfg))) {r r' : BlockReg}
    (e : regAddr cfg r = regAddr cfg r') : r = r' := by
  simp only [blockRegs, List.map_cons, List.map_nil, noRepeats, List.contains_cons, List.contains_nil,
    Bool.or_false, Bool.and_true, Bool.and_eq_true, Bool.not_eq_true', Bool.or_eq_false_iff, beq_eq_false_iff_ne,
    ne_eq] at h
  obtain ⟨⟨h1, h2⟩, h3, -⟩ := h
  cases r <;> cases r' <;> first
    | rfl
    | (exfalso; first | exact h1 e | exact h2 e | exact h3 e | exact h1 e.symm | exact h2 e.symm | exact h3 e.symm)

theorem powerOfTwo_pos {n : Nat} (h : powerOfTwo n) : 0 < n := by
  simp only [powerOfTwo, Bool.and_eq_true, bne_iff_ne, ne_eq] at h; omega

theorem validFacts {cfg : Config} (h : configValid cfg) : ValidFacts cfg := by
  simp only [configValid, configErrors, List.isEmpty_iff, List.append_eq_nil_iff, checkIds, checkChannels, checkFrames,
    checkCrystal, checkCosts, checkSources, checkDmaBits, checkRegisters, checkAddresses, checkWidths, failWhen_nil,
    failEach_nil, List.map_eq_nil_iff] at h
  obtain ⟨⟨⟨⟨⟨⟨⟨⟨⟨⟨hdiv, -, hcpu⟩, ⟨hreg, hord⟩, hrange⟩, hfr⟩, hcr⟩, hcost, hunits⟩, hsrc⟩, hbit⟩, hregs⟩, haddr⟩,
    hw⟩ := h
  simp only [Bool.or_eq_false_iff, Bool.not_eq_false', Bool.and_eq_true, List.all_eq_true, decide_eq_true_eq,
    beq_eq_false_iff_ne, bne_eq_false_iff_eq, decide_eq_false_iff_not, beq_iff_eq, List.contains_iff_mem, ne_eq,
    List.mem_range, List.mem_cons, List.mem_map] at hreg hord hrange hfr hcost hunits hsrc hbit hregs haddr hw
  have hal : ∀ w, 0 < align cfg w := by
    intro w; cases w
    · exact powerOfTwo_pos hw.1.1.1.1
    · exact powerOfTwo_pos hw.1.1.1.2
    · exact powerOfTwo_pos hw.1.1.2
  refine ⟨?_, oneCpu_of_clashing hcpu, fun c hc => by simpa [registeredOnce] using hreg c hc, hord.1.2, hord.2, hrange,
    by omega, by omega, ?_, hunits, by omega, by omega, hsrc.2, hbit, by omega, by omega,
    fun r => (hregs.2 r (mem_blockRegs r)).1, fun r => (hregs.2 r (mem_blockRegs r)).2,
    fun r => haddr.2 _ (.inr (.inr ⟨r, mem_blockRegs r, rfl⟩)), fun r r' => noRepeats_map_inj hregs.1,
    by omega, by omega, hal⟩
  · intro c hc
    have := List.flatMap_eq_nil_iff.mp hdiv c hc
    simp only [List.append_eq_nil_iff] at this
    obtain ⟨a, b⟩ := this
    split at a
    · cases a
    · split at b
      · constructor <;> omega
      · cases b
  · intro o
    unfold contentionCost
    rcases lookup_getD_mem cfg.contention o 1 with h | ⟨e, he, -, h2⟩
    · omega
    · rw [h2]; exact hcost e he

end Sys2Proof.Machine
end

