-- ==== Sys2Proof/Laws/Chain.lean ====
section
/-! SUPPORT. The SET/CLR commits bit by bit, their implemented bits, and the bounds of the priority encoder. -/

namespace Sys2Proof.Machine

/-- The commit of a register, bit by bit (R156, R233, R234). -/
theorem applyMasks_getLsbD (x sets clears : BitVec 15) {i : Nat} (hi : i < 15) :
    (applyMasks x sets clears).getLsbD i = ((x.getLsbD i || sets.getLsbD i) && !clears.getLsbD i) := by
  simp [applyMasks, hi]

/-- The two masks of a write (R232): a set bit of `v` on an implemented bit, on the side that bit 15 selects. -/
theorem setClr_fst_getLsbD (v : Word16) (m : BitVec 15) {i : Nat} (hi : i < 15) :
    (setClr v m).1.getLsbD i = (v.getLsbD 15 && v.getLsbD i && m.getLsbD i) := by
  unfold setClr; cases v.getLsbD 15 <;> simp [hi]

theorem setClr_snd_getLsbD (v : Word16) (m : BitVec 15) {i : Nat} (hi : i < 15) :
    (setClr v m).2.getLsbD i = (!v.getLsbD 15 && v.getLsbD i && m.getLsbD i) := by
  unfold setClr; cases v.getLsbD 15 <;> simp [hi]

/-- A set of bits inside the implemented ones stays inside under a commit whose SETs are. -/
theorem applyMasks_outside {x s m : BitVec 15} (c : BitVec 15) (hx : x &&& ~~~m = 0) (hs : s &&& ~~~m = 0) :
    applyMasks x s c &&& ~~~m = 0 := by
  unfold applyMasks
  ext i hi
  have h1 := congrArg (fun v => v.getLsbD i) hx
  have h2 := congrArg (fun v => v.getLsbD i) hs
  simp [hi] at h1 h2 ⊢
  cases hh : x[i] <;> cases hh2 : s[i] <;> simp_all

theorem writeMasks_outside (w : Option (BlockReg × Word16)) (r : BlockReg) (m : BitVec 15) :
    (writeMasks w r m).1 &&& ~~~m = 0 := by
  unfold writeMasks
  split
  · split
    · unfold setClr; dsimp only; split
      · ext i hi; simp
      · simp
    · simp
  · simp

theorem or_outside {x m : BitVec 15} (y : BitVec 15) (hx : x &&& ~~~m = 0) : (x ||| (y &&& m)) &&& ~~~m = 0 := by
  ext i hi
  have h1 := congrArg (fun v => v.getLsbD i) hx
  simp [hi] at h1 ⊢
  cases hh : x[i] <;> simp_all

/-- The implemented bits of the interrupt registers: those below NSRC (R232). -/
theorem srcMask_getLsbD (cfg : Config) {i : Nat} (hi : i < 15) : (srcMask cfg).getLsbD i = decide (i < cfg.nSrc) := by
  unfold srcMask
  rw [BitVec.getLsbD_ofNat, Nat.testBit_two_pow_sub_one]
  simp [hi]

/-- The greatest of a list of levels bounds each of them, and is one of them when there is one (R236). -/
theorem foldr_max_spec (f : Nat → Nat) (l : List Nat) :
    (∀ i ∈ l, f i ≤ l.foldr (fun i m => max (f i) m) 0) ∧
    (l = [] ∨ ∃ i ∈ l, l.foldr (fun i m => max (f i) m) 0 = f i) := by
  induction l with
  | nil => simp
  | cons a l ih =>
    obtain ⟨h1, h2⟩ := ih
    refine ⟨?_, .inr ?_⟩
    · intro i hi
      simp only [List.foldr_cons]
      rcases List.mem_cons.mp hi with rfl | hi
      · exact Nat.le_max_left _ _
      · exact Nat.le_trans (h1 i hi) (Nat.le_max_right _ _)
    · simp only [List.foldr_cons]
      rcases Nat.le_total (f a) (l.foldr (fun i m => max (f i) m) 0) with h | h
      · rcases h2 with rfl | ⟨i, hi, e⟩
        · exact ⟨a, List.mem_cons_self, by simp⟩
        · exact ⟨i, List.mem_cons_of_mem _ hi, by rw [Nat.max_eq_right h, e]⟩
      · exact ⟨a, List.mem_cons_self, Nat.max_eq_left h⟩

/-- Under a valid configuration a level is at most 7 (R236). -/
theorem priorityEncode_le_seven {cfg : Config} (V : ValidFacts cfg) (x : BitVec 15) : priorityEncode cfg x ≤ 7 := by
  unfold priorityEncode
  rcases (foldr_max_spec (levelOf cfg) ((List.range cfg.nSrc).filter (fun i => x.getLsbD i))).2 with h | ⟨i, hi, h⟩
  · rw [h]; simp
  · rw [h]
    exact (V.level i (List.mem_range.mp (List.mem_filter.mp hi).1)).2

/-- R43 holds exactly when each of its invariants holds. -/
theorem brokenInvariant_none {cfg : Config} {b : Block} : brokenInvariant cfg b = none ↔
    inv1 cfg b ∧ inv2 cfg b ∧ inv3 b ∧ inv4 b ∧ inv5 cfg b ∧ inv6 cfg b ∧ inv7 cfg b := by
  unfold brokenInvariant
  constructor
  · intro h
    repeat' split at h
    all_goals simp_all
  · rintro ⟨h1, h2, h3, h4, h5, h6, h7⟩; simp [*]

end Sys2Proof.Machine
end

