-- ==== Sys2Proof/Laws/Encoding.lean ====
section
/-! SUPPORT. The bit fields of the instruction words: each field reads back from the word it was written into, and a word
is put together again from its fields. -/

namespace Sys2Proof

theorem fieldOf_evenOperand (f : BitVec 7) : fieldOf (evenOperand f) = f := by
  unfold fieldOf evenOperand
  ext i hi
  interval_cases i <;> simp

theorem evenOperand_fieldOf {v : BitVec 8} (h : evenBits v = true) : evenOperand (fieldOf v) = v := by
  have h0 : v[0] = false := by simpa [evenBits] using h
  unfold fieldOf evenOperand
  ext i hi
  interval_cases i <;> simp [h0]

theorem evenBits_evenOperand (f : BitVec 7) : evenBits (evenOperand f) = true := by simp [evenBits, evenOperand]

theorem evenBits_raOf (w : Word16) : evenBits (raOf w) = true := by simp [evenBits, raOf]

/-! Fields of IR1 of a MOVE. -/

theorem raOf_moveWord {ra : BitVec 9} (h : evenBits ra = true) : raOf ((ra.extractLsb' 1 8).setWidth 16 <<< 1) = ra := by
  have h0 : ra[0] = false := by simpa [evenBits] using h
  unfold raOf
  ext i hi
  interval_cases i <;> simp [h0]

theorem reservedOf_moveWord (ra : BitVec 9) : reservedOf ((ra.extractLsb' 1 8).setWidth 16 <<< 1) = 0#7 := by
  unfold reservedOf
  ext i hi
  interval_cases i <;> simp

theorem moveWord_raOf {w : Word16} (h0 : w.getLsbD 0 = false) (hr : reservedOf w = 0#7) :
    ((raOf w).extractLsb' 1 8).setWidth 16 <<< 1 = w := by
  have hb : ∀ i < 7, w.getLsbD (9 + i) = false := by
    intro i hi
    have := congrArg (fun v => v.getLsbD i) hr
    simpa [reservedOf, hi] using this
  have h9 := hb 0; have h10 := hb 1; have h11 := hb 2; have h12 := hb 3; have h13 := hb 4; have h14 := hb 5
  have h15 := hb 6
  simp only [BitVec.getLsbD_eq_getElem, Nat.reduceLT, forall_true_left, Nat.reduceAdd] at h0 h9 h10 h11 h12 h13 h14 h15
  unfold raOf
  ext i hi
  interval_cases i <;> simp [*]

/-! Fields of IR1 of a WAIT or SKIP. -/

theorem beamWord1_type (vp hp : BitVec 8) : (beamWord1 vp hp)[0] = true := by simp [beamWord1]

theorem vpOf_beamWord1 (vp hp : BitVec 8) : vpOf (beamWord1 vp hp) = vp := by
  unfold vpOf beamWord1
  ext i hi
  interval_cases i <;> simp

theorem hpOf_beamWord1 (vp hp : BitVec 8) : hpOf (beamWord1 vp hp) = fieldOf hp := by
  unfold hpOf beamWord1 fieldOf
  ext i hi
  interval_cases i <;> simp

theorem beamWord1_fields {w : Word16} (h : w.getLsbD 0 = true) :
    beamWord1 (vpOf w) (evenOperand (hpOf w)) = w := by
  have h0 : w[0] = true := by simpa using h
  unfold beamWord1
  rw [fieldOf_evenOperand]
  unfold vpOf hpOf
  ext i hi
  interval_cases i <;> simp [h0]

/-! Fields of IR2 of a WAIT or SKIP. -/

theorem beamWord2_type (ve : BitVec 7) (he : BitVec 8) (bfd s : BitVec 1) :
    (beamWord2 ve he bfd s)[0] = s[0] := by simp [beamWord2]

theorem veOf_beamWord2 (ve : BitVec 7) (he : BitVec 8) (bfd s : BitVec 1) : veOf (beamWord2 ve he bfd s) = ve := by
  unfold veOf beamWord2
  ext i hi
  interval_cases i <;> simp

theorem heOf_beamWord2 (ve : BitVec 7) (he : BitVec 8) (bfd s : BitVec 1) :
    heOf (beamWord2 ve he bfd s) = fieldOf he := by
  unfold heOf beamWord2 fieldOf
  ext i hi
  interval_cases i <;> simp

theorem bfdOf_beamWord2 (ve : BitVec 7) (he : BitVec 8) (bfd s : BitVec 1) : bfdOf (beamWord2 ve he bfd s) = bfd := by
  unfold bfdOf beamWord2
  ext i hi
  interval_cases i; simp

theorem beamWord2_fields {w : Word16} {s : BitVec 1} (h : w.getLsbD 0 = s.getLsbD 0) :
    beamWord2 (veOf w) (evenOperand (heOf w)) (bfdOf w) s = w := by
  have h0 : s[0] = w[0] := by simpa using h.symm
  unfold beamWord2
  rw [fieldOf_evenOperand]
  unfold veOf heOf bfdOf
  ext i hi
  interval_cases i <;> simp [h0]

/-! Bytes of a word (R61). -/

theorem wordOfBytes_bytesOfWord_big (w : Word16) :
    wordOfBytes .big (w.extractLsb' 8 8) (w.extractLsb' 0 8) = w := by
  unfold wordOfBytes
  ext i hi
  interval_cases i <;> simp

theorem wordOfBytes_bytesOfWord_little (w : Word16) :
    wordOfBytes .little (w.extractLsb' 0 8) (w.extractLsb' 8 8) = w := by
  unfold wordOfBytes
  ext i hi
  interval_cases i <;> simp

end Sys2Proof
end

