-- ==== Sys2Proof/Laws/HostCalls.lean ====
section
/-! SUPPORT. What the host's entry points can do: stuck blocks, one hosted tick, a restored block, a rejected
configuration. -/

namespace Sys2Proof.Machine

/-- A block is stuck exactly by a sticky record or at the top of the counter (R114 P0, R118). -/
theorem isStuck_iff (s : State) : isStuck s = true ↔ hasStopped s = true ∨ s.blk.clock.tick = topTick := by
  unfold isStuck stuckReason hasStopped
  cases s.blk.fault <;> cases s.blk.refused <;> simp

/-- No step follows a sticky record (R39, R285, R287). -/
theorem no_step_of_hasStopped {s : State} (h : hasStopped s = true) (t : State) : step s ≠ .next t := by
  intro ht
  unfold step tick stuckReason at ht
  cases hf : s.blk.fault <;> cases hr : s.blk.refused <;> simp_all [hasStopped]

/-- A tick that P0 lets start advances the counter by 1, or records that the block has stopped. -/
theorem hostTick_spec {s : State} (h : isStuck s = false) :
    (hostTick s).cfg = s.cfg ∧ (hostTick s).blk.clock.frameAcc = s.blk.clock.frameAcc ∧
    (hostTick s).blk.clock.tick.toNat + (if hasStopped (hostTick s) = true then 1 else 0) =
      s.blk.clock.tick.toNat + 1 := by
  have hn : ¬ (hasStopped s = true ∨ s.blk.clock.tick = topTick) := by rw [← isStuck_iff]; simp [h]
  rw [not_or] at hn
  have hlt : s.blk.clock.tick.toNat + 1 < 2 ^ 64 := by
    have := s.blk.clock.tick.isLt
    have : s.blk.clock.tick.toNat ≠ 2 ^ 64 - 1 := fun e => hn.2 (BitVec.eq_of_toNat_eq (by rw [e]; rfl))
    omega
  have hh : ∀ {u : State}, step s = .next u → hostTick s = u := fun he => by
    unfold hostTick; unfold step at he; rw [he]
  rcases step_cases s with ⟨o, ho, -, -⟩ | ⟨-, n, site, -, he⟩ | ⟨-, -, pc, ir1, -, -, -, he⟩ |
    ⟨-, -, u, -, he, hp, -, -⟩
  · unfold isStuck at h; rw [ho] at h; cases h
  · rw [hh he]; simp [recordFatal, State.setFault, hasStopped]
  · rw [hh he]; simp [recordRefusal, State.setRefused, hasStopped]
  · rw [hh he]
    have hc : u.blk.clock = s.blk.clock := hp.clock
    have hf : hasStopped (finish u) = hasStopped s := by
      show (u.blk.fault.isSome || u.blk.refused.isSome) = _
      rw [hp.fault, hp.refused]; rfl
    refine ⟨hp.cfg, show u.blk.clock.frameAcc = _ by rw [hc], ?_⟩
    rw [hf, if_neg hn.1]
    show (u.blk.clock.tick + 1).toNat + 0 = _
    rw [hc, BitVec.toNat_add]; simp; omega

/-! ### A restored block (R265, R39) -/

@[simp] theorem restored_clock (b old : Block) : (restored b old).clock = b.clock := rfl
@[simp] theorem restored_arb (b old : Block) : (restored b old).arb = b.arb := rfl
@[simp] theorem restored_cop (b old : Block) : (restored b old).cop = b.cop := rfl
@[simp] theorem restored_intc (b old : Block) : (restored b old).intc = b.intc := rfl
@[simp] theorem restored_fault (b old : Block) : (restored b old).fault = old.fault.or b.fault := rfl
@[simp] theorem restored_refused (b old : Block) : (restored b old).refused = old.refused.or b.refused := rfl

/-- A block restored from itself. -/
theorem restored_self (b : Block) : restored b b = b := by
  obtain ⟨_, _, _, _, f, r⟩ := b
  cases f <;> cases r <;> rfl

/-! ### A rejected configuration (R283, R284) -/

/-- A failed check is reported, and no block exists. -/
theorem configure_error {cfg : Config} {e : ConfigurationError} (h : e ∈ configErrors cfg) :
    ∃ errs, configure cfg = .error errs ∧ e ∈ errs := by
  refine ⟨_, ?_, h⟩
  unfold configure configValid
  rw [if_neg]; intro k; rw [List.isEmpty_iff] at k; rw [k] at h; cases h

end Sys2Proof.Machine
end

