-- ==== Sys2Proof/Laws/Ladder.lean ====
section
/-! SUPPORT. What the ladder's answer says about the state, and when a due component's step runs. -/

namespace Sys2Proof.Machine

/-- A channel that owns the tick is in CHANNEL_ORDER, eligible, and mid-fetch or requesting. -/
theorem ladder_channel {s : State} {c : Channel} (h : ladder s = .channel c) :
    c ∈ s.cfg.channelOrder ∧ eligible s c ∧ (midFetch s c ∨ requesting s c) := by
  unfold ladder at h
  split at h
  · cases h
  · split at h
    · next c' hc =>
      cases h
      have := List.find?_some hc
      simp only [Bool.and_eq_true] at this
      exact ⟨List.mem_of_find?_eq_some hc, this.1, .inl this.2⟩
    · split at h
      · next c' hc =>
        cases h
        have := List.find?_some hc
        simp only [Bool.and_eq_true] at this
        exact ⟨List.mem_of_find?_eq_some hc, this.1, .inr this.2⟩
      · split at h <;> cases h

/-- A CPU that owns the tick is a candidate. -/
theorem ladder_cpu {s : State} (h : ladder s = .cpu) : cpuCandidate s := by
  unfold ladder at h
  split at h
  · cases h
  · split at h
    · cases h
    · split at h
      · cases h
      · split at h
        · assumption
        · cases h

@[simp] theorem begin_cfg (s : State) : (begin s).cfg = s.cfg := rfl
@[simp] theorem begin_clock (s : State) : (begin s).blk.clock = s.blk.clock := rfl
@[simp] theorem begin_arb (s : State) : (begin s).blk.arb = s.blk.arb := rfl
@[simp] theorem begin_cop (s : State) : (begin s).blk.cop = strobed s := rfl
@[simp] theorem begin_intc (s : State) : (begin s).blk.intc = s.blk.intc := rfl
@[simp] theorem begin_mem (s : State) : (begin s).mem = s.mem := rfl
@[simp] theorem begin_fault (s : State) : (begin s).blk.fault = s.blk.fault := rfl
@[simp] theorem begin_refused (s : State) : (begin s).blk.refused = s.blk.refused := rfl
@[simp] theorem begin_tickNat (s : State) : (begin s).tickNat = s.tickNat := rfl
@[simp] theorem begin_owner (s : State) : (begin s).now.owner = ladder (sample s) := rfl

/-- The ladder reads nothing of the owner that P2 has still to write. -/
theorem ladder_begin (s : State) : ladder (begin s) = (begin s).now.owner := rfl

/-- A copper that owns the tick is not blocked and not Idle (R143, R195). -/
theorem copper_owner_state {s : State} (h : (begin s).now.owner = .channel .copper) :
    (strobed s).blocked = false ∧ (strobed s).state ≠ .idle ∧ eligible (begin s) .copper := by
  obtain ⟨-, he, hm⟩ := ladder_channel (s := begin s) h
  simp only [midFetch, requesting, if_true, copMidFetch, copRequesting, begin_cop, Bool.and_eq_true,
    Bool.not_eq_true', Bool.or_eq_true, beq_iff_eq] at hm
  rcases hm with ⟨hb, hs⟩ | ⟨hb, hs⟩
  · refine ⟨hb, ?_, he⟩; rcases hs with ((hs | hs) | hs) | hs <;> simp [hs]
  · exact ⟨hb, by simp [hs], he⟩

theorem find_none_filter {α : Type} (p : α → Bool) (l : List α) (h : (l.filter p).length = 0) : l.find? p = none := by
  have := List.eq_nil_of_length_eq_zero h
  rw [List.find?_eq_none]
  intro x hx hp
  have : x ∈ l.filter p := List.mem_filter.mpr ⟨hx, hp⟩
  simp_all

/-- A kind that is registered once and due has exactly one component in the due set. -/
theorem dueSet_one {cfg : Config} {k : ComponentKind} {t : Nat}
    (h1 : (cfg.components.filter (fun c => c.kind = k)).length ≤ 1) (hd : kindDue cfg k t) :
    ((dueSet cfg t).filter (fun c => c.kind = k)).length = 1 := by
  unfold kindDue componentOf at hd
  unfold dueSet
  generalize cfg.components = l at h1 hd
  induction l with
  | nil => simp at hd
  | cons c l ih =>
    by_cases hc : c.kind = k
    · have h0 : l.filter (fun c => c.kind = k) = [] := by
        simp only [List.filter_cons, hc, decide_true, if_true, List.length_cons] at h1
        exact List.eq_nil_of_length_eq_zero (by omega)
      simp only [List.find?_cons, hc, decide_true] at hd
      have : (l.filter (fun c => isDue c t)).filter (fun c => c.kind = k) = [] := by
        rw [List.filter_filter]
        rw [List.filter_eq_nil_iff] at h0 ⊢
        intro x hx
        have := h0 x hx
        simp_all
      simp [hd, hc, this]
    · simp only [List.find?_cons, hc, decide_false] at hd
      simp only [List.filter_cons, hc, decide_false, Bool.false_eq_true, if_false] at h1
      have := ih h1 hd
      by_cases hq : isDue c t
      · simp only [List.filter_cons, hq, if_true, hc, decide_false, Bool.false_eq_true, if_false]; exact this
      · simp only [List.filter_cons, hq, Bool.false_eq_true, if_false]; exact this

/-- A kind that is registered at most once and not due has no component in the due set. -/
theorem dueSet_none {cfg : Config} {k : ComponentKind} {t : Nat}
    (h1 : (cfg.components.filter (fun c => c.kind = k)).length ≤ 1) (hd : kindDue cfg k t = false) :
    ∀ c ∈ dueSet cfg t, c.kind ≠ k := by
  unfold kindDue componentOf at hd
  unfold dueSet
  generalize cfg.components = l at h1 hd
  induction l with
  | nil => simp
  | cons c l ih =>
    by_cases hc : c.kind = k
    · have h0 : l.filter (fun c => c.kind = k) = [] := by
        simp only [List.filter_cons, hc, decide_true, if_true, List.length_cons] at h1
        exact List.eq_nil_of_length_eq_zero (by omega)
      simp only [List.find?_cons, hc, decide_true] at hd
      rw [List.filter_eq_nil_iff] at h0
      intro x hx
      simp only [List.filter_cons, hd, Bool.false_eq_true, if_false] at hx
      have := h0 x (List.mem_filter.mp hx).1
      simpa using this
    · simp only [List.find?_cons, hc, decide_false] at hd
      simp only [List.filter_cons, hc, decide_false, Bool.false_eq_true, if_false] at h1
      have := ih h1 hd
      intro x hx
      by_cases hq : isDue c t
      · simp only [List.filter_cons, hq, if_true] at hx
        rcases List.mem_cons.mp hx with rfl | hx
        · exact hc
        · exact this x hx
      · simp only [List.filter_cons, hq, Bool.false_eq_true, if_false] at hx
        exact this x hx

theorem channelExists_iff {cfg : Config} {c : Channel} : channelExists cfg c ↔ c ∈ cfg.chans := by
  simp only [channelExists, channelConfig, Config.chans, List.find?_isSome, decide_eq_true_eq, List.mem_map]

/-- In a tick that runs, the copper's registers come out of one copper step at a state with the copper and the bus as P2
left them, or, when the copper is not due or does not exist, as P1 left them. -/
theorem copper_step_of_tick {s u : State} (hv : configValid s.cfg) (h : perform (begin s) = .next u) :
    (u.blk.cop = strobed s ∧ (channelDue (begin s) .copper = false ∨ hasCopper s.cfg = false))
    ∨ ∃ a b, PerformFrame (begin s) a ∧ a.blk.cop = strobed s
        ∧ ((begin s).now.owner = .channel .copper → BusUntouched (begin s) a)
        ∧ copperStep a = .next b ∧ PerformFrame b u ∧ u.blk.cop = b.blk.cop
        ∧ ((begin s).now.owner = .channel .copper → BusUntouched b u) := by
  have V := validFacts hv
  have cop_no_copper : hasCopper s.cfg = false →
      ∀ (cs : List Component) (x y : State), x.cfg = s.cfg → runEntries cs x = .next y → y.blk.cop = x.blk.cop := by
    intro hn cs
    induction cs with
    | nil => intro x y _ e; cases e; rfl
    | cons c cs ih =>
      intro x y hx e
      obtain ⟨z, hz, hw⟩ := runEntries_next_cons e
      have hzx : z.blk.cop = x.blk.cop ∧ z.cfg = x.cfg := by
        by_cases hk : c.kind = .channel .copper
        · have : runEntry c x = copperStep x := by
            obtain ⟨i, k, d, p⟩ := c; simp only at hk; subst hk; rfl
          rw [this] at hz
          have : copperStep x = .next x := by unfold copperStep; simp [hx, hn]
          rw [this] at hz; cases hz; exact ⟨rfl, rfl⟩
        · obtain ⟨o, -⟩ := runEntry_other (k := .channel .copper) hk (.inr ⟨_, rfl⟩) hz
          rcases runEntry_cases c x with ⟨z', he, hf, -⟩ | ⟨-, he, -⟩
          · rw [he] at hz; cases hz; exact ⟨by simpa [OwnPartKept] using o, hf.cfg⟩
          · rw [he] at hz; cases hz
      rw [ih z y (hzx.2.trans hx) hw, hzx.1]
  by_cases hc : hasCopper s.cfg
  · have hreg := V.registered .copper (channelExists_iff.mp hc)
    by_cases hd : channelDue (begin s) .copper
    · right
      have h1 := dueSet_one (cfg := s.cfg) (k := .channel .copper) (t := s.tickNat) (by omega) hd
      obtain ⟨c, a, b, -, hk, hf, ho, hb, hr, hf', ho', hb'⟩ := perform_split h1 (.inr ⟨_, rfl⟩) h
      have : runEntry c a = copperStep a := by obtain ⟨i, k, d, p⟩ := c; simp only at hk; subst hk; rfl
      rw [this] at hr
      exact ⟨a, b, hf, by simpa [OwnPartKept] using ho, hb, hr, hf', by simpa [OwnPartKept] using ho', hb'⟩
    · left
      have hnone := dueSet_none (cfg := s.cfg) (k := .channel .copper) (t := s.tickNat) (by omega)
        ((Bool.not_eq_true _).mp hd)
      obtain ⟨-, ho, -⟩ := runEntries_other hnone (.inr ⟨_, rfl⟩) h
      exact ⟨by simpa [OwnPartKept] using ho, .inl ((Bool.not_eq_true _).mp hd)⟩
  · left
    have hc' : hasCopper s.cfg = false := by simpa using hc
    exact ⟨cop_no_copper hc' _ (begin s) u rfl h, .inr hc'⟩

end Sys2Proof.Machine
end

