-- ==== Sys2Proof/Laws/PerInstr.lean ====
section
/-! SUPPORT. The family of per-instruction statements: the encoding of a well-formed instruction matches the row of
spec/opcode_table.json that its constructor stands for (30_encoding.md R98). -/

namespace Sys2Proof.Laws.RowMatch

/-- The mask of the instruction's row over W = {IR1, IR2} (R98). -/
def rowMask : Instr → BitVec 32
  | .move _ _ => 0xFE010000#32
  | .wait _ _ _ _ _ => 0x00010001#32
  | .skip _ _ _ _ _ => 0x00010001#32

/-- The match value of the instruction's row (R98). -/
def rowMatch : Instr → BitVec 32
  | .move _ _ => 0x00000000#32
  | .wait _ _ _ _ _ => 0x00010000#32
  | .skip _ _ _ _ _ => 0x00010001#32

/-- The encoding of the instruction matches its row. -/
def Statement (i : Instr) : Prop := encodeW i &&& rowMask i = rowMatch i

/-- Two values agree under a mask when they agree at each of its bits. -/
theorem and_eq_of_bits {x m v : BitVec 32} (bits : List Nat)
    (hm : ∀ k : Fin 32, m.getLsbD k = bits.contains k.val) (hv : v &&& m = v)
    (h : ∀ k ∈ bits, x.getLsbD k = v.getLsbD k) : x &&& m = v := by
  rw [← hv]
  apply BitVec.eq_of_getLsbD_eq
  intro k hk
  rw [BitVec.getLsbD_and, BitVec.getLsbD_and]
  by_cases hb : k ∈ bits
  · rw [h k hb]
  · rw [hm ⟨k, hk⟩]; simp [hb]

theorem move (ra : BitVec 9) (data : Word16) : Statement (.move ra data) := by
  simp only [Statement, rowMask, rowMatch]
  refine and_eq_of_bits [16, 25, 26, 27, 28, 29, 30, 31] (by decide) (by decide) ?_
  simp [encodeW, wordPair, encode]

theorem wait (vp hp : BitVec 8) (ve : BitVec 7) (he : BitVec 8) (bfd : BitVec 1) :
    Statement (.wait vp hp ve he bfd) := by
  simp only [Statement, rowMask, rowMatch]
  refine and_eq_of_bits [0, 16] (by decide) (by decide) ?_
  simp [encodeW, wordPair, encode, beamWord1, beamWord2]

theorem skip (vp hp : BitVec 8) (ve : BitVec 7) (he : BitVec 8) (bfd : BitVec 1) :
    Statement (.skip vp hp ve he bfd) := by
  simp only [Statement, rowMask, rowMatch]
  refine and_eq_of_bits [0, 16] (by decide) (by decide) ?_
  simp [encodeW, wordPair, encode, beamWord1, beamWord2]

end Sys2Proof.Laws.RowMatch
end

