-- ==== Sys2Proof/Laws/Sound.lean ====
section
/-! SUPPORT. The pieces of a tick that keep R43 and the types of R21: the copper's registers and the channels' fetch
states after P3. -/

namespace Sys2Proof.Machine

theorem pcPlus_lt (s : State) (n : Nat) : pcPlus s n < 2 ^ s.cfg.addrBits := addAddr_lt _ _ _

/-- pc stays even (R215). -/
theorem pcPlus_even {s : State} (V : ValidFacts s.cfg) (h : s.blk.cop.pc % 2 = 0) {n : Nat} (hn : n % 2 = 0) :
    pcPlus s n % 2 = 0 := by
  unfold pcPlus addAddr wrapAddr
  have : 2 ∣ 2 ^ s.cfg.addrBits := dvd_pow_self 2 (by have := V.addrBitsPos; omega)
  rw [Nat.mod_mod_of_dvd _ this]; omega

/-- P3 keeps the copper's pc in range and even, and its blocked flag in the states that may block (R43). -/
theorem perform_cop_inv {s u : State} (hv : configValid s.cfg) (hpc : s.blk.cop.pc < 2 ^ s.cfg.addrBits)
    (h3 : inv3 s.blk) (h4 : inv4 s.blk) (h : perform (begin s) = .next u) :
    u.blk.cop.pc < 2 ^ s.cfg.addrBits ∧ inv3 u.blk ∧ inv4 u.blk := by
  have V := validFacts hv
  have hs : (strobed s).pc < 2 ^ s.cfg.addrBits ∧ (strobed s).pc % 2 = 0
      ∧ ((strobed s).blocked = false ∨ (strobed s).state = .executeWait ∨ (strobed s).state = .executeMove) := by
    unfold strobed; split
    · simp [restartCopper]
    · simp [inv3, inv4] at h3 h4; refine ⟨hpc, h3, ?_⟩; tauto
  simp only [inv3, inv4, Bool.or_eq_true, Bool.not_eq_true', beq_iff_eq]
  rw [or_assoc]
  rcases copper_step_of_tick hv h with ⟨he, -⟩ | ⟨a, b, fa, ha, ba, hst, fb, hb, -⟩
  · rw [he]; exact hs
  · rw [hb]
    have Va : ValidFacts a.cfg := by rw [fa.cfg]; exact V
    have h2 : ∀ n, pcPlus a n < 2 ^ s.cfg.addrBits := by
      intro n; have := pcPlus_lt a n; rwa [fa.cfg] at this
    have hev : ∀ n, n % 2 = 0 → pcPlus a n % 2 = 0 := fun n hn => pcPlus_even Va (by rw [ha]; exact hs.2.1) hn
    rcases copperStep_cases a with ⟨b', he, hf, har, -, hm, -⟩ | ⟨he, -⟩
    · rw [he] at hst; cases hst
      have nb : a.now.owner = .channel .copper → (strobed s).blocked = false :=
        fun ho => (copper_owner_state (fa.owner ▸ ho)).1
      generalize b.blk.cop = x at hm
      cases hm with
      | hold => rw [ha]; exact hs
      | wake h => simp [ha]; refine ⟨hs.1, hs.2.1, ?_⟩; rw [ha] at h; simp [h] at hs; exact hs.2.2
      | first ho h => simp [ha, h2, hev]; exact nb ho
      | second ho h i hd =>
        have := nb ho
        cases i <;> simp [latchInstr, h2, hev, ha, this]
      | execute ho i h t he' =>
        have := nb ho
        obtain ⟨t', e1, -, -, -, -, -, hc⟩ := exec_cases i a
        rw [e1] at he'; cases he'
        rcases hc with hc | ⟨hc, hns⟩ | hc
        · rw [hc, ha]; simp [hs, this]
        · rw [hc, ha]; simp only [hs, true_and]
          right
          unfold currentInstr at h
          rw [ha] at h
          split at h <;> simp_all
          subst h; exact hns _ _ _ _ _ rfl
        · rw [hc, ha]; simp [h2, hev, this]
      | polled h hb hc => rw [ha]; simp; exact ⟨hs.1, hs.2.1⟩
    · rw [he] at hst; cases hst

theorem mem_of_lookup {β : Type} {l : List (Channel × β)} {c : Channel} {x : β} (h : l.lookup c = some x) :
    (c, x) ∈ l := by
  induction l with
  | nil => simp at h
  | cons e l ih =>
    obtain ⟨a, b⟩ := e
    by_cases hx : c == a
    · simp [List.lookup_cons, hx] at h; subst h; rw [eq_of_beq hx]; exact List.mem_cons_self
    · simp [List.lookup_cons, hx] at h; exact List.mem_cons_of_mem _ (ih h)

/-- The channels' fetch states have the right keys and satisfy invariant 2 of R43. -/
def dmaOk (cfg : Config) (a : Arb) : Prop :=
  (∀ e ∈ a.dma, ∀ k, e.2 = .fetching k → 1 ≤ k ∧ k < units cfg e.1) ∧ a.dma.map (·.1) = cfg.dmaChans

theorem setDma_ok {cfg : Config} {a : Arb} (h : dmaOk cfg a) (c : Channel) (d : DmaState)
    (hd : c ∈ cfg.dmaChans → ∀ k, d = .fetching k → 1 ≤ k ∧ k < units cfg c) : dmaOk cfg (setDma a c d) := by
  refine ⟨?_, by rw [setDma_keys]; exact h.2⟩
  intro e he k hk
  simp only [setDma, List.mem_map] at he
  obtain ⟨e', he', rfl⟩ := he
  by_cases hc : e'.1 = c
  · simp only [hc, if_true] at hk ⊢
    apply hd _ k hk
    rw [← h.2, ← hc]; exact List.mem_map_of_mem he'
  · simp only [hc, if_false] at hk ⊢; exact h.1 e' he' k hk

/-- The unit count a grant stores (R147) stays within UNITS. -/
theorem afterGrant_ok {cfg : Config} {a : Arb} (V : ValidFacts cfg) (h : dmaOk cfg a) {c : Channel}
    (hc : c ∈ cfg.dmaChans) :
    ∀ k, afterGrant (units cfg c) (dmaState a c) = .fetching k → 1 ≤ k ∧ k < units cfg c := by
  intro k hk
  have hu := V.unitsPos c hc
  unfold dmaState at hk
  cases hl : a.dma.lookup c with
  | none => simp only [hl, afterGrant, Option.getD] at hk; split at hk <;> simp at hk; omega
  | some x =>
    have := h.1 _ (mem_of_lookup hl)
    cases x with
    | idle => simp only [hl, afterGrant, Option.getD] at hk; split at hk <;> simp at hk; omega
    | requesting => simp only [hl, afterGrant, Option.getD] at hk; split at hk <;> simp at hk; omega
    | fetching j =>
      have := this j rfl
      simp only [hl, afterGrant, Option.getD] at hk; split at hk <;> simp at hk this; omega

/-- Entry points keep the channels' fetch states right. -/
theorem runEntries_dma {cfg : Config} (V : ValidFacts cfg) (cs : List Component) {s t : State} (hc : s.cfg = cfg)
    (h : runEntries cs s = .next t) (hd : dmaOk cfg s.blk.arb) : dmaOk cfg t.blk.arb := by
  induction cs generalizing s with
  | nil => cases h; exact hd
  | cons c cs ih =>
    obtain ⟨u, hu, hw⟩ := runEntries_next_cons h
    have hcu : u.cfg = cfg := by
      rcases runEntry_cases c s with ⟨u', he, hf, -⟩ | ⟨-, he, -⟩
      · rw [he] at hu; cases hu; rw [hf.cfg, hc]
      · rw [he] at hu; cases hu
    refine ih hcu hw ?_
    obtain ⟨id, kind, dv, p⟩ := c
    cases kind with
    | cpu => cases hu; rw [(cpuStep_cases s).2.1]; exact hd
    | timer => cases hu; exact hd
    | collaborator => cases hu; exact hd
    | channel ch =>
      by_cases hcc : ch = .copper
      · subst hcc
        rcases copperStep_cases s with ⟨u', he, hf, ha, -⟩ | ⟨he, -⟩
        · have : u' = u := by simpa [runEntry, he] using hu
          subst this; rw [ha]; exact hd
        · simp [runEntry, he] at hu
      · have hh : runEntry ⟨id, .channel ch, dv, p⟩ s = .next (channelStep ch s) := by
          cases ch <;> first | rfl | exact absurd rfl hcc
        rw [hh] at hu; cases hu
        obtain ⟨-, -, -, ha, -⟩ := channelStep_cases ch s
        rcases ha with ha | ⟨d, ha, hdd⟩
        · rw [ha]; exact hd
        · rw [ha]; apply setDma_ok hd
          intro hin
          rcases hdd with rfl | rfl
          · simp
          · rw [hc]; exact afterGrant_ok V hd hin

end Sys2Proof.Machine
end

