-- ==== Sys2Proof/Tests/Slice0.lean ====
section
/-! SUPPORT. Tests: the WellFormed smoke test, decoding of words written out from 30_encoding.md and 95_test_vectors.md
§2.5, one-step tests of the instructions, vectors of 95_test_vectors.md §2, and for every obligation with hypotheses a
witness that meets them together. Expected values are the spec's. -/

open Sys2Proof Sys2Proof.Machine

namespace Sys2Proof.Tests

/-! ### Well-formedness (R99) -/

theorem test_refuses_odd_register : Instr.illFormed (.move 0x181 0) = some .oddRegister := by decide
theorem test_refuses_register_above_1fe : Instr.illFormed (.move 0x1FF 0) = some .oddRegister := by decide
theorem test_refuses_odd_horizontal : Instr.illFormed (.wait 1 3 0x7F 0xFE 1) = some .oddHorizontal := by decide
theorem test_refuses_odd_horizontal_mask : Instr.illFormed (.skip 1 2 0x7F 0xFF 1) = some .oddHorizontalMask := by
  decide
theorem test_accepts_even_operands : Instr.wf (.move 0x1FE 0xFFFF) = true ∧ Instr.wf Instr.pseudoEnd = true := by decide

/-! ### Decoding and encoding (R92 to R101, 95_test_vectors.md §2.5) -/

/-- MOVE: type bit 0, reserved bits 0, RA = 0xC0 in IR1[8:1], data in IR2. -/
theorem test_decode_move :
    decodeWords 0b0000000_11000000_0#16 0b0001001000110100#16 = .ok (.move 0x180 0x1234) := by rfl

/-- WAIT: VP = 0x2C, HP = 2, type bit 1; BFD = 1, VE = 0x7F, HE = 0x7F, s = 0. -/
theorem test_decode_wait :
    decodeWords 0b00101100_0000010_1#16 0b1_1111111_1111111_0#16 = .ok (.wait 0x2C 4 0x7F 0xFE 1) := by rfl

/-- SKIP: VP = 0xFF, HP = 0x7F, type bit 1; BFD = 0, VE = 0, HE = 0, s = 1. -/
theorem test_decode_skip :
    decodeWords 0b11111111_1111111_1#16 0b0_0000000_0000000_1#16 = .ok (.skip 0xFF 0xFE 0 0 0) := by rfl

theorem test_decode_table_words : decodeTableWord 32 0x00000000 = some (.move 0 0) ∧
    decodeTableWord 32 0x01FEFFFF = some (.move 0x1FE 0xFFFF) ∧
    decodeTableWord 32 0x0001FFFE = some (.wait 0 0 0x7F 0xFE 1) ∧
    decodeTableWord 32 0x0001FFFF = some (.skip 0 0 0x7F 0xFE 1) ∧
    decodeTableWord 32 0x2C010000 = some (.wait 0x2C 0 0 0 0) ∧
    decodeTableWord 32 0xFFFF0001 = some (.skip 0xFF 0xFE 0 0 0) := by decide

theorem test_decode_refuses_reserved : decodeWords 0x0200 0x1234 = .error .reservedMoveBits ∧
    decodeWords 0xFE00 0 = .error .reservedMoveBits ∧ decodeTableWord 32 0x02001234 = none ∧
    decodeBytes .big [1, 0x80, 0x12] = .error .tooShort := ⟨rfl, rfl, by decide, rfl⟩

theorem test_decode_bytes : decodeBytes .big [0x01, 0x80, 0x12, 0x34, 0x55] = .ok (.move 0x180 0x1234, [0x55]) ∧
    decodeBytes .little [0x80, 0x01, 0x34, 0x12] = .ok (.move 0x180 0x1234, []) := ⟨rfl, rfl⟩

theorem test_encode : encodeW (.move 0x180 0x0F00) = 0x01800F00 ∧ encodeW (.waitDefault 0x2C 0) = 0x2C01FFFE ∧
    encodeW (.skipDefault 0 4) = 0x0005FFFF ∧ encodeW Instr.pseudoEnd = 0xFFFFFFFE ∧
    encodeW Instr.pseudoNop = 0x00018000 ∧ encodeW (Instr.pseudoWaitV 0x2C) = 0x2C01FF00 := by decide

/-! ### Test states -/

/-- The step's next state, or the state itself. -/
def nextOf (s : State) : State :=
  match step s with
  | .next t => t
  | _ => s

/-- The step is a whole tick. -/
def runsWhole (s : State) : Bool :=
  match step s with
  | .next t => t.blk.fault.isNone && t.blk.refused.isNone
  | _ => false

theorem wholeTick_nextOf {s : State} (h : runsWhole s = true) : wholeTick s (nextOf s) := by
  unfold runsWhole at h
  unfold wholeTick nextOf
  split at h
  · next t e =>
    rw [Bool.and_eq_true, Option.isNone_iff_eq_none, Option.isNone_iff_eq_none] at h
    exact ⟨by rw [e], by simpa only [e] using h⟩
  · cases h

theorem step_nextOf {s : State} (h : runsWhole s = true) : step s = .next (nextOf s) := (wholeTick_nextOf h).1

/-- A CPU, a disk channel of 3 units and a copper, all due at every tick; the disk's slot window is the odd ticks; the
register 0x020 is forbidden to the copper; addresses from 0xF00000 on are not mapped. -/
def cfg : Config :=
  { Config.worked with
    components := [⟨0, .cpu, 1, 0⟩, ⟨1, .channel .disk, 1, 0⟩, ⟨2, .channel .copper, 1, 0⟩]
    channels := [⟨.disk, 3, 4, [⟨2, 1, 1⟩]⟩, ⟨.copper, 1, 7, [⟨1, 0, 0⟩]⟩]
    channelOrder := [.disk, .copper]
    contention := [(.channel .disk, 2)]
    mapped := [⟨0, 0xF00000, true, true, true⟩]
    moveForbidden := [0x020] }

/-- The same with MOVE's registers in plain storage. -/
def cfgStore : Config := { cfg with regBase := 0x070000 }

/-- The same with MOVE's registers at the end of the mapped addresses. -/
def cfgEdge : Config := { cfg with regBase := 0xEFFF00 }

/-- The same with a copper that is due at odd ticks only. -/
def cfgSlow : Config :=
  { cfg with components := [⟨0, .cpu, 1, 0⟩, ⟨1, .channel .disk, 1, 0⟩, ⟨2, .channel .copper, 2, 1⟩] }

/-- A state of `c` at tick `tick` with the copper's registers `cop`, both channels enabled, and one tick's inputs. -/
def at_ (c : Config) (tick : BitVec 64) (cop : Cop) (i : TickIn) : State :=
  { State.fresh c with
    inputs := [i]
    blk := { Block.fresh c with
      clock := ⟨tick, 0⟩
      arb := { Arb.reset c with dmaEnable := 0x0090 }
      cop := cop } }

/-- Copper registers in a state, at pc 4, with IR1 and IR2. -/
def copIn (st : CopState) (ir1 ir2 : Word16) : Cop := ⟨st, 4, ir1, ir2, ⟨0, 2, 0x7F, 0x7F, 1⟩, false⟩

/-- The copper blocked in a WAIT for vertical 0, horizontal field 2. -/
def copBlocked : Cop := { copIn .executeWait 0x0005 0xFFFE with blocked := true }

/-- Inputs with the beam at a position. -/
def beamAt (hPos : BitVec 8) (vPos : BitVec 16) : TickIn := { TickIn.quiet with hPos := hPos, vPos := vPos }

/-- Inputs with a CPU request. -/
def asking (op : BusOp) : TickIn := { TickIn.quiet with cpuReq := some op }

theorem test_configurations_valid :
    configValid cfg = true ∧ configValid cfgStore = true ∧ configValid cfgEdge = true := by decide

/-! ### One step of each instruction -/

/-- Program P1 at T3: the word goes to storage most significant byte first, then the next instruction (R199). -/
theorem test_move_stores_big_endian :
    let t := nextOf (at_ cfgStore 3 (copIn .executeMove 0x0180 0x1234) .quiet)
    t.blk.cop.state = .fetch0 ∧ t.mem = [(0x070180, 0x12), (0x070181, 0x34)] := by decide

/-- Program P4 at T3: MOVE #0x8008 to INTC_ENABLE sets bit 3 in the same tick (R213, R234). -/
theorem test_move_sets_enable :
    (nextOf (at_ cfg 3 (copIn .executeMove 0x009A 0x8008) .quiet)).blk.intc.enable = 0x0008 := by decide

/-- Program P2: at beam (6, 0) the WAIT for (4, 1) blocks. -/
theorem test_wait_blocks :
    let c : Cop := ⟨.executeWait, 4, 0x0105, 0xFFFE, ⟨1, 2, 0x7F, 0x7F, 1⟩, false⟩
    (nextOf (at_ cfg 3 c (beamAt 6 0))).blk.cop = { c with blocked := true } := by decide

/-- Vector W1: a target already passed resumes at the execute tick. -/
theorem test_wait_resumes :
    let c : Cop := ⟨.executeWait, 4, 0x0105, 0xFFFE, ⟨1, 2, 0x7F, 0x7F, 1⟩, false⟩
    (nextOf (at_ cfg 3 c (beamAt 6 1))).blk.cop = { c with state := .fetch0 } := by decide

/-- Program P3 at T3: beam (6, 0), key 3 >= 2, the skip is taken: pc + 4. Its variant: beam (2, 0), key 1 < 2, not
taken. -/
theorem test_skip_taken_and_not :
    let t := nextOf (at_ cfg 3 (copIn .executeSkip 0x0005 0xFFFF) (beamAt 6 0))
    let u := nextOf (at_ cfg 3 (copIn .executeSkip 0x0005 0xFFFF) (beamAt 2 0))
    t.blk.cop.pc = 8 ∧ t.blk.cop.state = .fetch0 ∧ u.blk.cop.pc = 4 ∧ u.blk.cop.state = .fetch0 := by decide

/-- The rows' words run as the first instruction after reset. -/
theorem test_first_instruction_runs :
    (nextOf (State.reset.withFetchWord 32 0x00000000)).now.txn.isSome = true ∧
    (nextOf (State.reset.withFetchWord 32 0x00010000)).blk.cop.state = .fetch0 ∧
    (nextOf (State.reset.withFetchWord 32 0x00010001)).blk.cop.pc = 8 := by decide

/-- 95_test_vectors.md §2.5: pc 0xFFFFFC after both fetches, a taken SKIP wraps pc to 0. -/
theorem test_skip_wraps_pc :
    (nextOf (at_ cfg 3 { copIn .executeSkip 5 0xFFFF with pc := 0xFFFFFC } (beamAt 6 0))).blk.cop.pc = 0 := by decide

/-- A word pair that does not decode is refused by its first step, with the instruction's pc (R198, R287). -/
theorem test_reserved_move_refused : (nextOf (State.reset.withFetchWord 32 0x02001234)).blk.refused
    = some (.reservedMoveBits 0 0x0200) := by decide

/-! ### Vectors of 95_test_vectors.md §2 -/

/-- W2, W4, W6, W8 to W11, W15, W17 are false. -/
theorem test_condition_false : ([
    (⟨0x01, 2, 0x7F, 0x7F, 1⟩, beamAt 6 0), (⟨0x2C, 0, 0x7F, 0x7F, 1⟩, beamAt 254 0x2B),
    (⟨0xFF, 0x7F, 0x7F, 0x7F, 1⟩, beamAt 252 255), (⟨0x80, 0, 0, 0, 1⟩, beamAt 0 0x7F),
    (⟨0x80, 0, 0, 0, 1⟩, beamAt 0 0x100), (⟨0, 0, 0x7F, 0x7F, 0⟩, { beamAt 0 0 with blitterBusy := true }),
    (⟨0, 2, 0x7F, 0x7F, 1⟩, beamAt 3 0), (⟨0, 0x7F, 0x7F, 0x70, 1⟩, beamAt 0xDE 0)
    ] : List (WaitCond × TickIn)).all (fun e => !waitHolds e.1 e.2) = true := by decide

/-- W1, W3, W5, W7, W9, W12, W13, W14, W16 are true. -/
theorem test_condition_true : ([
    (⟨0x01, 2, 0x7F, 0x7F, 1⟩, beamAt 6 1), (⟨0x2C, 0, 0x7F, 0x7F, 1⟩, beamAt 0 0x2C),
    (⟨0xFF, 0x7F, 0x7F, 0x7F, 1⟩, beamAt 254 255), (⟨0x10, 0, 0, 0, 1⟩, beamAt 0 0),
    (⟨0x80, 0, 0, 0, 1⟩, beamAt 0 0x80), (⟨0, 0, 0x7F, 0x7F, 0⟩, beamAt 0 0),
    (⟨0, 0, 0x7F, 0x7F, 1⟩, { beamAt 0 0 with blitterBusy := true }), (⟨0, 2, 0x7F, 0x7F, 1⟩, beamAt 5 0),
    (⟨0, 0x7F, 0x7F, 0x70, 1⟩, beamAt 0xE0 0)
    ] : List (WaitCond × TickIn)).all (fun e => waitHolds e.1 e.2) = true := by decide

/-- §2.4: bus errors at the spec's addresses. -/
theorem test_bus_errors :
    let c := { Config.worked with mapped := [⟨0, 0x080000, true, true, true⟩, ⟨0xDFF000, 0x200, false, true, false⟩] }
    busError c 0x000100 .word = false ∧ busError c 0x000101 .word = true ∧ busError c 0x000101 .byte = false ∧
    busError c 0x000102 .long = false ∧ busError c 0x100000 .word = true ∧ busError c 0xDFF09A .byte = true ∧
    busError c 0xDFF098 .long = true ∧ busError c 0xDFF09A .word = false := by decide

/-- §2.7: the priority encoder with LEVEL_OF = (1, 3, 3, 6). -/
theorem test_priority_encoder :
    ([0x0, 0x1, 0x6, 0x7, 0x8, 0xF, 0x10] : List (BitVec 15)).map
      (priorityEncode { Config.worked with levels := [1, 3, 3, 6] }) = [0, 1, 3, 3, 6, 6, 0] := by decide

/-- §2.7 and §2.3: SET/CLR writes. -/
theorem test_set_clr :
    let after (x : BitVec 15) (v : Word16) (m : BitVec 15) := applyMasks x (setClr v m).1 (setClr v m).2
    after 5 0x8002 0xF = 7 ∧ after 5 4 0xF = 1 ∧ after 5 0x8000 0xF = 5 ∧ after 0xF 0x7FFF 0xF = 0 ∧
    after 0 0x80F0 0xF = 0 ∧ after 0 0x8080 0x80 = 0x80 ∧ after 0x80 0x0080 0x80 = 0 ∧ after 0 0x80FF 0x80 = 0x80 := by
  decide

/-- §2.2: 1000 Hz at 60000/1001 frames. -/
theorem test_frame_ticks :
    let c := { Config.worked with crystalHz := 1000, fpsNum := 60000, fpsDen := 1001 }
    [1, 2, 3, 4, 5].map (fun k => framesTicks c k 0) = [16, 33, 50, 66, 83] := by decide

/-! ### Witnesses: concrete states that meet the hypotheses of the obligations -/

theorem test_witness_DecodeInvertsEncode : Instr.wf (.move 0x180 0x1234) = true ∧
    Instr.wf (.wait 0xFF 0xFE 0x7F 0xFE 1) = true ∧ Instr.wf (.skip 0 0 0 0 0) = true := by decide

theorem test_witness_EncodeInvertsDecode : decodeWords 0x0180 0x1234 = .ok (.move 0x180 0x1234) ∧
    decodeWords 0xFFFF 0xFFFE = .ok Instr.pseudoEnd := ⟨rfl, rfl⟩

theorem test_witness_MoveStoresItsWord : 1 ≤ cfgStore.addrBits ∧ moveAllowed cfgStore 0x180 = true ∧
    busError cfgStore (moveTarget cfgStore 0x180) .word = false ∧
    blockRegAt cfgStore (moveTarget cfgStore 0x180) = none ∧
    isStorage cfgStore (addAddr cfgStore (moveTarget cfgStore 0x180) 1) = true ∧ isStorage cfgStore 0x080000 = false := by
  decide

theorem test_witness_MoveBuffersARegisterWrite : moveAllowed cfg 0x09A = true ∧
    busError cfg (moveTarget cfg 0x09A) .word = false ∧
    blockRegAt cfg (moveTarget cfg 0x09A) = some .intcEnable ∧ blockRegAt cfg (moveTarget cfg 0x09C) = some .intcPending ∧
    blockRegAt cfg (moveTarget cfg 0x096) = some .dmaEn := by decide

theorem test_witness_MoveAtABusErrorIsDropped : moveAllowed cfgEdge 0x100 = true ∧
    busError cfgEdge (moveTarget cfgEdge 0x100) .word = true ∧
    busError cfgEdge (moveTarget cfgEdge 0x0FE) .word = false := by decide

/-- The tick of a copper halted by a forbidden MOVE, without and with a restart strobe. -/
theorem test_witness_ForbiddenMoveHaltsTheCopper :
    moveAllowed cfg 0x020 = false ∧
    (let c := { copIn .executeMove 0x0020 0x1234 with blocked := true }
     configValid cfg = true ∧ c.state = .executeMove ∧ c.blocked = true ∧
     wholeTick (at_ cfg 2 c .quiet) (nextOf (at_ cfg 2 c .quiet)) ∧
     wholeTick (at_ cfg 2 c { TickIn.quiet with copRestart := true })
       (nextOf (at_ cfg 2 c { TickIn.quiet with copRestart := true })) ∧
     strobeComes (at_ cfg 2 c { TickIn.quiet with copRestart := true }) = true) ∧
    (let s := at_ cfg 2 (copIn .executeMove 0x0020 0x1234) .quiet
     s.runs = true ∧ copperWins s = true ∧ currentInstr s.blk.cop = some (.move 0x020 0x1234)) :=
  ⟨by decide,
    ⟨by decide, by decide, by decide, wholeTick_nextOf (by decide), wholeTick_nextOf (by decide), by decide⟩, by decide⟩

theorem test_witness_WaitNeverResumesEarly :
    let s := at_ cfg 2 copBlocked (beamAt 4 0)
    configValid s.cfg = true ∧ s.blk.cop.state = .executeWait ∧ strobeComes s = false ∧ wholeTick s (nextOf s) ∧
    (nextOf s).blk.cop.state ≠ .executeWait :=
  ⟨by decide, by decide, by decide, wholeTick_nextOf (by decide), by decide⟩

/-- The poll below the target and at it. -/
theorem test_witness_BlockedWaitIsPolled :
    let s := at_ cfg 2 copBlocked (beamAt 2 0)
    let u := at_ cfg 2 copBlocked (beamAt 4 0)
    configValid s.cfg = true ∧ s.blk.cop.state = .executeWait ∧ s.blk.cop.blocked = true ∧ strobeComes s = false ∧
    copperActive s = true ∧ wholeTick s (nextOf s) ∧ waitHolds copBlocked.wait (nextOf s).now.inp = false ∧
    wholeTick u (nextOf u) ∧ waitHolds copBlocked.wait (nextOf u).now.inp = true :=
  ⟨by decide, by decide, by decide, by decide, by decide, wholeTick_nextOf (by decide), by decide,
    wholeTick_nextOf (by decide), by decide⟩

/-- One state for each instruction. -/
theorem test_witness_StepExecutesTheHeldInstruction :
    let m := at_ cfg 2 (copIn .executeMove 0x0180 0x1234) .quiet
    let w := at_ cfg 2 (copIn .executeWait 0x0005 0xFFFE) .quiet
    let k := at_ cfg 2 (copIn .executeSkip 0x0005 0xFFFF) .quiet
    configValid cfg = true ∧ m.runs = true ∧ copperWins m = true ∧
    currentInstr (begin m).blk.cop = some (.move 0x180 0x1234) ∧ w.runs = true ∧ copperWins w = true ∧
    currentInstr (begin w).blk.cop = some (.wait 0 4 0x7F 0xFE 1) ∧ k.runs = true ∧ copperWins k = true ∧
    currentInstr (begin k).blk.cop = some (.skip 0 4 0x7F 0xFE 1) := by decide

theorem test_witness_FirstFetchReadsTheListWord :
    let s := at_ cfg 2 (copIn .fetch0 0 0) .quiet
    configValid s.cfg = true ∧ s.blk.cop.state = .fetch0 ∧ wholeTick s (nextOf s) ∧
    (nextOf s).now.owner = .channel .copper :=
  ⟨by decide, by decide, wholeTick_nextOf (by decide), by decide⟩

/-- The three clauses: a reserved MOVE, a legal MOVE, a WAIT. -/
theorem test_witness_SecondFetchDecodes :
    let s := fun (w : Word16) => at_ cfg 2 (copIn .fetch1 w 0) .quiet
    configValid cfg = true ∧ (s 0x0200).runs = true ∧ copperWins (s 0x0200) = true ∧
    (s 0x0180).runs = true ∧ copperWins (s 0x0180) = true ∧ (s 0xFFFF).runs = true ∧ copperWins (s 0xFFFF) = true := by
  decide

/-- Program P1's MOVE in storage at the list base: three owned ticks from FetchInstruction(0). -/
def listState : State :=
  let s := at_ cfg 1 { copIn .fetch0 0 0 with pc := 0 } .quiet
  { s with
    inputs := [.quiet, .quiet, .quiet]
    mem := [(0x1000, 0x01), (0x1001, 0x80), (0x1002, 0x12), (0x1003, 0x34)] }

theorem test_witness_ListInstructionRunsInThreeOwnedTicks :
    let s := listState
    let s1 := nextOf s
    let s2 := nextOf s1
    let s3 := nextOf s2
    configValid s.cfg = true ∧ s.blk.cop.state = .fetch0 ∧
    storedWord s (addAddr s.cfg s.cfg.copperListBase s.blk.cop.pc) 0x0180 ∧
    storedWord s (addAddr s.cfg s.cfg.copperListBase (addAddr s.cfg s.blk.cop.pc 2)) 0x1234 ∧
    decodeWords 0x0180 0x1234 = .ok (.move 0x180 0x1234) ∧
    wholeTick s s1 ∧ s1.now.owner = .channel .copper ∧ wholeTick s1 s2 ∧ s2.now.owner = .channel .copper ∧
    wholeTick s2 s3 ∧ s3.now.owner = .channel .copper :=
  ⟨by decide, by decide, by unfold storedWord; decide, by unfold storedWord; decide, rfl,
    wholeTick_nextOf (by decide), by decide, wholeTick_nextOf (by decide), by decide, wholeTick_nextOf (by decide),
    by decide⟩

theorem test_witness_IdleCopperWakes :
    let s := at_ cfg 2 Cop.reset .quiet
    let u := at_ cfg 2 Cop.reset { TickIn.quiet with copRestart := true }
    configValid s.cfg = true ∧ s.blk.cop.state = .idle ∧ strobeComes s = false ∧ copperActive s = true ∧
    wholeTick s (nextOf s) ∧ strobeComes u = true ∧ copperActive u = true ∧ wholeTick u (nextOf u) :=
  ⟨by decide, by decide, by decide, by decide, wholeTick_nextOf (by decide), by decide, by decide,
    wholeTick_nextOf (by decide)⟩

/-- A strobe on an enabled copper and on a disabled one (vectors S1 and S5). -/
theorem test_witness_RestartStrobeRestartsTheCopper :
    let i := { TickIn.quiet with copRestart := true }
    let s := at_ cfg 2 copBlocked i
    let u := s.setArb (Arb.reset cfg)
    configValid s.cfg = true ∧ strobeComes s = true ∧ copperActive s = true ∧ wholeTick s (nextOf s) ∧
    strobeComes u = true ∧ copperActive u = false ∧ wholeTick u (nextOf u) :=
  ⟨by decide, by decide, by decide, wholeTick_nextOf (by decide), by decide, by decide, wholeTick_nextOf (by decide)⟩

/-- Program P6 from T4 on: a disabled copper in FetchInstruction(0); and an Idle one and a blocked WAIT whose condition
holds, enabled but not due. -/
theorem test_witness_DisabledCopperHolds :
    let s := (at_ cfg 2 (copIn .fetch0 0x0096 0x0080) .quiet).setArb (Arb.reset cfg)
    let i := at_ cfgSlow 2 Cop.reset .quiet
    let w := at_ cfgSlow 2 copBlocked (beamAt 4 0)
    configValid s.cfg = true ∧ copperActive s = false ∧ enabled s .copper = false ∧ strobeComes s = false ∧
    wholeTick s (nextOf s) ∧ configValid cfgSlow = true ∧ copperActive i = false ∧ enabled i .copper = true ∧
    wholeTick i (nextOf i) ∧ (nextOf i).blk.cop = Cop.reset ∧ copperActive w = false ∧ wholeTick w (nextOf w) ∧
    waitHolds copBlocked.wait (nextOf w).now.inp = true ∧ (nextOf w).blk.cop = copBlocked :=
  ⟨by decide, by decide, by decide, by decide, wholeTick_nextOf (by decide), by decide, by decide, by decide,
    wholeTick_nextOf (by decide), by decide, by decide, wholeTick_nextOf (by decide), by decide, by decide⟩

/-- The disk takes the tick from a copper that wants to fetch. -/
theorem test_witness_LosingCopperHolds :
    let s := at_ cfg 3 (copIn .fetch0 0 0) { TickIn.quiet with wants := [.disk] }
    configValid s.cfg = true ∧ strobeComes s = false ∧ wholeTick s (nextOf s) ∧
    (nextOf s).now.owner ≠ .channel .copper ∧ s.blk.cop.state ≠ .idle ∧
    ¬ (s.blk.cop.blocked = true ∧ s.blk.cop.state = .executeWait) :=
  ⟨by decide, by decide, wholeTick_nextOf (by decide), by decide, by decide, by decide⟩

/-- Each of the four ways: a hold, the strobe, a fetch, a taken SKIP. -/
theorem test_witness_CopperPcMovesInThreeWays :
    let a := at_ cfg 2 (copIn .executeMove 0x0180 0) .quiet
    let b := at_ cfg 2 copBlocked { TickIn.quiet with copRestart := true }
    let c := at_ cfg 2 (copIn .fetch0 0 0) .quiet
    let d := at_ cfg 2 (copIn .executeSkip 5 0xFFFF) (beamAt 6 0)
    configValid cfg = true ∧ step a = .next (nextOf a) ∧ (nextOf a).blk.cop.pc = 4 ∧ step b = .next (nextOf b) ∧
    (nextOf b).blk.cop.pc = 0 ∧ step c = .next (nextOf c) ∧ (nextOf c).blk.cop.pc = 6 ∧ step d = .next (nextOf d) ∧
    (nextOf d).blk.cop.pc = 8 :=
  ⟨by decide, step_nextOf (by decide), by decide, step_nextOf (by decide), by decide, step_nextOf (by decide),
    by decide, step_nextOf (by decide), by decide⟩

/-- A MOVE to each of the three block registers. -/
theorem test_witness_CopperMoveCommitsARegister :
    let s := fun (w : Word16) => at_ cfg 2 (copIn .executeMove w 0x8008) .quiet
    let meets := fun (w : Word16) (ra : BitVec 9) (r : BlockReg) =>
      (s w).runs && copperWins (s w) && currentInstr (s w).blk.cop == some (.move ra 0x8008) && moveAllowed cfg ra
        && !busError cfg (moveTarget cfg ra) .word && blockRegAt cfg (moveTarget cfg ra) == some r
    configValid cfg = true ∧ meets 0x009A 0x09A .intcEnable = true ∧ meets 0x009C 0x09C .intcPending = true ∧
    meets 0x0096 0x096 .dmaEn = true := by decide

/-- A tick of refresh, a tick of nobody, and a tick with a transaction. -/
theorem test_witness_OnlyTheOwnerTransacts :
    let r := at_ { cfg with refresh := [⟨1, 0, 0⟩] } 2 (copIn .fetch0 0 0) .quiet
    let n := at_ cfg 2 Cop.reset .quiet
    let c := at_ cfg 2 (copIn .fetch0 0 0) .quiet
    wholeTick r (nextOf r) ∧ (nextOf r).now.owner = .refresh ∧ wholeTick n (nextOf n) ∧
    (nextOf n).now.owner = .noOwner ∧ wholeTick c (nextOf c) ∧ (nextOf c).now.txn.isSome = true :=
  ⟨wholeTick_nextOf (by decide), by decide, wholeTick_nextOf (by decide), by decide, wholeTick_nextOf (by decide),
    by decide⟩

/-- A state with the disk in a fetch state, at a tick of its slot window, wanting a fetch. -/
def diskIn (d : DmaState) : State :=
  let s := at_ cfg 3 Cop.reset { TickIn.quiet with wants := [.disk] }
  s.setArb { s.blk.arb with dma := [(.disk, d)] }

theorem test_witness_OwningChannelWasEligible :
    wholeTick (diskIn .idle) (nextOf (diskIn .idle)) ∧ (nextOf (diskIn .idle)).now.owner = .channel .disk :=
  ⟨wholeTick_nextOf (by decide), by decide⟩

/-- From Requesting, from unit 1 and from the last unit 2 of 3. -/
theorem test_witness_GrantMovesOneUnit :
    configValid cfg = true ∧ Channel.disk ≠ .copper ∧ Channel.disk ∈ (diskIn .requesting).blk.arb.dma.map (·.1) ∧
    wholeTick (diskIn .requesting) (nextOf (diskIn .requesting)) ∧
    (nextOf (diskIn .requesting)).now.owner = .channel .disk ∧
    wholeTick (diskIn (.fetching 1)) (nextOf (diskIn (.fetching 1))) ∧
    (nextOf (diskIn (.fetching 1))).now.owner = .channel .disk ∧
    wholeTick (diskIn (.fetching 2)) (nextOf (diskIn (.fetching 2))) ∧
    (nextOf (diskIn (.fetching 2))).now.owner = .channel .disk :=
  ⟨by decide, by decide, by decide, wholeTick_nextOf (by decide), by decide, wholeTick_nextOf (by decide), by decide,
    wholeTick_nextOf (by decide), by decide⟩

/-- The disk presents the transfer `op`, with open-bus contents that no other input has. -/
def diskMoves (op : BusOp) : State :=
  { diskIn .requesting with inputs := [{ TickIn.quiet with wants := [.disk], xfer := op, openBus := 0xBEEF }] }

/-- The transfer's clauses: a read, a read at a bus error, a write to storage, to a block register, at a bus error. -/
theorem test_witness_GrantMovesOneUnit_transfers :
    (∀ op ∈ [⟨.read, 0x2000, .word, 0⟩, ⟨.read, 0x2001, .word, 0⟩, ⟨.write, 0x2000, .word, 0x1234⟩,
        ⟨.write, 0xDFF09A, .word, 0x8008⟩, ⟨.write, 0x2001, .word, 0x1234⟩],
      wholeTick (diskMoves op) (nextOf (diskMoves op)) ∧ (nextOf (diskMoves op)).now.owner = .channel .disk ∧
        (nextOf (diskMoves op)).now.inp.xfer = op) ∧
    (nextOf (diskMoves ⟨.read, 0x2001, .word, 0⟩)).now.txn.map (·.data) = some 0xBEEF ∧
    (nextOf (diskMoves ⟨.write, 0x2000, .word, 0x1234⟩)).mem = [(0x2000, 0x12), (0x2001, 0x34)] ∧
    (nextOf (diskMoves ⟨.write, 0xDFF09A, .word, 0x8008⟩)).blk.intc.enable = 0x0008 ∧
    (nextOf (diskMoves ⟨.write, 0x2001, .word, 0x1234⟩)).mem = [] := by
  refine ⟨?_, by decide, by decide, by decide, by decide⟩
  simp only [List.forall_mem_cons, List.not_mem_nil, false_imp_iff, implies_true, and_true]
  exact ⟨⟨wholeTick_nextOf (by decide), by decide, by decide⟩, ⟨wholeTick_nextOf (by decide), by decide, by decide⟩,
    ⟨wholeTick_nextOf (by decide), by decide, by decide⟩, ⟨wholeTick_nextOf (by decide), by decide, by decide⟩,
    ⟨wholeTick_nextOf (by decide), by decide, by decide⟩⟩

/-- Outside its slot window: the wish is taken up, and an active fetch holds. -/
theorem test_witness_ChannelWithoutTheTickRequestsOrHolds :
    let s := { diskIn .idle with blk := { (diskIn .idle).blk with clock := ⟨2, 0⟩ } }
    let u := { diskIn (.fetching 1) with blk := { (diskIn (.fetching 1)).blk with clock := ⟨2, 0⟩ } }
    configValid cfg = true ∧ Channel.disk ∈ cfg.dmaChans ∧ Channel.disk ∈ s.blk.arb.dma.map (·.1) ∧
    wholeTick s (nextOf s) ∧ (nextOf s).now.owner ≠ .channel .disk ∧
    dmaState (nextOf s).blk.arb .disk = .requesting ∧ wholeTick u (nextOf u) ∧
    (nextOf u).now.owner ≠ .channel .disk ∧ dmaState (nextOf u).blk.arb .disk = .fetching 1 :=
  ⟨by decide, by decide, by decide, wholeTick_nextOf (by decide), by decide, by decide, wholeTick_nextOf (by decide),
    by decide, by decide⟩

/-- A read, a write to storage, and a write to a block register. -/
theorem test_witness_CpuWinsItsAccess :
    (∀ op ∈ [⟨.read, 0x2000, .word, 0⟩, ⟨.write, 0x2001, .byte, 0x7F⟩, ⟨.write, 0xDFF09A, .word, 0x8008⟩],
      let s := at_ cfg 2 Cop.reset (asking op)
      wholeTick s (nextOf s) ∧ (nextOf s).now.owner = .cpu ∧ (nextOf s).now.inp.cpuReq = some op ∧
      busError s.cfg op.addr op.width = false) ∧ configValid cfg = true := by
  refine ⟨?_, by decide⟩
  simp only [List.forall_mem_cons, List.not_mem_nil, false_imp_iff, implies_true, and_true]
  exact ⟨⟨wholeTick_nextOf (by decide), by decide, by decide, by decide⟩,
    ⟨wholeTick_nextOf (by decide), by decide, by decide, by decide⟩,
    ⟨wholeTick_nextOf (by decide), by decide, by decide, by decide⟩⟩

/-- A misaligned word read (§2.4). -/
theorem test_witness_CpuBusErrorIsAnswered :
    let op : BusOp := ⟨.read, 0x000101, .word, 0⟩
    let s := at_ cfg 2 Cop.reset (asking op)
    configValid s.cfg = true ∧ wholeTick s (nextOf s) ∧ (nextOf s).now.owner = .cpu ∧
    (nextOf s).now.inp.cpuReq = some op ∧ busError s.cfg op.addr op.width = true :=
  ⟨by decide, wholeTick_nextOf (by decide), by decide, by decide, by decide⟩

/-- The CPU loses the tick to the disk, at a cost of 2. -/
def losing : State :=
  at_ cfg 3 Cop.reset { TickIn.quiet with wants := [.disk], cpuReq := some ⟨.read, 0x2000, .word, 0⟩ }

theorem test_witness_LosingCpuGetsWaitStates :
    configValid losing.cfg = true ∧ wholeTick losing (nextOf losing) ∧ cpuCandidate (begin losing) = true ∧
    (nextOf losing).now.owner ≠ .cpu ∧ contentionCost cfg (nextOf losing).now.owner = 2 :=
  ⟨by decide, wholeTick_nextOf (by decide), by decide, by decide, by decide⟩

/-- Not due, stalled, halted, and without a request (R171, R176, R178). -/
theorem test_witness_NonCandidateCpuGetsNoAnswer :
    let ask := asking ⟨.read, 0x2000, .word, 0⟩
    let d := at_ { cfg with components := [⟨0, .cpu, 2, 1⟩, ⟨1, .channel .disk, 1, 0⟩, ⟨2, .channel .copper, 1, 0⟩] } 2
      Cop.reset ask
    let b := at_ cfg 2 Cop.reset ask
    let s := b.setArb { b.blk.arb with cpuWait := 1 }
    let h := at_ cfg 2 Cop.reset { ask with cpuHalted := true }
    let n := at_ cfg 2 Cop.reset .quiet
    (wholeTick d (nextOf d) ∧ cpuCandidate (begin d) = false) ∧ (wholeTick s (nextOf s) ∧ cpuCandidate (begin s) = false) ∧
    (wholeTick h (nextOf h) ∧ cpuCandidate (begin h) = false) ∧ (wholeTick n (nextOf n) ∧ cpuCandidate (begin n) = false) ∧
    cpuCandidate (begin b) = true :=
  ⟨⟨wholeTick_nextOf (by decide), by decide⟩, ⟨wholeTick_nextOf (by decide), by decide⟩,
    ⟨wholeTick_nextOf (by decide), by decide⟩, ⟨wholeTick_nextOf (by decide), by decide⟩, by decide⟩

/-- After that loss: 0, 1 and 2 further ticks. -/
theorem test_witness_StallLastsItsCost :
    let t := { nextOf losing with inputs := [.quiet, .quiet, .quiet] }
    wholeTick losing (nextOf losing) ∧ t.blk.arb.cpuWait = 2 ∧ Host.Core.run Sys2Proof.core 0 t = .next t ∧
    Host.Core.run Sys2Proof.core 2 t = .next (nextOf (nextOf t)) ∧ (nextOf (nextOf t)).blk.fault = none ∧
    (nextOf (nextOf t)).blk.refused = none :=
  ⟨wholeTick_nextOf (by decide), by decide, rfl, rfl, by decide, by decide⟩

/-- Each width, the long across the top of a small address space. -/
theorem test_witness_StorageReturnsTheLatestWrite :
    let c := { cfg with addrBits := 4, storage := [⟨0, 16⟩], intcEnableAddr := 2, intcPendingAddr := 4, dmaenAddr := 6 }
    2 ≤ c.addrBits ∧ blockRegAt c 15 = none ∧
    (∀ w ∈ [Width.byte, .word, .long], ∀ j < w.bytes, isStorage c (addAddr c 15 j) = true) := by decide

/-- A word access at a register's own address, and byte and long accesses that touch one. -/
theorem test_witness_BlockRegistersAreWordOnly :
    configValid cfg = true ∧ (0xDFF09A + 0) % 2 ^ cfg.addrBits = (regAddr cfg .intcEnable + 0) % 2 ^ cfg.addrBits ∧
    0 < Width.word.bytes ∧ busError cfg 0xDFF09A .word = false ∧ busError cfg 0xDFF09B .byte = true ∧
    busError cfg 0xDFF098 .long = true := by decide

theorem test_witness_StepKeepsStorageCanonical :
    let s := at_ cfgStore 3 (copIn .executeMove 0x0180 0x1234) .quiet
    Memory.wf s.mem = true ∧ Memory.inSpace s.cfg s.mem = true ∧ step s = .next (nextOf s) :=
  ⟨by decide, by decide, step_nextOf (by decide)⟩

theorem test_witness_PriorityEncodeIsTheGreatestLevel :
    configValid cfg = true ∧ (∃ i < cfg.nSrc, (0x8 : BitVec 15).getLsbD i = true) ∧ priorityEncode cfg 0x8 = 3 ∧
    priorityEncode cfg 0x10 = 0 := by decide

/-- A raise of source 0 with a CLR of source 0 by the copper in the same tick (R240), and a write to each register. -/
theorem test_witness_PendingMergesRaisesAndWrites :
    let s := at_ cfg 2 (copIn .executeMove 0x009C 0x0001) { TickIn.quiet with raised := 1 }
    configValid s.cfg = true ∧ wholeTick s (nextOf s) ∧ (nextOf s).now.regWrite = some (.intcPending, 0x0001) ∧
    (nextOf s).blk.intc.pending = 0 := ⟨by decide, wholeTick_nextOf (by decide), by decide, by decide⟩

theorem test_witness_EnableChangesByBusWriteOnly :
    let s := at_ cfg 2 (copIn .executeMove 0x009A 0x8008) .quiet
    configValid s.cfg = true ∧ wholeTick s (nextOf s) ∧ (nextOf s).now.regWrite = some (.intcEnable, 0x8008) :=
  ⟨by decide, wholeTick_nextOf (by decide), by decide⟩

theorem test_witness_DmaenChangesByBusWriteOnly :
    let s := at_ cfg 2 (copIn .executeMove 0x0096 0x0080) .quiet
    configValid s.cfg = true ∧ wholeTick s (nextOf s) ∧ (nextOf s).now.regWrite = some (.dmaEn, 0x0080) ∧
    (nextOf s).blk.arb.dmaEnable = 0x0010 := ⟨by decide, wholeTick_nextOf (by decide), by decide, by decide⟩

/-- Program P4 at T6: the level after the tick is 3, the sample during it was 0. -/
theorem test_witness_LevelIsLatchedAndSampledOneTickLater :
    let b := at_ cfg 6 (copIn .executeMove 0x009C 0x8008) .quiet
    let s := b.setIntc { b.blk.intc with enable := 8 }
    wholeTick s (nextOf s) ∧ (nextOf s).now.level = 0 ∧ (nextOf s).blk.intc.level = 3 :=
  ⟨wholeTick_nextOf (by decide), by decide, by decide⟩

theorem test_witness_TickAdvancesTheCounterByOne :
    let s := at_ cfg 0xFFFFFFFFFFFFFFFE Cop.reset .quiet
    wholeTick s (nextOf s) ∧ (nextOf s).blk.clock.tick = 0xFFFFFFFFFFFFFFFF :=
  ⟨wholeTick_nextOf (by decide), by decide⟩

/-- The top tick, a recorded fatal error, and a recorded refusal. -/
theorem test_witness_StuckBlocksTakeNoStep :
    (at_ cfg 0xFFFFFFFFFFFFFFFF Cop.reset .quiet).blk.clock.tick.toNat = 2 ^ 64 - 1 ∧
    ((at_ cfg 2 Cop.reset .quiet).setFault (some ⟨.invariantViolation 3, 1, .copper⟩)).blk.fault ≠ none ∧
    (restore { Block.fresh cfg with cop := { Cop.reset with pc := 1 } } (at_ cfg 2 Cop.reset .quiet)).blk.refused ≠ none :=
  by decide

/-- A live state, and one whose tick refuses a reserved MOVE. -/
theorem test_witness_GuestNeverStopsTheBlock :
    (at_ cfg 2 Cop.reset .quiet).runs = true ∧
    (let s := at_ cfg 2 (copIn .fetch1 0x0200 0) .quiet
     s.runs = true ∧ (nextOf s).blk.refused = some (.reservedMoveBits 2 0x0200)) := by decide

theorem test_witness_TickReadsNoEphemeralValue :
    wholeTick losing (nextOf losing) ∧ (losing.now ≠ (nextOf losing).now) :=
  ⟨wholeTick_nextOf (by decide), by decide⟩

theorem test_witness_EntryPointOrderIsUnobservable :
    cfg.components.Perm cfg.components.reverse ∧
    (cfg.components.filter (fun c => c.kind = .cpu)).length ≤ 1 ∧
    (∀ ch, (cfg.components.filter (fun c => c.kind = .channel ch)).length ≤ 1) := by
  refine ⟨(List.reverse_perm _).symm, by decide, fun ch => ?_⟩
  cases ch <;> simp [cfg]

theorem test_witness_FramesTakeTheRationalTickCount : 0 < Config.worked.fpsNum ∧
    framesTicks Config.worked 5 0 = 2837516 := by decide

/-- A frame of two ticks: a normal return; one whose last tick is discarded, which returns normally too, one tick behind;
and a second frame after it, which writes the accumulator and stops. -/
theorem test_witness_RunFrameRunsItsTicks :
    let c := { cfg with crystalHz := 125 }
    let s := { at_ c 0 Cop.reset .quiet with inputs := [.quiet, .quiet, .quiet] }
    let d := { at_ c 0 (copIn .fetch0 0 0) .quiet with
      inputs := [{ TickIn.quiet with mem := 0x0200 }, .quiet, .quiet] }
    (0 < c.fpsNum ∧ s.blk.clock.frameAcc < c.fpsNum) ∧
    ((runFrame 1 s).finished = true ∧ (runFrame 1 s).state.blk.clock.tick = 2) ∧
    ((runFrame 1 d).finished = true ∧ hasStopped (runFrame 1 d).state = true ∧
      (runFrame 1 d).state.blk.clock = ⟨1, 25⟩) ∧
    (runFrame 2 d).finished = false ∧ isStuck (runFrame 2 d).state = true ∧
    (runFrame 2 d).state.blk.clock = ⟨1, 0⟩ := by decide

theorem test_witness_StepKeepsSoundness :
    let s := at_ cfg 2 (copIn .executeMove 0x009C 0x8008) .quiet
    s.sound = true ∧ step s = .next (nextOf s) ∧ (nextOf s).blk.intc.pending = 8 :=
  ⟨by decide, step_nextOf (by decide), by decide⟩

theorem test_witness_ConfiguredBlockIsResetAndSound : configure cfg = .ok (State.fresh cfg) := by
  unfold configure; rw [if_pos (by decide)]

theorem test_witness_SoundRunsHaveNoFatalError :
    listState.sound = true ∧ listState.blk.fault = none ∧
    Host.Core.run Sys2Proof.core 2 listState = .next (nextOf (nextOf listState)) := ⟨by decide, by decide, rfl⟩

theorem test_witness_HostResetSetsEveryField : losing.sound = true ∧ losing.blk ≠ (hostReset losing).blk := by decide

/-- A block to restore; one that breaks invariant 3; one whose pc has more than ADDR_BITS bits (R43 holds of it); and a
block with a fault, over which the good blob restores all but the fault. -/
theorem test_witness_RestoreReplacesOrRefuses :
    let odd : Block := { Block.fresh cfg with cop := { Cop.reset with pc := 1 } }
    let wide : Block := { Block.fresh cfg with cop := { Cop.reset with pc := 2 ^ 24 } }
    let f : FatalRecord := ⟨.invariantViolation 3, 1, .copper⟩
    losing.sound = true ∧ (nextOf losing).blk.typed losing.cfg = true ∧ (nextOf losing).blk.inv losing.cfg = true ∧
    restore (nextOf losing).blk losing = { losing with blk := (nextOf losing).blk } ∧ odd.inv losing.cfg = false ∧
    wide.typed losing.cfg = false ∧ wide.inv losing.cfg = true ∧
    restore wide losing = losing.setRefused (some .incompatibleSnapshot) ∧
    (losing.setFault (some f)).blk.fault ≠ none ∧
    (restore (nextOf losing).blk (losing.setFault (some f))).blk = { (nextOf losing).blk with fault := some f } := by
  decide

/-- A read that gets a value and a read at a bus error. -/
theorem test_witness_HostReadIsTheNextBusRead :
    (∀ a ∈ [0x2000, 0x2001],
      let s := at_ cfg 2 Cop.reset (asking ⟨.read, a, .word, 0⟩)
      (nextIn s).cpuReq = some ⟨.read, a, .word, 0⟩ ∧ wholeTick s (nextOf s) ∧ (nextOf s).now.owner = .cpu) ∧
    configValid cfg = true := by
  refine ⟨?_, by decide⟩
  simp only [List.forall_mem_cons, List.not_mem_nil, false_imp_iff, implies_true, and_true]
  exact ⟨⟨by decide, wholeTick_nextOf (by decide), by decide⟩, ⟨by decide, wholeTick_nextOf (by decide), by decide⟩⟩

/-- A divisor of 0, and a phase equal to its divisor. -/
theorem test_witness_BadDivisorOrPhaseIsRejected :
    let zero : Component := ⟨7, .timer, 0, 0⟩
    let late : Component := ⟨8, .timer, 2, 2⟩
    let c := { cfg with components := [zero, late] }
    zero ∈ c.components ∧ zero.divisor = 0 ∧ late ∈ c.components ∧ late.divisor ≤ late.phase := by decide

/-- A repeated id, a second CPU, a DMA_BIT of 15, UNITS of 0. -/
theorem test_witness_FailedChecksNameTheirComponent :
    let a : Component := ⟨0, .cpu, 1, 0⟩
    let b : Component := ⟨0, .timer, 1, 0⟩
    let d : Component := ⟨9, .cpu, 1, 0⟩
    let c := { cfg with channels := [⟨.disk, 0, 15, [⟨2, 1, 1⟩]⟩, ⟨.copper, 1, 7, [⟨1, 0, 0⟩]⟩] }
    configErrors { cfg with components := cfg.components ++ [b, d] } = [⟨3, some 0⟩, ⟨3, some 9⟩] ∧
    cfg.components = [] ++ a :: cfg.components.tail ∧ a.id = b.id ∧ a.kind = .cpu ∧ d.kind = .cpu ∧
    componentOf c (.channel .disk) = some ⟨1, .channel .disk, 1, 0⟩ ∧ Channel.disk ∈ c.chans ∧ 14 < dmaBit c .disk ∧
    Channel.disk ∈ c.dmaChans ∧ units c .disk = 0 := by decide

end Sys2Proof.Tests
end

section
/-! PROOFS. The state's own statements (10_state.md): the reset state and every step keep the record sound (R21, R43),
and a tick reads nothing of the tick before it (R41, R42, R266). -/

namespace Sys2Proof.Machine

/-! ### Soundness as facts -/

/-- The parts of a sound state. -/
theorem sound_iff {s : State} : s.sound = true ↔
    configValid s.cfg = true ∧ s.blk.typed s.cfg = true ∧ brokenInvariant s.cfg s.blk = none ∧
      Memory.wf s.mem = true ∧ Memory.inSpace s.cfg s.mem = true := by
  simp [State.sound, Block.inv, and_assoc]

/-- The types of R21 that `Block` does not carry, as propositions. -/
theorem typed_iff {cfg : Config} {b : Block} : b.typed cfg = true ↔
    b.cop.pc < 2 ^ cfg.addrBits ∧ b.arb.dma.map (·.1) = cfg.dmaChans ∧ b.intc.level ≤ 7 ∧
      ownerInRange cfg b.arb.lastOwner = true := by
  simp [Block.typed, and_assoc]

/-- Invariant 2 of R43 as a fact about each entry that is in a fetch. -/
theorem inv2_iff {cfg : Config} {b : Block} :
    inv2 cfg b = true ↔ ∀ e ∈ b.arb.dma, ∀ k, e.2 = .fetching k → 1 ≤ k ∧ k < units cfg e.1 := by
  rw [inv2, List.all_eq_true]
  refine forall₂_congr fun e _ => ?_
  cases e.2 <;> simp

/-- Invariant 2 of R43 and the type of `dma` are together what `dmaOk` says of the arbiter. -/
theorem dmaOk_iff {cfg : Config} {b : Block} :
    dmaOk cfg b.arb ↔ inv2 cfg b = true ∧ b.arb.dma.map (·.1) = cfg.dmaChans := by
  rw [inv2_iff, dmaOk]

/-- Invariant 5 of R43: neither interrupt register has a bit from NSRC on. -/
theorem inv5_iff {cfg : Config} {b : Block} :
    inv5 cfg b = true ↔ b.intc.pending &&& ~~~srcMask cfg = 0 ∧ b.intc.enable &&& ~~~srcMask cfg = 0 := by
  simp [inv5]

/-- Invariant 7 of R43: DMAEN has no bit outside the image of DMA_BIT. -/
theorem inv7_iff {cfg : Config} {b : Block} : inv7 cfg b = true ↔ b.arb.dmaEnable &&& ~~~dmaMask cfg = 0 := by
  simp [inv7]

/-! ### The reset state (R311) -/

/-- With no source pending the level is 0 (R236). -/
@[simp] theorem priorityEncode_zero (cfg : Config) : priorityEncode cfg 0#15 = 0 := by simp [priorityEncode]

theorem Arb.reset_dmaOk (cfg : Config) : dmaOk cfg (Arb.reset cfg) := by
  constructor
  · intro e he k hk
    obtain ⟨c, -, rfl⟩ := List.mem_map.mp he
    cases hk
  · simp [Arb.reset, Function.comp_def]

/-- Under a valid configuration the reset values satisfy R43. -/
theorem Block.fresh_inv {cfg : Config} (V : ValidFacts cfg) : brokenInvariant cfg (Block.fresh cfg) = none := by
  have h2 : inv2 cfg (Block.fresh cfg) = true := (dmaOk_iff.mp (Arb.reset_dmaOk cfg)).1
  rw [brokenInvariant_none]
  refine ⟨?_, h2, rfl, rfl, ?_, ?_, ?_⟩
  · exact decide_eq_true V.fpsNum
  · exact inv5_iff.mpr ⟨BitVec.zero_and, BitVec.zero_and⟩
  · simp [inv6, Block.fresh, Intc.reset]
  · exact inv7_iff.mpr BitVec.zero_and

/-- The reset values have the types of R21. -/
theorem Block.fresh_typed (cfg : Config) : (Block.fresh cfg).typed cfg = true :=
  typed_iff.mpr ⟨Nat.two_pow_pos _, (Arb.reset_dmaOk cfg).2, Nat.zero_le 7, rfl⟩

/-- A newly configured machine is sound (R261, R283). -/
theorem State.fresh_sound {cfg : Config} (hv : configValid cfg = true) : (State.fresh cfg).sound = true :=
  sound_iff.mpr ⟨hv, Block.fresh_typed cfg, Block.fresh_inv (validFacts hv), rfl, rfl⟩

/-! ### What phases P4 to P6 keep -/

section finishPhase
variable (s : State)
@[simp] theorem finish_cfg : (finish s).cfg = s.cfg := rfl
@[simp] theorem finish_cop : (finish s).blk.cop = s.blk.cop := rfl
@[simp] theorem finish_mem : (finish s).mem = s.mem := rfl
@[simp] theorem finish_frameAcc : (finish s).blk.clock.frameAcc = s.blk.clock.frameAcc := rfl
@[simp] theorem finish_arb : (finish s).blk.arb =
    { s.blk.arb with cpuWait := nextCpuWait s, lastOwner := s.now.owner, dmaEnable := mergedDmaEnable s } := rfl
@[simp] theorem finish_intc : (finish s).blk.intc =
    ⟨mergedPending s, mergedEnable s, priorityEncode s.cfg (mergedPending s &&& mergedEnable s)⟩ := rfl
end finishPhase

/-- The commits of P4 set only implemented bits of INTC_PENDING and INTC_ENABLE (R232 to R234). -/
theorem finish_inv5 {s : State} (h : inv5 s.cfg s.blk = true) : inv5 s.cfg (finish s).blk = true := by
  obtain ⟨hp, he⟩ := inv5_iff.mp h
  exact inv5_iff.mpr ⟨applyMasks_outside _ (or_outside _ hp) (writeMasks_outside _ _ _),
    applyMasks_outside _ he (writeMasks_outside _ _ _)⟩

/-- P5 latches the level of the registers that P4 committed (R235). -/
theorem finish_inv6 (s : State) : inv6 s.cfg (finish s).blk = true := by simp [inv6]

/-- The commit of P4 sets only implemented bits of DMAEN (R156). -/
theorem finish_inv7 {s : State} (h : inv7 s.cfg s.blk = true) : inv7 s.cfg (finish s).blk = true :=
  inv7_iff.mpr (applyMasks_outside _ (inv7_iff.mp h) (writeMasks_outside _ _ _))

/-- The owner that the ladder gives is a SlotOwner of the configuration (R26): a channel comes out of CHANNEL_ORDER,
whose members are in CHANNELS. -/
theorem ladder_inRange {s : State} (V : ValidFacts s.cfg) : ownerInRange s.cfg (ladder s) = true := by
  cases h : ladder s with
  | channel c => exact V.chanRange c (V.orderIn c (ladder_channel h).1)
  | cpu => rfl
  | refresh => rfl
  | noOwner => rfl

/-! ### A whole tick keeps soundness -/

/-- P3 keeps the channels' fetch states right (R43, R147). -/
theorem perform_dmaOk {s u : State} (V : ValidFacts s.cfg) (h : dmaOk s.cfg s.blk.arb)
    (hu : perform (begin s) = .next u) : dmaOk s.cfg u.blk.arb :=
  runEntries_dma (s := begin s) V _ rfl hu h

/-- A tick whose P3 answers `u` from a sound state ends with the invariants of R43. -/
theorem finish_inv {s u : State} (hs : s.sound = true) (hu : perform (begin s) = .next u)
    (hf : PerformFrame (begin s) u) : brokenInvariant s.cfg (finish u).blk = none := by
  obtain ⟨hv, ht, hi, -, -⟩ := sound_iff.mp hs
  obtain ⟨hpc, hkeys, -, -⟩ := typed_iff.mp ht
  obtain ⟨h1, h2, h3, h4, h5, -, h7⟩ := brokenInvariant_none.mp hi
  obtain ⟨-, h3', h4'⟩ := perform_cop_inv hv hpc h3 h4 hu
  have hdma : dmaOk s.cfg u.blk.arb := perform_dmaOk (validFacts hv) (dmaOk_iff.mpr ⟨h2, hkeys⟩) hu
  have hcfg : s.cfg = u.cfg := hf.cfg.symm
  have h1' : inv1 s.cfg (finish u).blk = true := by simpa [inv1, hf.clock] using h1
  have h2' : inv2 s.cfg (finish u).blk = true := inv2_iff.mpr hdma.1
  have h5' : inv5 s.cfg u.blk = true := by simpa [inv5, hf.intc] using h5
  have h7' : inv7 s.cfg u.blk = true := by simpa [inv7, hf.dmaEnable] using h7
  rw [hcfg] at h1' h2' h5' h7' ⊢
  exact brokenInvariant_none.mpr ⟨h1', h2', h3', h4', finish_inv5 h5', finish_inv6 u, finish_inv7 h7'⟩

/-- A tick whose P3 answers `u` from a sound state ends with the types of R21. -/
theorem finish_typed {s u : State} (hs : s.sound = true) (hu : perform (begin s) = .next u)
    (hf : PerformFrame (begin s) u) : (finish u).blk.typed s.cfg = true := by
  obtain ⟨hv, ht, hi, -, -⟩ := sound_iff.mp hs
  obtain ⟨hpc, hkeys, -, -⟩ := typed_iff.mp ht
  obtain ⟨-, h2, h3, h4, -, -, -⟩ := brokenInvariant_none.mp hi
  have V := validFacts hv
  have hcfg : u.cfg = s.cfg := hf.cfg
  have hpc' : u.blk.cop.pc < 2 ^ s.cfg.addrBits := (perform_cop_inv hv hpc h3 h4 hu).1
  have hdma : dmaOk s.cfg u.blk.arb := perform_dmaOk V (dmaOk_iff.mpr ⟨h2, hkeys⟩) hu
  have hlevel : (finish u).blk.intc.level ≤ 7 := priorityEncode_le_seven (hcfg ▸ V) _
  have howner : ownerInRange s.cfg u.now.owner = true := hf.owner ▸ ladder_inRange (s := sample s) V
  exact typed_iff.mpr ⟨hpc', hdma.2, hlevel, howner⟩

/-- A tick whose P3 answers `u` from a sound state ends sound. -/
theorem finish_sound {s u : State} (hs : s.sound = true) (hu : perform (begin s) = .next u)
    (hf : PerformFrame (begin s) u) (hm : MemKept (begin s) u) : (finish u).sound = true := by
  obtain ⟨hv, -, -, hwf, hsp⟩ := sound_iff.mp hs
  have hcfg : (finish u).cfg = s.cfg := hf.cfg
  rw [sound_iff, hcfg]
  exact ⟨hv, finish_typed hs hu hf, finish_inv hs hu hf, hm.wf hwf, hm.inSpace hsp⟩

/-- A refusal records its reason and nothing else (R287), so it keeps soundness. -/
@[simp] theorem recordRefusal_sound (s : State) (r : RefuseReason) : (recordRefusal s r).sound = s.sound := rfl

/-! ### No hidden state -/

/-- P1 and P2 write every ephemeral value anew (R41). -/
@[simp] theorem begin_setNow (s : State) (x : TickNow) : begin (s.setNow x) = begin s := rfl

/-- P0 reads no ephemeral value. -/
@[simp] theorem stuckReason_setNow (s : State) (x : TickNow) : stuckReason (s.setNow x) = stuckReason s := rfl

/-- A tick that P0 and the check of R43 let start finishes what P3 answers. -/
theorem step_of_perform {s u : State} (hp : stuckReason s = none) (hi : brokenInvariant s.cfg s.blk = none)
    (hu : perform (begin s) = .next u) : step s = .next (finish u) := by
  simp only [step, tick, hp, hi, tickBody, hu, endTick]

/-- A whole tick does not depend on the ephemeral values it starts with (R41, R42, R266). -/
theorem wholeTick_setNow {s t : State} (x : TickNow) (h : wholeTick s t) : wholeTick (s.setNow x) t := by
  obtain ⟨hst, hfault, hrefused⟩ := h
  obtain ⟨u, hu, rfl, -, -, -, hp, hi⟩ := step_ran hst hfault hrefused
  have hu' : perform (begin (s.setNow x)) = .next u := by rw [begin_setNow]; exact hu
  exact ⟨step_of_perform hp hi hu', hfault, hrefused⟩

end Sys2Proof.Machine

namespace Sys2Proof.Proofs

open Sys2Proof.Machine

/-- Settles O49. A step from a sound state is no fatal error, because R43 holds; a refusal changes only the sticky
record; any other step is a whole tick. -/
theorem stepKeepsSoundness : Obligations.StepKeepsSoundness := by
  intro s t hs hstep
  obtain ⟨-, -, hi, -, -⟩ := sound_iff.mp hs
  rcases step_cases s with ⟨_, -, -, hstuck⟩ | ⟨-, n, site, hbroken, -⟩ | ⟨-, -, pc, ir1, -, -, -, he⟩ |
    ⟨-, -, u, hu, he, hf, hm, -⟩
  · exact absurd hstep (hstuck t)
  · rw [hi] at hbroken; cases hbroken
  · rw [he] at hstep; cases hstep
    rw [recordRefusal_sound]; exact hs
  · rw [he] at hstep; cases hstep
    exact finish_sound hs hu hf hm

/-- Settles O45: P1 and P2 write the ephemeral values anew before anything reads them. -/
theorem tickReadsNoEphemeralValue : Obligations.TickReadsNoEphemeralValue :=
  fun _ _ x h => wholeTick_setNow x h

/-- Settles O50: the worked configuration passes the checks of R283, and every machine configured with such a one is
sound. -/
theorem resetStateIsSound : Obligations.ResetStateIsSound :=
  State.fresh_sound (cfg := Config.worked) (by decide)

end Sys2Proof.Proofs
end

section
/-! PROOFS. The memory statements (20_memory.md): storage gives back what was written (R61, R73), the block's registers
answer word accesses only (R64, R66, R67), and every step keeps storage canonical (R62, R73). -/

namespace Sys2Proof.Machine

/-! ### A value and its bytes (R61) -/

/-- A value cut to its low `n` bytes (R13); `truncateTo` is this at the bytes of a width. -/
def lowBytes (n : Nat) (v : BusValue) : BusValue := v &&& BitVec.ofNat 32 (2 ^ (8 * n) - 1)

theorem truncateTo_eq_lowBytes (w : Width) (v : BusValue) : truncateTo w v = lowBytes w.bytes v := rfl

theorem getLsbD_lowBytes (n : Nat) (v : BusValue) (i : Nat) :
    (lowBytes n v).getLsbD i = (decide (i < 8 * n) && v.getLsbD i) := by
  rw [lowBytes, BitVec.getLsbD_and, BitVec.getLsbD_ofNat, Nat.testBit_two_pow_sub_one]
  by_cases hi : i < 32
  · simp [hi, Bool.and_comm]
  · simp [BitVec.getLsbD_of_ge v i (Nat.le_of_not_lt hi)]

theorem getLsbD_valueByte (v : BusValue) (j i : Nat) :
    (valueByte v j).getLsbD i = (decide (i < 8) && v.getLsbD (8 * j + i)) := by
  simp [valueByte]

/-- Byte `n`, put back in its place above the low `n` bytes, gives the low `n + 1` bytes. -/
theorem lowBytes_succ (n : Nat) (v : BusValue) :
    (valueByte v n).setWidth 32 <<< (8 * n) ||| lowBytes n v = lowBytes (n + 1) v := by
  refine BitVec.eq_of_getLsbD_eq fun i hi => ?_
  simp only [BitVec.getLsbD_or, BitVec.getLsbD_shiftLeft, BitVec.getLsbD_setWidth, getLsbD_valueByte, getLsbD_lowBytes]
  by_cases hn : i < 8 * n
  · have hs : i < 8 * (n + 1) := by omega
    simp [hn, hs]
  · have hback : 8 * n + (i - 8 * n) = i := by omega
    have hbyte : i - 8 * n < 8 ↔ i < 8 * (n + 1) := by omega
    have hlt : i - 8 * n < 32 := by omega
    simp [hn, hi, hback, hbyte, hlt]

/-- The low `n` bytes, written most significant first, are the value cut to `n` bytes. -/
theorem valueOfBytes_valueByte (n : Nat) (v : BusValue) :
    valueOfBytes ((List.range n).map fun j => valueByte v (n - 1 - j)) = lowBytes n v := by
  induction n with
  | zero => simp [valueOfBytes, lowBytes]
  | succ n ih =>
    have htail : (List.range n).map ((fun j => valueByte v (n + 1 - 1 - j)) ∘ Nat.succ) =
        (List.range n).map fun j => valueByte v (n - 1 - j) :=
      List.map_congr_left fun j _ => congrArg (valueByte v) (by omega)
    rw [List.range_succ_eq_map, List.map_cons, List.map_map, htail, valueOfBytes, ih, List.length_map,
      List.length_range]
    exact lowBytes_succ n v

/-- Least significant byte first is the reverse of most significant byte first (R61). -/
theorem reverse_map_valueByte (n : Nat) (v : BusValue) :
    ((List.range n).map (valueByte v)).reverse = (List.range n).map fun j => valueByte v (n - 1 - j) :=
  List.ext_getElem (by simp) fun i _ _ => by simp

/-- In either byte order, the bytes of a value assemble to the value cut to their number (R61). -/
theorem assemble_byteAtOffset (order : ByteOrder) (n : Nat) (v : BusValue) :
    assemble order ((List.range n).map (byteAtOffset order n v)) = lowBytes n v := by
  cases order with
  | big => exact valueOfBytes_valueByte n v
  | little => exact (congrArg valueOfBytes (reverse_map_valueByte n v)).trans (valueOfBytes_valueByte n v)

/-! ### A read after a write (R73) -/

theorem bytes_le_four (w : Width) : w.bytes ≤ 4 := by cases w <;> decide

/-- From 4 addresses on, the bytes of an access lie at different addresses, wherever the access wraps (R62). -/
theorem addAddr_offset_inj {cfg : Config} (hbits : 2 ≤ cfg.addrBits) {a j k : Nat} (hj : j < 4) (hk : k < 4)
    (h : addAddr cfg a j = addAddr cfg a k) : j = k := by
  have hfour : 2 ^ 2 ≤ 2 ^ cfg.addrBits := Nat.pow_le_pow_right (by decide) hbits
  have hmod : j ≡ k [MOD 2 ^ cfg.addrBits] := Nat.ModEq.add_left_cancel' a h
  exact hmod.eq_of_lt_of_lt (by omega) (by omega)

/-- A byte of an access to plain storage reads as the byte the same access stored there, whatever the input presents. -/
theorem platformByte_storeBytes {s : State} {a : Nat} {w : Width} (v inMem : BusValue) (hbits : 2 ≤ s.cfg.addrBits)
    {j : Nat} (hj : j < w.bytes) (hs : isStorage s.cfg (addAddr s.cfg a j) = true) :
    platformByte (s.setMem (storeBytes s.cfg s.mem a w v)) inMem w.bytes a j =
      byteAtOffset s.cfg.byteOrder w.bytes v j := by
  have hread : Memory.read (storeBytes s.cfg s.mem a w v) (addAddr s.cfg a j) =
      some (byteAtOffset s.cfg.byteOrder w.bytes v j) :=
    read_storeBytes_at _ _ _ _ _ _ hj hs fun i hi =>
      addAddr_offset_inj hbits (hi.trans_le (bytes_le_four w)) (hj.trans_le (bytes_le_four w))
  simp [platformByte, hs, hread]

/-- A platform read of an access to plain storage gives the value the same access stored, cut to its width (R13). -/
theorem platformRead_storeBytes {s : State} {a : Nat} {w : Width} (v inMem : BusValue) (hbits : 2 ≤ s.cfg.addrBits)
    (hs : ∀ j < w.bytes, isStorage s.cfg (addAddr s.cfg a j) = true) :
    platformRead (s.setMem (storeBytes s.cfg s.mem a w v)) inMem a w = truncateTo w v := by
  have hbytes : (List.range w.bytes).map
        (platformByte (s.setMem (storeBytes s.cfg s.mem a w v)) inMem w.bytes a) =
      (List.range w.bytes).map (byteAtOffset s.cfg.byteOrder w.bytes v) :=
    List.map_congr_left fun j hj =>
      have hlt : j < w.bytes := List.mem_range.mp hj
      platformByte_storeBytes v inMem hbits hlt (hs j hlt)
  rw [platformRead, hbytes, truncateTo_eq_lowBytes]
  exact assemble_byteAtOffset _ _ _

/-- Away from the block's registers a read is the platform's (R66). -/
theorem memRead_of_platform {s : State} {a : Nat} (inMem : BusValue) (w : Width) (h : blockRegAt s.cfg a = none) :
    memRead s inMem a w = platformRead s inMem a w := by rw [memRead, h]

/-- Away from the block's registers a write is the platform's (R66). -/
theorem memWrite_of_platform {s : State} {a : Nat} (w : Width) (v : BusValue) (h : blockRegAt s.cfg a = none) :
    memWrite s a w v = s.setMem (storeBytes s.cfg s.mem a w v) := by rw [memWrite, h]

/-! ### The block's registers on the bus -/

/-- A register that is found at an address has that address. -/
theorem regAddr_of_blockRegAt {cfg : Config} {a : Nat} {r : BlockReg} (h : blockRegAt cfg a = some r) :
    regAddr cfg r = a := by
  rw [blockRegAt] at h
  simpa using List.find?_some h

/-- Under a valid configuration the registers' addresses are distinct, so each register is found at its own. -/
theorem blockRegAt_regAddr {cfg : Config} (V : ValidFacts cfg) (r : BlockReg) :
    blockRegAt cfg (regAddr cfg r) = some r := by
  cases h : blockRegAt cfg (regAddr cfg r) with
  | none => exact absurd (decide_eq_true rfl) (List.find?_eq_none.mp h r (mem_blockRegs r))
  | some r' => rw [V.regDistinct r' r (regAddr_of_blockRegAt h)]

/-- A read at a register's own address gives the register (R66, R67). -/
theorem memRead_regAddr {s : State} (V : ValidFacts s.cfg) (inMem : BusValue) (r : BlockReg) (w : Width) :
    memRead s inMem (regAddr s.cfg r) w = (regRead s.blk r).setWidth 32 := by
  rw [memRead, blockRegAt_regAddr V]

/-- The 15 bits of a register, read as a word, are the same bits on the bus (R40). -/
theorem setWidth_word_bus (x : BitVec 15) : (x.setWidth 16).setWidth 32 = x.setWidth 32 :=
  BitVec.setWidth_setWidth (by decide)

/-- An access overlaps the registers when one of its bytes has the address of a byte of a register (R64). -/
theorem overlapsBlockReg_iff {cfg : Config} {a : Nat} {w : Width} : overlapsBlockReg cfg a w = true ↔
    ∃ r, ∃ j < w.bytes, ∃ k < 2, addAddr cfg a j = addAddr cfg (regAddr cfg r) k := by
  simp [overlapsBlockReg, mem_blockRegs]

/-- An access that overlaps the registers and is no bus error is a word access at a register's own address (R64). -/
theorem word_at_regAddr_of_overlaps {cfg : Config} {a : Nat} {w : Width} (ho : overlapsBlockReg cfg a w = true)
    (he : busError cfg a w = false) : w = .word ∧ ∃ r, a = regAddr cfg r := by
  have hreg : (blockRegAt cfg a).isSome = true ∧ w = .word := by
    simp only [busError, ho, Bool.or_eq_false_iff, Bool.true_and, Bool.not_eq_false', Bool.and_eq_true,
      beq_iff_eq] at he
    exact he.2
  obtain ⟨hsome, hword⟩ := hreg
  obtain ⟨r, hr⟩ := Option.isSome_iff_exists.mp hsome
  exact ⟨hword, r, (regAddr_of_blockRegAt hr).symm⟩

end Sys2Proof.Machine

namespace Sys2Proof.Proofs

open Sys2Proof.Machine

/-- Settles O33: the write puts each byte of the value at an address of its own, the read takes the bytes from there,
and in either byte order they assemble to the value cut to its width. -/
theorem storageReturnsTheLatestWrite : Obligations.StorageReturnsTheLatestWrite := by
  intro s a w v inMem hbits hreg hs
  calc memRead (memWrite s a w v) inMem a w
    _ = memRead (s.setMem (storeBytes s.cfg s.mem a w v)) inMem a w := by rw [memWrite_of_platform w v hreg]
    _ = platformRead (s.setMem (storeBytes s.cfg s.mem a w v)) inMem a w := memRead_of_platform inMem w hreg
    _ = truncateTo w v := platformRead_storeBytes v inMem hbits hs

/-- Settles O34: distinct register addresses make each register readable at its own, and the third term of `busError`
turns away every other access that overlaps one. -/
theorem blockRegistersAreWordOnly : Obligations.BlockRegistersAreWordOnly := by
  intro s inMem hv
  have V := validFacts hv
  refine ⟨⟨?_, ?_, ?_⟩, fun r a w j k hj hk hbyte he => ?_⟩
  · exact (memRead_regAddr V inMem .intcEnable .word).trans (setWidth_word_bus _)
  · exact (memRead_regAddr V inMem .intcPending .word).trans (setWidth_word_bus _)
  · exact (memRead_regAddr V inMem .dmaEn .word).trans (setWidth_word_bus _)
  · exact word_at_regAddr_of_overlaps (overlapsBlockReg_iff.mpr ⟨r, j, hj, k, hk, hbyte⟩) he

/-- Settles O35: a step records a fatal error or a refusal on a state whose storage it leaves alone, or it ends what P3
answers, and P3 writes storage by bus writes only, which keep it canonical. -/
theorem stepKeepsStorageCanonical : Obligations.StepKeepsStorageCanonical := by
  intro s t hwf hsp hstep
  rcases step_cases s with ⟨_, -, -, hstuck⟩ | ⟨-, n, site, -, he⟩ | ⟨-, -, pc, ir1, -, -, -, he⟩ |
    ⟨-, -, u, -, he, hf, hm, -⟩
  · exact absurd hstep (hstuck t)
  · rw [he] at hstep; cases hstep; exact ⟨hwf, hsp⟩
  · rw [he] at hstep; cases hstep; exact ⟨hwf, hsp⟩
  · rw [he] at hstep; cases hstep
    rw [finish_mem, finish_cfg, hf.cfg]
    exact ⟨hm.wf hwf, hm.inSpace hsp⟩

end Sys2Proof.Proofs
end

section
/-! PROOFS. The encoding's own statements (30_encoding.md): the decoder's four rows (R92 to R98), which the encoder
inverts in words and in bytes of either order (R90, R99), and the worked encodings (R101). -/

namespace Sys2Proof

/-! ### The decoder's rows (R92, R96) -/

/-- The type bits of a word pair are IR1[0] and IR2[0]: each pair lies in one of the four rows, and this is what the
decoder answers in it. -/
theorem decodeWords_rows (ir1 ir2 : Word16) :
    (ir1.getLsbD 0 = false ∧ reservedOf ir1 = 0#7 ∧ decodeWords ir1 ir2 = .ok (.move (raOf ir1) ir2)) ∨
    (ir1.getLsbD 0 = false ∧ reservedOf ir1 ≠ 0#7 ∧ decodeWords ir1 ir2 = .error .reservedMoveBits) ∨
    (ir1.getLsbD 0 = true ∧ ir2.getLsbD 0 = false ∧ decodeWords ir1 ir2 =
      .ok (.wait (vpOf ir1) (evenOperand (hpOf ir1)) (veOf ir2) (evenOperand (heOf ir2)) (bfdOf ir2))) ∨
    (ir1.getLsbD 0 = true ∧ ir2.getLsbD 0 = true ∧ decodeWords ir1 ir2 =
      .ok (.skip (vpOf ir1) (evenOperand (hpOf ir1)) (veOf ir2) (evenOperand (heOf ir2)) (bfdOf ir2))) := by
  unfold decodeWords
  split
  · next h0 =>
    split
    · next h1 => exact .inr (.inr (.inr ⟨h0, h1, rfl⟩))
    · next h1 => exact .inr (.inr (.inl ⟨h0, (Bool.not_eq_true _).mp h1, rfl⟩))
  · next h0 =>
    have hmove := (Bool.not_eq_true _).mp h0
    split
    · next hr => exact .inl ⟨hmove, hr, rfl⟩
    · next hr => exact .inr (.inl ⟨hmove, hr, rfl⟩)

/-- The MOVE row. -/
theorem decodeWords_move_iff {ir1 ir2 : Word16} : (∃ ra data, decodeWords ir1 ir2 = .ok (.move ra data)) ↔
    ir1.getLsbD 0 = false ∧ reservedOf ir1 = 0#7 := by
  rcases decodeWords_rows ir1 ir2 with ⟨h0, h1, hd⟩ | ⟨h0, h1, hd⟩ | ⟨h0, h1, hd⟩ | ⟨h0, h1, hd⟩ <;>
    simp [hd, h0, h1, -BitVec.getLsbD_eq_getElem]

/-- The WAIT row. -/
theorem decodeWords_wait_iff {ir1 ir2 : Word16} :
    (∃ vp hp ve he bfd, decodeWords ir1 ir2 = .ok (.wait vp hp ve he bfd)) ↔
      ir1.getLsbD 0 = true ∧ ir2.getLsbD 0 = false := by
  rcases decodeWords_rows ir1 ir2 with ⟨h0, h1, hd⟩ | ⟨h0, h1, hd⟩ | ⟨h0, h1, hd⟩ | ⟨h0, h1, hd⟩ <;>
    simp [hd, h0, h1, -BitVec.getLsbD_eq_getElem]

/-- The SKIP row. -/
theorem decodeWords_skip_iff {ir1 ir2 : Word16} :
    (∃ vp hp ve he bfd, decodeWords ir1 ir2 = .ok (.skip vp hp ve he bfd)) ↔
      ir1.getLsbD 0 = true ∧ ir2.getLsbD 0 = true := by
  rcases decodeWords_rows ir1 ir2 with ⟨h0, h1, hd⟩ | ⟨h0, h1, hd⟩ | ⟨h0, h1, hd⟩ | ⟨h0, h1, hd⟩ <;>
    simp [hd, h0, h1, -BitVec.getLsbD_eq_getElem]

/-- The reserved MOVE space (R96). -/
theorem decodeWords_reserved_iff {ir1 ir2 : Word16} :
    decodeWords ir1 ir2 = .error .reservedMoveBits ↔ ir1.getLsbD 0 = false ∧ reservedOf ir1 ≠ 0#7 := by
  rcases decodeWords_rows ir1 ir2 with ⟨h0, h1, hd⟩ | ⟨h0, h1, hd⟩ | ⟨h0, h1, hd⟩ | ⟨h0, h1, hd⟩ <;>
    simp [hd, h0, h1, -BitVec.getLsbD_eq_getElem]

/-! ### Well-formed instructions (R99) -/

@[simp] theorem Instr.wf_move {ra : BitVec 9} {data : Word16} : (Instr.move ra data).wf = true ↔ evenBits ra = true := by
  cases h : evenBits ra <;> simp [Instr.wf, Instr.illFormed, h]

@[simp] theorem Instr.wf_wait {vp hp : BitVec 8} {ve : BitVec 7} {he : BitVec 8} {bfd : BitVec 1} :
    (Instr.wait vp hp ve he bfd).wf = true ↔ evenBits hp = true ∧ evenBits he = true := by
  cases h : evenBits hp <;> cases h' : evenBits he <;> simp [Instr.wf, Instr.illFormed, h, h']

@[simp] theorem Instr.wf_skip {vp hp : BitVec 8} {ve : BitVec 7} {he : BitVec 8} {bfd : BitVec 1} :
    (Instr.skip vp hp ve he bfd).wf = true ↔ evenBits hp = true ∧ evenBits he = true :=
  Instr.wf_wait (vp := vp) (ve := ve) (bfd := bfd)

/-! ### Decoding what was encoded -/

/-- The words of a WAIT or SKIP decode to the fields they were built from, the type by the bit `s` of IR2 (R92, R94). -/
theorem decodeWords_beamWords {hp he : BitVec 8} (hhp : evenBits hp = true) (hhe : evenBits he = true)
    (vp : BitVec 8) (ve : BitVec 7) (bfd s : BitVec 1) :
    decodeWords (beamWord1 vp hp) (beamWord2 ve he bfd s) =
      .ok (if s[0] then .skip vp hp ve he bfd else .wait vp hp ve he bfd) := by
  simp only [decodeWords, BitVec.getLsbD_eq_getElem, Nat.zero_lt_succ, beamWord1_type, beamWord2_type, if_true,
    vpOf_beamWord1, hpOf_beamWord1, veOf_beamWord2, heOf_beamWord2, bfdOf_beamWord2, evenOperand_fieldOf hhp,
    evenOperand_fieldOf hhe]
  split <;> rfl

/-- Each constructor's encoding lies in its own row, where the field laws give its operands back. -/
theorem decodeWords_encode {i : Instr} (hwf : i.wf = true) : decodeWords (encode i).1 (encode i).2 = .ok i := by
  cases i with
  | move ra data =>
    simp [encode, decodeWords, reservedOf_moveWord, raOf_moveWord (Instr.wf_move.mp hwf)]
  | wait vp hp ve he bfd =>
    obtain ⟨hhp, hhe⟩ := Instr.wf_wait.mp hwf
    exact decodeWords_beamWords hhp hhe vp ve bfd 0#1
  | skip vp hp ve he bfd =>
    obtain ⟨hhp, hhe⟩ := Instr.wf_skip.mp hwf
    exact decodeWords_beamWords hhp hhe vp ve bfd 1#1

/-- The byte decoder takes two words from the front of memory, in either byte order, and leaves the rest (R61, R90). -/
theorem decodeBytes_bytesOfWord (order : ByteOrder) (w1 w2 : Word16) (rest : List Byte) :
    decodeBytes order (bytesOfWord order w1 ++ bytesOfWord order w2 ++ rest) =
      (decodeWords w1 w2).map fun i => (i, rest) := by
  cases order with
  | big =>
    simp only [bytesOfWord, List.cons_append, List.nil_append, decodeBytes, wordOfBytes_bytesOfWord_big]
    cases decodeWords w1 w2 <;> rfl
  | little =>
    simp only [bytesOfWord, List.cons_append, List.nil_append, decodeBytes, wordOfBytes_bytesOfWord_little]
    cases decodeWords w1 w2 <;> rfl

theorem decodeBytes_encodeBytes {i : Instr} (hwf : i.wf = true) (order : ByteOrder) (rest : List Byte) :
    decodeBytes order (encodeBytes order i ++ rest) = .ok (i, rest) := by
  rw [encodeBytes, decodeBytes_bytesOfWord, decodeWords_encode hwf]; rfl

/-! ### The table value W = {IR1, IR2} (R91) -/

theorem wordPair_eq_append (ir1 ir2 : Word16) : wordPair ir1 ir2 = ir1 ++ ir2 := by
  rw [wordPair, ← BitVec.setWidth_append_eq_shiftLeft_setWidth_or, BitVec.setWidth_eq]

/-- W[31:16] is IR1. -/
theorem extractLsb'_wordPair_high (ir1 ir2 : Word16) : (wordPair ir1 ir2).extractLsb' 16 16 = ir1 := by
  rw [wordPair_eq_append, BitVec.extractLsb'_append_eq_left]

/-- W[15:0] is IR2. -/
theorem extractLsb'_wordPair_low (ir1 ir2 : Word16) : (wordPair ir1 ir2).extractLsb' 0 16 = ir2 := by
  rw [wordPair_eq_append, BitVec.extractLsb'_append_eq_right]

theorem ir1OfW_wordPair (ir1 ir2 : Word16) : ir1OfW (wordPair ir1 ir2).toNat = ir1 :=
  calc ir1OfW (wordPair ir1 ir2).toNat
    _ = (wordPair ir1 ir2).extractLsb' 16 16 := by rw [ir1OfW, BitVec.extractLsb', Nat.shiftRight_eq_div_pow]
    _ = ir1 := extractLsb'_wordPair_high ir1 ir2

theorem ir2OfW_wordPair (ir1 ir2 : Word16) : ir2OfW (wordPair ir1 ir2).toNat = ir2 :=
  calc ir2OfW (wordPair ir1 ir2).toNat
    _ = (wordPair ir1 ir2).extractLsb' 0 16 := by rw [ir2OfW, BitVec.extractLsb', Nat.shiftRight_zero]
    _ = ir2 := extractLsb'_wordPair_low ir1 ir2

/-- The table value of a well-formed instruction decodes to it. -/
theorem decodeTableWord_encodeW {i : Instr} (hwf : i.wf = true) : decodeTableWord 32 (encodeW i).toNat = some i := by
  have hbytes := decodeBytes_encodeBytes hwf .big []
  rw [List.append_nil, encodeBytes] at hbytes
  rw [decodeTableWord, Nat.mod_eq_of_lt (encodeW i).isLt, encodeW, ir1OfW_wordPair, ir2OfW_wordPair, hbytes]

/-- In a table whose lines are well formed and encode to their values, each value decodes to its line. -/
theorem tableRows_decode {rows : List (Nat × Instr)}
    (h : ∀ e ∈ rows, e.2.wf = true ∧ (encodeW e.2).toNat = e.1) :
    ∀ e ∈ rows, decodeTableWord 32 e.1 = some e.2 ∧ (encodeW e.2).toNat = e.1 := by
  intro e he
  obtain ⟨hwf, hvalue⟩ := h e he
  exact ⟨hvalue ▸ decodeTableWord_encodeW hwf, hvalue⟩

/-! ### The masks of the opcode map (R98) -/

theorem wordPair_inj {ir1 ir2 v1 v2 : Word16} : wordPair ir1 ir2 = wordPair v1 v2 ↔ ir1 = v1 ∧ ir2 = v2 := by
  refine ⟨fun h => ⟨?_, ?_⟩, fun ⟨h1, h2⟩ => by rw [h1, h2]⟩
  · rw [← extractLsb'_wordPair_high ir1 ir2, h, extractLsb'_wordPair_high]
  · rw [← extractLsb'_wordPair_low ir1 ir2, h, extractLsb'_wordPair_low]

theorem wordPair_and (ir1 ir2 m1 m2 : Word16) :
    wordPair ir1 ir2 &&& wordPair m1 m2 = wordPair (ir1 &&& m1) (ir2 &&& m2) := by
  simp only [wordPair_eq_append]
  exact BitVec.and_append

/-- A mask and match over W are a mask and match over each of its words. -/
theorem wordPair_and_eq_iff (m1 m2 v1 v2 : Word16) {ir1 ir2 : Word16} :
    wordPair ir1 ir2 &&& wordPair m1 m2 = wordPair v1 v2 ↔ ir1 &&& m1 = v1 ∧ ir2 &&& m2 = v2 := by
  rw [wordPair_and, wordPair_inj]

theorem and_typeBit_eq_zero_iff {w : Word16} : w &&& 1#16 = 0#16 ↔ w.getLsbD 0 = false := by
  rw [BitVec.and_one_eq_setWidth_ofBool_getLsbD]; cases w.getLsbD 0 <;> decide

theorem and_typeBit_eq_one_iff {w : Word16} : w &&& 1#16 = 1#16 ↔ w.getLsbD 0 = true := by
  rw [BitVec.and_one_eq_setWidth_ofBool_getLsbD]; cases w.getLsbD 0 <;> decide

/-- The mask of IR1[15:9] keeps the reserved bits of a MOVE and nothing else (R96). -/
theorem and_reservedBits (w : Word16) : w &&& 0xFE00#16 = (reservedOf w).setWidth 16 <<< 9 := by
  unfold reservedOf
  ext i hi
  interval_cases i <;> simp

theorem reservedOf_and_reservedBits (w : Word16) : reservedOf (w &&& 0xFE00#16) = reservedOf w := by
  unfold reservedOf
  ext i hi
  interval_cases i <;> simp

theorem and_reservedBits_eq_zero_iff {w : Word16} : w &&& 0xFE00#16 = 0#16 ↔ reservedOf w = 0#7 := by
  constructor <;> intro h
  · rw [← reservedOf_and_reservedBits, h]; rfl
  · rw [and_reservedBits, h]; rfl

/-- The MOVE row masks the type bit of IR1 and its reserved bits. -/
theorem wordPair_moveRow_iff {ir1 ir2 : Word16} : wordPair ir1 ir2 &&& 0xFE010000#32 = 0#32 ↔
    ir1.getLsbD 0 = false ∧ reservedOf ir1 = 0#7 :=
  calc wordPair ir1 ir2 &&& wordPair (1#16 ||| 0xFE00#16) 0#16 = wordPair 0#16 0#16
    _ ↔ ir1 &&& (1#16 ||| 0xFE00#16) = 0#16 ∧ ir2 &&& 0#16 = 0#16 := wordPair_and_eq_iff _ _ _ _
    _ ↔ ir1 &&& 1#16 = 0#16 ∧ ir1 &&& 0xFE00#16 = 0#16 := by
      rw [BitVec.and_or_distrib_left, BitVec.or_eq_zero_iff, and_iff_left BitVec.and_zero]
    _ ↔ ir1.getLsbD 0 = false ∧ reservedOf ir1 = 0#7 :=
      and_congr and_typeBit_eq_zero_iff and_reservedBits_eq_zero_iff

/-- The WAIT row masks the two type bits. -/
theorem wordPair_waitRow_iff {ir1 ir2 : Word16} : wordPair ir1 ir2 &&& 0x00010001#32 = 0x00010000#32 ↔
    ir1.getLsbD 0 = true ∧ ir2.getLsbD 0 = false :=
  (wordPair_and_eq_iff 1 1 1 0).trans (and_congr and_typeBit_eq_one_iff and_typeBit_eq_zero_iff)

/-- The SKIP row masks the two type bits. -/
theorem wordPair_skipRow_iff {ir1 ir2 : Word16} : wordPair ir1 ir2 &&& 0x00010001#32 = 0x00010001#32 ↔
    ir1.getLsbD 0 = true ∧ ir2.getLsbD 0 = true :=
  (wordPair_and_eq_iff 1 1 1 1).trans (and_congr and_typeBit_eq_one_iff and_typeBit_eq_one_iff)

/-- The first condition of the reserved MOVE space: the type bit of IR1. -/
theorem wordPair_moveType_iff {ir1 ir2 : Word16} : wordPair ir1 ir2 &&& 0x00010000#32 = 0#32 ↔
    ir1.getLsbD 0 = false :=
  (wordPair_and_eq_iff 1 0 0 0).trans ((and_iff_left BitVec.and_zero).trans and_typeBit_eq_zero_iff)

/-- The second condition of the reserved MOVE space: the reserved bits of IR1. -/
theorem wordPair_reservedBits_iff {ir1 ir2 : Word16} : wordPair ir1 ir2 &&& 0xFE000000#32 = 0#32 ↔
    reservedOf ir1 = 0#7 :=
  (wordPair_and_eq_iff 0xFE00 0 0 0).trans ((and_iff_left BitVec.and_zero).trans and_reservedBits_eq_zero_iff)

end Sys2Proof

namespace Sys2Proof.Proofs

/-- Settles O2: the encoding lies in the row of its constructor, whose fields give the operands back, and the bytes of
the two words assemble to them in either order. -/
theorem decodeInvertsEncode : Obligations.DecodeInvertsEncode :=
  fun _ hwf => ⟨decodeWords_encode hwf, decodeBytes_encodeBytes hwf⟩

/-- Settles O3: in each row that decodes, the words are put together again from the fields the decoder took. -/
theorem encodeInvertsDecode : Obligations.EncodeInvertsDecode := by
  intro ir1 ir2 i h
  rcases decodeWords_rows ir1 ir2 with ⟨h0, hr, hd⟩ | ⟨-, -, hd⟩ | ⟨h0, h1, hd⟩ | ⟨h0, h1, hd⟩
  · cases hd.symm.trans h
    exact ⟨Instr.wf_move.mpr (evenBits_raOf ir1), by rw [encode, moveWord_raOf h0 hr]⟩
  · cases hd.symm.trans h
  · cases hd.symm.trans h
    exact ⟨Instr.wf_wait.mpr ⟨evenBits_evenOperand _, evenBits_evenOperand _⟩,
      by rw [encode, beamWord1_fields h0, beamWord2_fields h1]⟩
  · cases hd.symm.trans h
    exact ⟨Instr.wf_skip.mpr ⟨evenBits_evenOperand _, evenBits_evenOperand _⟩,
      by rw [encode, beamWord1_fields h0, beamWord2_fields h1]⟩

/-- Settles O4: each mask and match of R98 is read in its two words, where it says the type bits and the reserved bits
of a decoder's row. -/
theorem opcodeMapIsTheTable : Obligations.OpcodeMapIsTheTable := fun _ _ =>
  ⟨decodeWords_move_iff.trans wordPair_moveRow_iff.symm, decodeWords_wait_iff.trans wordPair_waitRow_iff.symm,
    decodeWords_skip_iff.trans wordPair_skipRow_iff.symm,
    decodeWords_reserved_iff.trans (and_congr wordPair_moveType_iff (not_congr wordPair_reservedBits_iff)).symm⟩

/-- Settles O1: each line is well formed and encodes to its value, so the value decodes to the line. -/
theorem workedEncodingsDecode : Obligations.WorkedEncodingsDecode := tableRows_decode (by decide)

end Sys2Proof.Proofs
end

section
/-! PROOFS. The scheduler's statements (40_scheduler.md): the order of the entry points in P3 (R116), the due set
(R111), the counter of a tick (R113, R114, R118), and the ticks of frames (R119 to R122). -/

namespace Sys2Proof.Machine

/-! ### What entry points read of the rest of the state -/

section frameReads
variable {s t : State} (h : PerformFrame s t)
include h

theorem PerformFrame.tickNat : t.tickNat = s.tickNat := by simp only [State.tickNat, h.clock]

theorem PerformFrame.channelDue (c : Channel) : channelDue t c = channelDue s c := by
  simp only [Machine.channelDue, h.cfg, h.tickNat]

theorem PerformFrame.enabled (c : Channel) : enabled t c = enabled s c := by
  simp only [Machine.enabled, h.cfg, h.dmaEnable]

theorem PerformFrame.cpuCandidate : cpuCandidate t = cpuCandidate s := by
  simp only [Machine.cpuCandidate, h.cfg, h.tickNat, h.stalled, h.inp]

theorem PerformFrame.takesWish {c : Channel} (hd : dmaState t.blk.arb c = dmaState s.blk.arb c) :
    takesWish t c = takesWish s c := by
  simp only [Machine.takesWish, wantsFetch, hd, h.channelDue, h.enabled, h.inp]

end frameReads

/-! ### Writes to the part of one kind of component -/

/-- A write to the part of the state that belongs to one kind of component: no write, the CPU's answer, a channel's
fetch state, the copper's registers. An entry point that does not own the tick does nothing else. -/
inductive PartWrite where
  | keep (k : ComponentKind)
  | answer (a : CpuAnswer)
  | fetch (c : Channel) (d : DmaState)
  | registers (x : Cop)

/-- The kind of component to whose part the write goes. -/
def PartWrite.kind : PartWrite → ComponentKind
  | .keep k => k
  | .answer _ => .cpu
  | .fetch c _ => .channel c
  | .registers _ => .channel .copper

/-- The state after the write. -/
def PartWrite.apply (s : State) : PartWrite → State
  | .keep _ => s
  | .answer a => s.setAnswer a
  | .fetch c d => s.setArb (setDma s.blk.arb c d)
  | .registers x => s.setCop x

theorem PartWrite.apply_frame (w : PartWrite) (s : State) : PerformFrame s (w.apply s) := by
  cases w <;> constructor <;> rfl

/-- Writes to the fetch states of two channels commute. -/
theorem setDma_comm (a : Arb) {c c' : Channel} (d d' : DmaState) (h : c ≠ c') :
    setDma (setDma a c d) c' d' = setDma (setDma a c' d') c d := by
  simp only [setDma, List.map_map, Arb.mk.injEq, and_true]
  refine List.map_congr_left fun e _ => ?_
  by_cases he : e.1 = c
  · simp [he, h]
  · by_cases he' : e.1 = c' <;> simp [he, he', h.symm]

/-- Writes to the parts of two kinds commute. -/
theorem PartWrite.apply_comm {v w : PartWrite} (h : v.kind ≠ w.kind) (s : State) :
    v.apply (w.apply s) = w.apply (v.apply s) := by
  cases v with
  | keep _ => rfl
  | answer a =>
    cases w with
    | answer _ => exact absurd rfl h
    | keep _ | fetch _ _ | registers _ => rfl
  | fetch c d =>
    cases w with
    | fetch c' d' =>
      have hc : c' ≠ c := fun e => h (by rw [e]; rfl)
      exact congrArg s.setArb (setDma_comm s.blk.arb d' d hc)
    | keep _ | answer _ | registers _ => rfl
  | registers x =>
    cases w with
    | registers _ => exact absurd rfl h
    | keep _ | answer _ | fetch _ _ => rfl

/-- A write to another channel's part leaves this channel's fetch state. -/
theorem PartWrite.apply_dmaState {w : PartWrite} {c : Channel} (h : w.kind ≠ .channel c) (s : State) :
    dmaState (w.apply s).blk.arb c = dmaState s.blk.arb c := by
  cases w with
  | fetch c' d => exact dmaState_setDma_other _ _ fun e => h (by rw [e]; rfl)
  | keep _ | answer _ | registers _ => rfl

/-- What a write makes of the arbiter's record depends on that record alone. -/
theorem PartWrite.apply_arb_congr (w : PartWrite) {s u : State} (h : u.blk.arb = s.blk.arb) :
    (w.apply u).blk.arb = (w.apply s).blk.arb := by
  cases w with
  | fetch c d => exact congrArg (setDma · c d) h
  | keep _ | answer _ | registers _ => exact h

/-- A write to another part leaves the copper's registers. -/
theorem PartWrite.apply_cop {w : PartWrite} (h : w.kind ≠ .channel .copper) (s : State) :
    (w.apply s).blk.cop = s.blk.cop := by
  cases w with
  | registers x => exact absurd rfl h
  | keep _ | answer _ | fetch _ _ => rfl

/-! ### The bus reads and writes no component's part -/

section busParts
variable (w : PartWrite) (s : State)

@[simp] theorem PartWrite.apply_cfg : (w.apply s).cfg = s.cfg := (w.apply_frame s).cfg
@[simp] theorem PartWrite.apply_inp : (w.apply s).now.inp = s.now.inp := (w.apply_frame s).inp
@[simp] theorem PartWrite.apply_owner : (w.apply s).now.owner = s.now.owner := (w.apply_frame s).owner
@[simp] theorem PartWrite.apply_mem : (w.apply s).mem = s.mem := by cases w <;> rfl

@[simp] theorem PartWrite.setTxn_apply (q : SlotOwner) (d : Bool) (op : BusOp) (e : Bool) (v : BusValue) :
    (w.apply s).setTxn q d op e v = w.apply (s.setTxn q d op e v) := by cases w <;> rfl

@[simp] theorem PartWrite.memRead_apply (inMem : BusValue) (a : Nat) (x : Width) :
    memRead (w.apply s) inMem a x = memRead s inMem a x := by cases w <;> rfl

@[simp] theorem PartWrite.memWrite_apply (a : Nat) (x : Width) (v : BusValue) :
    memWrite (w.apply s) a x v = w.apply (memWrite s a x v) := by
  unfold memWrite
  rw [w.apply_cfg]
  split <;> cases w <;> rfl

@[simp] theorem PartWrite.dmaReadValue_apply (a : Nat) (x : Width) :
    dmaReadValue (w.apply s) a x = dmaReadValue s a x := by simp [dmaReadValue]

@[simp] theorem PartWrite.dmaRead_apply (c : Channel) (a : Nat) (x : Width) :
    dmaRead (w.apply s) c a x = w.apply (dmaRead s c a x) := by simp [dmaRead]

@[simp] theorem PartWrite.dmaWrite_apply (c : Channel) (a : Nat) (x : Width) (v : BusValue) :
    dmaWrite (w.apply s) c a x v = w.apply (dmaWrite s c a x v) := by
  unfold dmaWrite
  rw [w.apply_cfg]
  split <;> simp

@[simp] theorem PartWrite.dmaTransfer_apply (c : Channel) (op : BusOp) :
    dmaTransfer (w.apply s) c op = w.apply (dmaTransfer s c op) := by
  unfold dmaTransfer
  split <;> simp

end busParts

/-! ### One step after the other -/

/-- The second step runs on what the first answers; a fault or a refusal stays. -/
def andThen (o : Host.Outcome State Fault Refusal) (f : State → Host.Outcome State Fault Refusal) :
    Host.Outcome State Fault Refusal :=
  match o with
  | .next t => f t
  | .fault r => .fault r
  | .refused r => .refused r

@[simp] theorem andThen_next (t : State) (f : State → Host.Outcome State Fault Refusal) :
    andThen (.next t) f = f t := rfl

theorem andThen_next_right (o : Host.Outcome State Fault Refusal) : andThen o .next = o := by cases o <;> rfl

theorem andThen_assoc (o : Host.Outcome State Fault Refusal) (f g : State → Host.Outcome State Fault Refusal) :
    andThen (andThen o f) g = andThen o (fun t => andThen (f t) g) := by cases o <;> rfl

theorem andThen_congr {o : Host.Outcome State Fault Refusal} {f g : State → Host.Outcome State Fault Refusal}
    (h : ∀ t, o = .next t → f t = g t) : andThen o f = andThen o g := by
  cases o with
  | next t => exact h t rfl
  | fault r | refused r => rfl

theorem runEntries_cons (c : Component) (cs : List Component) (s : State) :
    runEntries (c :: cs) s = andThen (runEntry c s) (runEntries cs) := by
  rw [runEntries]
  cases runEntry c s <;> rfl

section entryOfKind
variable {c : Component}

theorem runEntry_cpu (h : c.kind = .cpu) (s : State) : runEntry c s = .next (cpuStep s) := by simp only [runEntry, h]

theorem runEntry_copper (h : c.kind = .channel .copper) (s : State) : runEntry c s = copperStep s := by
  simp only [runEntry, h]

theorem runEntry_channel {ch : Channel} (h : c.kind = .channel ch) (hne : ch ≠ .copper) (s : State) :
    runEntry c s = .next (channelStep ch s) := by
  unfold runEntry
  rw [h]
  cases ch with
  | copper => exact absurd rfl hne
  | bitplane _ | blitter | disk | audio | sprite _ => rfl

end entryOfKind

theorem runEntry_frame {c : Component} {s t : State} (h : runEntry c s = .next t) : PerformFrame s t := by
  rcases runEntry_cases c s with ⟨u, he, hf, -⟩ | ⟨-, he, -⟩
  · rw [he] at h; cases h; exact hf
  · rw [he] at h; cases h

/-! ### A step does not see a write to another kind's part -/

theorem cpuAccess_apply {w : PartWrite} (h : w.kind ≠ .cpu) (s : State) (op : BusOp) :
    cpuAccess (w.apply s) op = w.apply (cpuAccess s op) := by
  have hcomm (a : CpuAnswer) (u : State) : (w.apply u).setAnswer a = w.apply (u.setAnswer a) :=
    PartWrite.apply_comm (v := .answer a) (Ne.symm h) u
  unfold cpuAccess
  split <;> simp [hcomm]

theorem raiseBusError_apply {w : PartWrite} (h : w.kind ≠ .cpu) (s : State) (op : BusOp) :
    raiseBusError (w.apply s) op = w.apply (raiseBusError s op) := by
  cases w with
  | answer _ => exact absurd rfl h
  | keep _ | fetch _ _ | registers _ => rfl

theorem cpuStep_apply {w : PartWrite} (h : w.kind ≠ .cpu) (s : State) :
    cpuStep (w.apply s) = w.apply (cpuStep s) := by
  unfold cpuStep
  rw [w.apply_inp]
  split
  · rfl
  · next op _ =>
    rw [(w.apply_frame s).cpuCandidate, w.apply_owner, w.apply_cfg]
    split
    · rfl
    · split
      · split
        · exact raiseBusError_apply h s op
        · exact cpuAccess_apply h s op
      · exact PartWrite.apply_comm (v := .answer _) (Ne.symm h) s

theorem channelStep_apply {w : PartWrite} {c : Channel} (h : w.kind ≠ .channel c) (s : State) :
    channelStep c (w.apply s) = w.apply (channelStep c s) := by
  have hcomm (d : DmaState) {u : State} (hu : u.blk.arb = s.blk.arb) :
      (w.apply u).setArb (setDma (w.apply s).blk.arb c d) = w.apply (u.setArb (setDma s.blk.arb c d)) := by
    rw [← hu, ← w.apply_arb_congr hu]
    exact PartWrite.apply_comm (v := .fetch c d) (Ne.symm h) u
  unfold channelStep
  rw [w.apply_cfg, w.apply_owner, w.apply_inp, (w.apply_frame s).takesWish (w.apply_dmaState h s),
    w.apply_dmaState h s]
  split
  · rfl
  · split
    · rw [w.dmaTransfer_apply]
      exact hcomm _ (by rw [dmaTransfer_blk])
    · split
      · exact hcomm _ rfl
      · rfl

section copperApply
variable {w : PartWrite} (h : w.kind ≠ .channel .copper) (s : State)
include h

theorem setCop_apply (x : Cop) : (w.apply s).setCop x = w.apply (s.setCop x) :=
  PartWrite.apply_comm (v := .registers x) (Ne.symm h) s

theorem setCopState_apply (x : CopState) : (w.apply s).setCopState x = w.apply (s.setCopState x) := by
  simp only [State.setCopState, w.apply_cop h, setCop_apply h]

theorem setBlocked_apply (x : Bool) : (w.apply s).setBlocked x = w.apply (s.setBlocked x) := by
  simp only [State.setBlocked, w.apply_cop h, setCop_apply h]

theorem setCopPc_apply (x : Nat) : (w.apply s).setCopPc x = w.apply (s.setCopPc x) := by
  simp only [State.setCopPc, w.apply_cop h, setCop_apply h]

theorem listAddr_apply : listAddr (w.apply s) = listAddr s := by simp only [listAddr, w.apply_cfg, w.apply_cop h]

theorem pcPlus_apply (n : Nat) : pcPlus (w.apply s) n = pcPlus s n := by
  simp only [pcPlus, w.apply_cfg, w.apply_cop h]

theorem instrPc_apply : instrPc (w.apply s) = instrPc s := by simp only [instrPc, w.apply_cfg, w.apply_cop h]

theorem exec_apply (i : Instr) : exec i (w.apply s) = andThen (exec i s) (fun t => .next (w.apply t)) := by
  cases i with
  | move ra data =>
    simp only [exec, execMove, w.apply_cfg]
    split <;> simp [setCopState_apply h, setBlocked_apply h]
  | wait vp hp ve he bfd =>
    simp only [exec, execWait, w.apply_inp]
    split <;> simp [setCopState_apply h, setBlocked_apply h]
  | skip vp hp ve he bfd =>
    simp only [exec, execSkip, w.apply_inp]
    split <;> simp [setCopState_apply h, setCopPc_apply h, pcPlus_apply h]

theorem fetchFirst_apply : fetchFirst (w.apply s) = w.apply (fetchFirst s) := by
  simp [fetchFirst, listAddr_apply h, pcPlus_apply h, w.apply_cop h, setCop_apply h]

theorem fetchSecond_apply : fetchSecond (w.apply s) = andThen (fetchSecond s) (fun t => .next (w.apply t)) := by
  simp only [fetchSecond, listAddr_apply h, pcPlus_apply h, w.apply_cop h, instrPc_apply h, w.dmaReadValue_apply]
  split
  · simp [setCop_apply h]
  · rfl

theorem copperOwned_apply : copperOwned (w.apply s) = andThen (copperOwned s) (fun t => .next (w.apply t)) := by
  unfold copperOwned
  rw [w.apply_cop h]
  split
  · rfl
  · exact congrArg _ (fetchFirst_apply h s)
  · exact fetchSecond_apply h s
  all_goals
    split
    · exact exec_apply h s _
    · rfl

theorem poll_apply : poll (w.apply s) = w.apply (poll s) := by
  simp only [poll, w.apply_cop h, w.apply_inp]
  split
  · exact setCop_apply h s _
  · rfl

theorem copperStep_apply : copperStep (w.apply s) = andThen (copperStep s) (fun t => .next (w.apply t)) := by
  have hf := w.apply_frame s
  unfold copperStep
  rw [w.apply_cfg, hf.channelDue, hf.enabled, w.apply_owner, w.apply_cop h]
  split
  · rfl
  · split
    · exact copperOwned_apply h s
    · split
      · exact congrArg _ (setCopState_apply h s _)
      · split
        · exact congrArg _ (poll_apply h s)
        · rfl

end copperApply

/-- A write to the part of another kind may come before an entry point or after it. -/
theorem runEntry_apply {c : Component} {w : PartWrite} (h : w.kind ≠ c.kind) (s : State) :
    runEntry c (w.apply s) = andThen (runEntry c s) (fun t => .next (w.apply t)) := by
  cases hk : c.kind with
  | cpu => simp only [runEntry_cpu hk, cpuStep_apply (hk ▸ h), andThen_next]
  | channel ch =>
    rw [hk] at h
    by_cases hc : ch = .copper
    · subst hc
      simp only [runEntry_copper hk, copperStep_apply h]
    · simp only [runEntry_channel hk hc, channelStep_apply h, andThen_next]
  | timer | collaborator => simp only [runEntry, hk, andThen_next]

/-! ### Without the tick a step writes its own part only -/

theorem cpuStep_without_tick {s : State} (ho : s.now.owner ≠ .cpu) :
    ∃ w : PartWrite, w.kind = .cpu ∧ ∀ t, PerformFrame s t → cpuStep t = w.apply t := by
  cases hreq : s.now.inp.cpuReq with
  | none => exact ⟨.keep .cpu, rfl, fun t hf => by simp only [cpuStep, hf.inp, hreq, PartWrite.apply]⟩
  | some op =>
    cases hc : cpuCandidate s with
    | false =>
      exact ⟨.keep .cpu, rfl, fun t hf => by
        simp [cpuStep, hf.inp, hreq, hf.cpuCandidate, hc, PartWrite.apply]⟩
    | true =>
      exact ⟨.answer ⟨none, contentionCost s.cfg s.now.owner, false, none⟩, rfl, fun t hf => by
        simp [cpuStep, hf.inp, hreq, hf.cpuCandidate, hc, hf.owner, hf.cfg, ho, PartWrite.apply]⟩

theorem channelStep_without_tick {c : Channel} {s : State} (ho : s.now.owner ≠ .channel c) :
    ∃ w : PartWrite, w.kind = .channel c ∧ ∀ t, PerformFrame s t →
      dmaState t.blk.arb c = dmaState s.blk.arb c → channelStep c t = w.apply t := by
  cases hw : channelExists s.cfg c && takesWish s c with
  | true =>
    rw [Bool.and_eq_true] at hw
    exact ⟨.fetch c .requesting, rfl, fun t hf hd => by
      simp [channelStep, hf.cfg, hf.owner, hf.takesWish hd, ho, hw, PartWrite.apply]⟩
  | false =>
    rw [Bool.and_eq_false_iff] at hw
    exact ⟨.keep (.channel c), rfl, fun t hf hd => by
      rcases hw with hw | hw <;> simp [channelStep, hf.cfg, hf.owner, hf.takesWish hd, ho, hw, PartWrite.apply]⟩

/-- The copper's registers after a step that does not own the tick (R192, R194, R204, R207). -/
def copWithoutTick (s : State) : Cop :=
  if !hasCopper s.cfg || !channelDue s .copper || !enabled s .copper then s.blk.cop
  else if s.blk.cop.state = .idle then { s.blk.cop with state := .fetch0 }
  else if s.blk.cop.blocked && s.blk.cop.state == .executeWait then
    if waitHolds s.blk.cop.wait s.now.inp then { s.blk.cop with blocked := false, state := .fetch0 } else s.blk.cop
  else s.blk.cop

theorem copperStep_eq_copWithoutTick {s : State} (ho : s.now.owner ≠ .channel .copper) :
    copperStep s = .next (s.setCop (copWithoutTick s)) := by
  unfold copperStep copWithoutTick poll
  rw [if_neg ho]
  repeat' split
  all_goals rfl

theorem copperStep_without_tick {s : State} (ho : s.now.owner ≠ .channel .copper) :
    ∃ w : PartWrite, w.kind = .channel .copper ∧ ∀ t, PerformFrame s t → t.blk.cop = s.blk.cop →
      copperStep t = .next (w.apply t) := by
  refine ⟨.registers (copWithoutTick s), rfl, fun t hf hc => ?_⟩
  have hreads : copWithoutTick t = copWithoutTick s := by
    simp only [copWithoutTick, hc, hf.cfg, hf.inp, hf.channelDue, hf.enabled]
  rw [copperStep_eq_copWithoutTick (hf.owner ▸ ho), hreads, PartWrite.apply]

/-- A step that does not own the tick is one write to its own part, and the same write wherever it comes among the
steps of other kinds (R140, R116). -/
theorem runEntry_without_tick {c : Component} (hk : c.kind = .cpu ∨ ∃ ch, c.kind = .channel ch) {s : State}
    (ho : s.now.owner ≠ ownerOfKind c.kind) :
    ∃ w : PartWrite, w.kind = c.kind ∧ ∀ t, PerformFrame s t → OwnPartKept c.kind s t →
      runEntry c t = .next (w.apply t) := by
  rcases hk with hk | ⟨ch, hk⟩ <;> rw [hk] at ho ⊢
  · obtain ⟨w, hw, hstep⟩ := cpuStep_without_tick ho
    exact ⟨w, hw, fun t hf _ => by rw [runEntry_cpu hk, hstep t hf]⟩
  · by_cases hc : ch = .copper
    · subst hc
      obtain ⟨w, hw, hstep⟩ := copperStep_without_tick ho
      exact ⟨w, hw, fun t hf hp => by rw [runEntry_copper hk, hstep t hf (by simpa [OwnPartKept] using hp)]⟩
    · obtain ⟨w, hw, hstep⟩ := channelStep_without_tick ho
      exact ⟨w, hw, fun t hf hp => by
        rw [runEntry_channel hk hc, hstep t hf (by simpa [OwnPartKept, hc] using hp)]⟩

/-! ### Two steps commute (R116) -/

/-- The component's step writes a part of the state, as the CPU's and a channel's do; timers and collaborators act
outside the block. -/
def hasPart (c : Component) : Prop := c.kind = .cpu ∨ ∃ ch, c.kind = .channel ch

theorem runEntry_of_not_hasPart {c : Component} (h : ¬ hasPart c) : runEntry c = .next := by
  funext s
  cases hk : c.kind with
  | cpu => exact absurd (.inl hk) h
  | channel ch => exact absurd (.inr ⟨ch, hk⟩) h
  | timer | collaborator => simp only [runEntry, hk]

theorem runEntry_comm_without_tick {a b : Component} (ha : hasPart a) (hne : a.kind ≠ b.kind) {s : State}
    (ho : s.now.owner ≠ ownerOfKind a.kind) :
    andThen (runEntry a s) (runEntry b) = andThen (runEntry b s) (runEntry a) := by
  obtain ⟨w, hw, hstep⟩ := runEntry_without_tick ha ho
  calc andThen (runEntry a s) (runEntry b)
    _ = runEntry b (w.apply s) := by rw [hstep s (.refl s) (.refl _ s), andThen_next]
    _ = andThen (runEntry b s) (fun t => .next (w.apply t)) := runEntry_apply (hw ▸ hne) s
    _ = andThen (runEntry b s) (runEntry a) := andThen_congr fun t ht =>
      (hstep t (runEntry_frame ht) (runEntry_other hne.symm ha ht).1).symm

theorem ownerOfKind_inj {a b : Component} (ha : hasPart a) (hb : hasPart b)
    (h : ownerOfKind a.kind = ownerOfKind b.kind) : a.kind = b.kind := by
  rcases ha with ha | ⟨c, ha⟩ <;> rcases hb with hb | ⟨d, hb⟩ <;> rw [ha, hb] at h ⊢
  · cases h
  · cases h
  · cases h; rfl

/-- Entry points of two kinds commute, because at most one of the two owns the tick; one that writes no part commutes
with every other. -/
theorem runEntry_comm {a b : Component} (h : hasPart a → a.kind ≠ b.kind) (s : State) :
    andThen (runEntry a s) (runEntry b) = andThen (runEntry b s) (runEntry a) := by
  by_cases ha : hasPart a
  · by_cases hb : hasPart b
    · by_cases ho : s.now.owner = ownerOfKind a.kind
      · have hob : s.now.owner ≠ ownerOfKind b.kind := fun e => h ha (ownerOfKind_inj ha hb (ho.symm.trans e))
        exact (runEntry_comm_without_tick hb (h ha).symm hob).symm
      · exact runEntry_comm_without_tick ha (h ha) ho
    · rw [runEntry_of_not_hasPart hb, andThen_next, andThen_next_right]
  · rw [runEntry_of_not_hasPart ha, andThen_next, andThen_next_right]

/-! ### Any order of the components -/

/-- At most one component is the CPU and at most one is each channel. -/
def OneOfEach (cs : List Component) : Prop := ∀ a, hasPart a → (cs.filter (fun c => c.kind = a.kind)).length ≤ 1

theorem OneOfEach.tail {c : Component} {cs : List Component} (h : OneOfEach (c :: cs)) : OneOfEach cs :=
  fun a ha => ((List.sublist_cons_self c cs).filter _).length_le.trans (h a ha)

theorem OneOfEach.perm {cs ds : List Component} (h : OneOfEach cs) (hp : cs.Perm ds) : OneOfEach ds :=
  fun a ha => (hp.filter _).length_eq ▸ h a ha

theorem OneOfEach.kind_ne {a b : Component} {cs : List Component} (h : OneOfEach (a :: b :: cs)) (ha : hasPart a) :
    a.kind ≠ b.kind := by
  intro he
  have := h a ha
  simp [he] at this

/-- P3 answers the same for every order of its components (R116). -/
theorem runEntries_perm {cs ds : List Component} (hp : cs.Perm ds) (h : OneOfEach cs) (s : State) :
    runEntries cs s = runEntries ds s := by
  induction hp generalizing s with
  | nil => rfl
  | cons c _ ih =>
    rw [runEntries_cons, runEntries_cons]
    exact andThen_congr fun t _ => ih h.tail t
  | swap b a cs =>
    have hcons (c d : Component) : runEntries (c :: d :: cs) s =
        andThen (andThen (runEntry c s) (runEntry d)) (runEntries cs) := by
      rw [runEntries_cons, andThen_assoc]
      exact andThen_congr fun t _ => runEntries_cons d cs t
    rw [hcons, hcons, runEntry_comm h.kind_ne]
  | trans hp _ ih₁ ih₂ => rw [ih₁ h, ih₂ (h.perm hp)]

/-! ### Ticks and the counter -/

/-- P0 lets no step of a stuck block start (R114). -/
theorem no_step_of_isStuck {s : State} (h : isStuck s = true) (t : State) : step s ≠ .next t := by
  obtain ⟨o, ho⟩ := Option.isSome_iff_exists.mp h
  rcases step_cases s with ⟨-, -, -, hn⟩ | ⟨h0, -⟩ | ⟨h0, -⟩ | ⟨h0, -⟩
  · exact hn t
  all_goals rw [ho] at h0; cases h0

/-- The host's tick is the step where there is one (R262). -/
theorem hostTick_of_step {s t : State} (h : step s = .next t) : hostTick s = t := by
  unfold step at h
  rw [hostTick, h]

/-- The host's tick of a stuck block changes nothing (R262). -/
theorem hostTick_of_isStuck {s : State} (h : isStuck s = true) : hostTick s = s := by
  unfold hostTick
  split
  · next t ht => exact absurd ht (no_step_of_isStuck h t)
  · rfl

theorem hasStopped_iff (s : State) : hasStopped s = true ↔ s.blk.fault ≠ none ∨ s.blk.refused ≠ none := by
  simp [hasStopped, Option.isSome_iff_ne_none]

/-- A block that has stopped is stuck (R285, R287). -/
theorem isStuck_of_hasStopped {s : State} (h : hasStopped s = true) : isStuck s = true := (isStuck_iff s).mpr (.inl h)

theorem hasStopped_of_not_isStuck {s : State} (h : isStuck s = false) : hasStopped s = false := by
  cases hs : hasStopped s with
  | false => rfl
  | true => rw [isStuck_of_hasStopped hs] at h; cases h

/-- A reset keeps both sticky records (R310). -/
theorem hasStopped_hostReset (s : State) : hasStopped (hostReset s) = hasStopped s := rfl

/-- A whole tick is one that P0 lets start and that leaves no sticky record. -/
theorem wholeTick_hostTick {s t : State} (h : wholeTick s t) :
    isStuck s = false ∧ hostTick s = t ∧ hasStopped t = false := by
  obtain ⟨hstep, hf, hr⟩ := h
  refine ⟨?_, hostTick_of_step hstep, by simp [hasStopped, hf, hr]⟩
  cases hs : isStuck s with
  | false => rfl
  | true => exact absurd hstep (no_step_of_isStuck hs t)

/-! ### The length of frames (R120, R122) -/

section frameLength
variable {cfg : Config} {acc : Nat}

theorem frameSum_add (cfg : Config) (acc : Nat) :
    frameSum cfg acc + cfg.fpsNum * (frameNum cfg / cfg.fpsNum) = acc + frameNum cfg := by
  rw [frameSum, Nat.add_assoc, Nat.mod_add_div]

/-- The ticks of a frame and the accumulator it leaves are quotient and remainder of `acc + N` by FPS_NUM. -/
theorem frameTicks_mul_add (cfg : Config) (acc : Nat) :
    cfg.fpsNum * frameTicks cfg acc + frameAccAfter cfg acc = acc + frameNum cfg := by
  have hsum := frameSum_add cfg acc
  unfold frameTicks frameAccAfter
  split <;> simp only [Nat.mul_add, Nat.mul_one, Nat.mul_zero, Nat.one_mul, Nat.zero_mul] <;> omega

/-- The accumulator stays a remainder (R43 invariant 1, R120). -/
theorem frameAccAfter_lt (hacc : acc < cfg.fpsNum) : frameAccAfter cfg acc < cfg.fpsNum := by
  have hmod : frameNum cfg % cfg.fpsNum < cfg.fpsNum := Nat.mod_lt _ (by omega)
  unfold frameAccAfter
  split <;> simp only [frameSum] at * <;> omega

/-- The ticks of `k` frames are the quotient of `acc + k * N` by FPS_NUM (R122). -/
theorem framesTicks_eq (k : Nat) (hacc : acc < cfg.fpsNum) :
    framesTicks cfg k acc = (acc + k * frameNum cfg) / cfg.fpsNum := by
  induction k generalizing acc with
  | zero => simp [framesTicks, Nat.div_eq_of_lt hacc]
  | succ k ih =>
    calc framesTicks cfg (k + 1) acc
      _ = frameTicks cfg acc + (frameAccAfter cfg acc + k * frameNum cfg) / cfg.fpsNum := by
        rw [framesTicks, ih (frameAccAfter_lt hacc)]
      _ = (cfg.fpsNum * frameTicks cfg acc + (frameAccAfter cfg acc + k * frameNum cfg)) / cfg.fpsNum := by
        rw [Nat.mul_add_div (by omega)]
      _ = (acc + (k + 1) * frameNum cfg) / cfg.fpsNum := by
        rw [← Nat.add_assoc, frameTicks_mul_add, Nat.add_assoc, Nat.succ_mul, Nat.add_comm (frameNum cfg)]

end frameLength

/-! ### Runs of ticks and frames (R119, R263) -/

/-- From `s` to `r` the counter has advanced by `n` ticks, or by one less when the last of them recorded a fatal error
or a refusal (R285, R287). -/
structure RanTicks (n : Nat) (s r : State) : Prop where
  cfg : r.cfg = s.cfg
  stays : hasStopped s = true → hasStopped r = true
  tick : r.blk.clock.tick.toNat + (if hasStopped r = true ∧ hasStopped s = false then 1 else 0) =
    s.blk.clock.tick.toNat + n

theorem RanTicks.refl (s : State) : RanTicks 0 s s := ⟨rfl, id, by simp⟩

theorem RanTicks.trans {m n : Nat} {s t r : State} (h : RanTicks m s t) (k : RanTicks n t r) :
    RanTicks (m + n) s r := by
  refine ⟨k.cfg.trans h.cfg, fun hs => k.stays (h.stays hs), ?_⟩
  have hst := h.tick
  have htr := k.tick
  cases hs : hasStopped s with
  | true =>
    have ht := h.stays hs
    simp only [hs, ht, k.stays ht, Bool.true_eq_false, and_false, if_false] at hst htr ⊢
    omega
  | false =>
    cases ht : hasStopped t with
    | true =>
      simp only [hs, ht, k.stays ht, Bool.true_eq_false, and_false, and_true, if_true, if_false] at hst htr ⊢
      omega
    | false =>
      simp only [hs, ht, Bool.false_eq_true, and_true, if_false] at hst htr ⊢
      omega

theorem ranTicks_hostTick {s : State} (h : isStuck s = false) : RanTicks 1 s (hostTick s) := by
  obtain ⟨hcfg, -, htick⟩ := hostTick_spec h
  have hs := hasStopped_of_not_isStuck h
  exact ⟨hcfg, fun h' => absurd h' (by simp [hs]), by simpa [hs] using htick⟩

theorem ranTicks_startFrame (s : State) : RanTicks 0 s (startFrame s) := ⟨rfl, id, (RanTicks.refl s).tick⟩

/-- `runTicks` ends early at a stuck block only (R119). -/
theorem isStuck_of_runTicks {n : Nat} {s : State} (h : (runTicks n s).finished = false) :
    isStuck (runTicks n s).state = true := by
  induction n generalizing s with
  | zero => cases h
  | succ n ih =>
    rw [runTicks] at h ⊢
    split at h
    · next hs => rw [if_pos hs]; exact hs
    · next hs => rw [if_neg hs]; exact ih h

/-- A normal return of `runTicks` has run its ticks; no tick writes the accumulator (R24). -/
theorem runTicks_finished {n : Nat} {s : State} (h : (runTicks n s).finished = true) :
    RanTicks n s (runTicks n s).state ∧ (runTicks n s).state.blk.clock.frameAcc = s.blk.clock.frameAcc := by
  induction n generalizing s with
  | zero => exact ⟨.refl s, rfl⟩
  | succ n ih =>
    rw [runTicks] at h ⊢
    split at h
    · cases h
    · next hs =>
      rw [if_neg hs]
      have hlive : isStuck s = false := (Bool.not_eq_true _).mp hs
      obtain ⟨hran, hacc⟩ := ih h
      exact ⟨Nat.add_comm 1 n ▸ (ranTicks_hostTick hlive).trans hran, hacc.trans (hostTick_spec hlive).2.1⟩

/-- One frame that returns normally: its ticks have run and its start has written the accumulator (R120). -/
theorem runOneFrame_finished {s : State} (h : (runOneFrame s).finished = true) :
    RanTicks (frameTicks s.cfg s.blk.clock.frameAcc) s (runOneFrame s).state ∧
    (runOneFrame s).state.blk.clock.frameAcc = frameAccAfter s.cfg s.blk.clock.frameAcc := by
  obtain ⟨hran, hacc⟩ := runTicks_finished h
  have htrans := (ranTicks_startFrame s).trans hran
  rw [Nat.zero_add] at htrans
  exact ⟨htrans, hacc⟩

/-- `runFrame` ends early at a stuck block only (R119, R263). -/
theorem isStuck_of_runFrame {n : Nat} {s : State} (h : (runFrame n s).finished = false) :
    isStuck (runFrame n s).state = true := by
  induction n generalizing s with
  | zero => cases h
  | succ n ih =>
    rw [runFrame] at h ⊢
    split at h
    · next hf => rw [if_pos hf]; exact ih h
    · next hf => rw [if_neg hf]; exact isStuck_of_runTicks h

/-- A normal return of `runFrame` has run the ticks of its frames, and the accumulator is a remainder again (R120). -/
theorem runFrame_finished {n : Nat} {s : State} (hacc : s.blk.clock.frameAcc < s.cfg.fpsNum)
    (h : (runFrame n s).finished = true) :
    RanTicks (framesTicks s.cfg n s.blk.clock.frameAcc) s (runFrame n s).state ∧
    (runFrame n s).state.blk.clock.frameAcc < s.cfg.fpsNum := by
  induction n generalizing s with
  | zero => exact ⟨.refl s, hacc⟩
  | succ n ih =>
    rw [runFrame] at h ⊢
    split at h
    · next hf =>
      rw [if_pos hf]
      obtain ⟨hran, hfirst⟩ := runOneFrame_finished hf
      have hlt : (runOneFrame s).state.blk.clock.frameAcc < (runOneFrame s).state.cfg.fpsNum := by
        rw [hfirst, hran.cfg]; exact frameAccAfter_lt hacc
      obtain ⟨hrest, hend⟩ := ih hlt h
      rw [hran.cfg] at hrest hend
      rw [hfirst] at hrest
      exact ⟨hran.trans hrest, hend⟩
    · next hf => exact absurd h hf

/-! ### The due set (R111, R112) -/

theorem mem_dueSet {cfg : Config} {t : Nat} {c : Component} :
    c ∈ dueSet cfg t ↔ c ∈ cfg.components ∧ t % c.divisor = c.phase := by
  simp [dueSet, isDue]

end Sys2Proof.Machine

namespace Sys2Proof.Proofs

open Sys2Proof.Machine

/-- Settles O46: two steps of different components commute, because at most one of them owns the tick and the other
writes only a part of the state that the first does not read; so every exchange of neighbours keeps P3's answer. -/
theorem entryPointOrderIsUnobservable : Obligations.EntryPointOrderIsUnobservable := by
  intro cs ds s hp hcpu hchan
  refine runEntries_perm hp (fun a ha => ?_) s
  rcases ha with ha | ⟨ch, ha⟩
  · simpa only [ha] using hcpu
  · simpa only [ha] using hchan ch

/-- Settles O47: a frame takes the quotient of the accumulator plus N by FPS_NUM and leaves the remainder, so K frames
take the quotient of K * N, and a quotient is less than 1 below its fraction. -/
theorem framesTakeTheRationalTickCount : Obligations.FramesTakeTheRationalTickCount := by
  intro cfg k hpos
  have hticks : framesTicks cfg k 0 = k * frameNum cfg / cfg.fpsNum := by rw [framesTicks_eq k hpos, Nat.zero_add]
  rw [hticks]
  exact ⟨rfl, Nat.div_mul_le_self _ _, Nat.lt_mul_of_div_lt (Nat.lt_succ_self _) hpos⟩

/-- Settles O48, by the ticks of each frame in turn: a tick that P0 lets start advances the counter or is discarded and
leaves the block stopped. -/
theorem runFrameRunsItsTicks : Obligations.RunFrameRunsItsTicks := by
  intro n s _ hacc
  refine ⟨isStuck_of_runFrame, fun h => ?_⟩
  obtain ⟨hran, hend⟩ := runFrame_finished hacc h
  exact ⟨hran.tick, hend, hran.cfg⟩

/-- Settles O41: the due set is the filter by the phase test, and the toy machine's 16 ticks are evaluated. -/
theorem dueSetIsThePhaseTest : Obligations.DueSetIsThePhaseTest :=
  ⟨fun _ _ _ => mem_dueSet, by decide⟩

/-- Settles O42: a tick that P0 lets start advances the counter by 1 unless it leaves the block stopped. -/
theorem tickAdvancesTheCounterByOne : Obligations.TickAdvancesTheCounterByOne := by
  intro s t h
  obtain ⟨hlive, rfl, hrun⟩ := wholeTick_hostTick h
  obtain ⟨hcfg, hacc, htick⟩ := hostTick_spec hlive
  exact ⟨by simpa [hrun] using htick, hacc, hcfg⟩

/-- Settles O43: at the top of the counter and with a sticky record P0 lets no step start, and reset keeps the
records. -/
theorem stuckBlocksTakeNoStep : Obligations.StuckBlocksTakeNoStep := by
  intro s
  refine ⟨fun htop => no_step_of_isStuck ((isStuck_iff s).mpr (.inr (BitVec.eq_of_toNat_eq htop))), fun h => ?_⟩
  have hstop : hasStopped s = true := (hasStopped_iff s).mpr h
  exact ⟨no_step_of_hasStopped hstop, hostTick_of_isStuck (isStuck_of_hasStopped hstop), rfl, rfl,
    no_step_of_hasStopped ((hasStopped_hostReset s).trans hstop)⟩

end Sys2Proof.Proofs
end

section
/-! PROOFS. The arbiter's statements (41_arbiter.md): what each answer of the ladder means (R141, R144, R145), that only
the owner uses the bus (R140), what a channel does with and without the tick (R146 to R150), and the DMAEN commit
(R156). -/

namespace Sys2Proof.Machine

/-! ### The ladder's answers (R141, R145) -/

/-- The ladder's answers in terms of its rungs (R141): refresh stands above all, then the mid-fetch rung, then the
requesting rung, and with both rungs empty the CPU's candidacy decides. -/
theorem ladder_answers (s : State) :
    (ladder s = .refresh ↔ refreshDue s.cfg s.tickNat = true) ∧
    (∀ c, ladder s = .channel c ↔ refreshDue s.cfg s.tickNat = false ∧
      (rungMidFetch s = some c ∨ rungMidFetch s = none ∧ rungRequesting s = some c)) ∧
    (ladder s = .cpu ↔ refreshDue s.cfg s.tickNat = false ∧
      (rungMidFetch s = none ∧ rungRequesting s = none) ∧ cpuCandidate s = true) ∧
    (ladder s = .noOwner ↔ refreshDue s.cfg s.tickNat = false ∧
      (rungMidFetch s = none ∧ rungRequesting s = none) ∧ cpuCandidate s = false) := by
  unfold ladder
  cases refreshDue s.cfg s.tickNat with
  | true => simp
  | false =>
    cases rungMidFetch s with
    | some c => simp
    | none =>
      cases rungRequesting s with
      | some c => simp
      | none => cases cpuCandidate s <;> simp

/-- A rung answers the first channel of CHANNEL_ORDER that passes its test (R145). -/
theorem find?_channel_iff {p : Channel → Bool} {order : List Channel} {c : Channel} : order.find? p = some c ↔
    ∃ pre post, order = pre ++ c :: post ∧ p c = true ∧ ∀ d ∈ pre, p d = false := by
  rw [List.find?_eq_some_iff_append]
  constructor
  · rintro ⟨hc, pre, post, he, hp⟩
    exact ⟨pre, post, he, hc, by simpa using hp⟩
  · rintro ⟨pre, post, he, hc, hp⟩
    exact ⟨hc, pre, post, he, by simpa using hp⟩

/-- Both channel rungs are empty when every channel fails both tests. -/
theorem rungs_empty_iff {s : State} : (rungMidFetch s = none ∧ rungRequesting s = none) ↔
    ∀ d ∈ s.cfg.channelOrder, (eligible s d && midFetch s d) = false ∧ (eligible s d && requesting s d) = false := by
  simp only [rungMidFetch, rungRequesting, List.find?_eq_none, Bool.not_eq_true]
  exact forall₂_and.symm

/-! ### Only the owner uses the bus (R140, R142) -/

/-- A write to a component's part is none to the bus. -/
theorem PartWrite.apply_bus (w : PartWrite) (s : State) : BusUntouched s (w.apply s) := by
  cases w <;> exact ⟨rfl, rfl, rfl⟩

/-- An entry point leaves the bus alone unless its component owns the tick. -/
theorem runEntry_bus_without_tick {c : Component} {s t : State} (ho : hasPart c → s.now.owner ≠ ownerOfKind c.kind)
    (h : runEntry c s = .next t) : BusUntouched s t := by
  by_cases hp : hasPart c
  · obtain ⟨w, -, hstep⟩ := runEntry_without_tick hp (ho hp)
    rw [hstep s (.refl s) (.refl _ s)] at h
    cases h
    exact w.apply_bus s
  · rw [runEntry_of_not_hasPart hp] at h
    cases h
    exact .refl s

/-- The CPU and the channels are no refresh and not nobody. -/
theorem ownerOfKind_ne_of_hasPart {c : Component} (hp : hasPart c) :
    ownerOfKind c.kind ≠ .refresh ∧ ownerOfKind c.kind ≠ .noOwner := by
  rcases hp with hk | ⟨ch, hk⟩ <;> simp [ownerOfKind, hk]

/-- In a tick of refresh or of nobody, P3 leaves the bus alone (R142, R151). -/
theorem runEntries_bus_unowned {cs : List Component} {s t : State}
    (ho : s.now.owner = .refresh ∨ s.now.owner = .noOwner) (h : runEntries cs s = .next t) : BusUntouched s t := by
  induction cs generalizing s with
  | nil => cases h; exact .refl _
  | cons c cs ih =>
    obtain ⟨u, hu, hrest⟩ := runEntries_next_cons h
    have hbus : BusUntouched s u := by
      refine runEntry_bus_without_tick (fun hp => ?_) hu
      obtain ⟨hrefresh, hnobody⟩ := ownerOfKind_ne_of_hasPart hp
      rcases ho with ho | ho <;> rw [ho]
      · exact hrefresh.symm
      · exact hnobody.symm
    exact hbus.trans (ih ((runEntry_frame hu).owner ▸ ho) hrest)

/-- P4 to P6 leave the tick's ephemeral values. -/
@[simp] theorem finish_now (s : State) : (finish s).now = s.now := rfl

/-- A list of different owners holds the owner of the tick at most once (R140). -/
theorem countActiveOwners_le_one (s : State) {owners : List SlotOwner} (h : owners.Nodup) :
    countActiveOwners s owners ≤ 1 := by
  have hsub : owners.filter (fun o => o != .noOwner && o == s.now.owner) ⊆ [s.now.owner] := by
    intro o ho
    simp only [List.mem_filter, Bool.and_eq_true, beq_iff_eq] at ho
    exact List.mem_singleton.mpr ho.2.2
  exact (h.filter _).subperm hsub |>.length_le

/-! ### A whole tick by its P3 -/

/-- A whole tick ends what its P3 answers. -/
theorem wholeTick_perform {s t : State} (h : wholeTick s t) :
    ∃ u, perform (begin s) = .next u ∧ t = finish u ∧ PerformFrame (begin s) u ∧ TxnByOwner u := by
  obtain ⟨hstep, hfault, hrefused⟩ := h
  obtain ⟨u, hu, rfl, hf, -, ht, -, -⟩ := step_ran hstep hfault hrefused
  exact ⟨u, hu, rfl, hf, ht⟩

/-- What a channel must be to own a tick (R144). -/
theorem eligible_iff {s : State} {c : Channel} : eligible s c = true ↔
    channelExists s.cfg c = true ∧ enabled s c = true ∧ channelDue s c = true ∧
      slotWindow s.cfg c s.tickNat = true := by
  simp [eligible, and_assoc]

/-! ### A channel's step in its tick -/

/-- A step that comes after steps of components of other kinds might as well come first (R116). -/
theorem runEntries_first {c : Component} {pre : List Component} (post : List Component)
    (h : ∀ d ∈ pre, d.kind ≠ c.kind) (s : State) :
    runEntries (pre ++ c :: post) s = runEntries (c :: (pre ++ post)) s := by
  induction pre generalizing s with
  | nil => rfl
  | cons d pre ih =>
    obtain ⟨hd, hpre⟩ := List.forall_mem_cons.mp h
    calc runEntries (d :: pre ++ c :: post) s
      _ = andThen (runEntry d s) (runEntries (c :: (pre ++ post))) := by
        rw [List.cons_append, runEntries_cons]
        exact andThen_congr fun t _ => ih hpre t
      _ = andThen (andThen (runEntry d s) (runEntry c)) (runEntries (pre ++ post)) := by
        rw [andThen_assoc]
        exact andThen_congr fun t _ => runEntries_cons c _ t
      _ = andThen (andThen (runEntry c s) (runEntry d)) (runEntries (pre ++ post)) := by
        rw [runEntry_comm fun _ => hd]
      _ = runEntries (c :: (d :: pre ++ post)) s := by
        rw [andThen_assoc, runEntries_cons]
        exact andThen_congr fun t _ => (runEntries_cons d _ t).symm

/-- P3 answers as if the due channel's own step ran first: later steps keep its fetch state, and the bus when it owns
the tick. -/
theorem channelStep_of_tick {s u : State} {c : Channel} (V : ValidFacts s.cfg) (hc : c ∈ s.cfg.chans)
    (hne : c ≠ .copper) (hd : channelDue s c = true) (hu : perform (begin s) = .next u) :
    dmaState u.blk.arb c = dmaState (channelStep c (begin s)).blk.arb c ∧
      ((begin s).now.owner = .channel c → BusUntouched (channelStep c (begin s)) u) := by
  have hone := dueSet_one (k := .channel c) (V.registered c hc).le hd
  obtain ⟨pre, e, post, hdue, hk, hpre, hpost⟩ := split_at_kind hone
  have hrun : runEntries (e :: (pre ++ post)) (begin s) = .next u := by
    rw [← runEntries_first post (fun d hd => hk ▸ hpre d hd), ← hdue]
    exact hu
  rw [runEntries_cons, runEntry_channel hk hne, andThen_next] at hrun
  have hother : ∀ d ∈ pre ++ post, d.kind ≠ .channel c := fun d hd =>
    (List.mem_append.mp hd).elim (hpre d) (hpost d)
  obtain ⟨-, hkept, hbus⟩ := runEntries_other hother (.inr ⟨c, rfl⟩) hrun
  obtain ⟨hframe, -⟩ := channelStep_cases c (begin s)
  exact ⟨by simpa [OwnPartKept, hne] using hkept, fun ho => hbus (hframe.owner.trans ho)⟩

/-- A channel that is not due keeps its fetch state through P3 (R111). -/
theorem dmaState_of_not_due {s u : State} {c : Channel} (V : ValidFacts s.cfg) (hc : c ∈ s.cfg.chans)
    (hne : c ≠ .copper) (hd : channelDue s c = false) (hu : perform (begin s) = .next u) :
    dmaState u.blk.arb c = dmaState s.blk.arb c := by
  have hnone := dueSet_none (k := .channel c) (V.registered c hc).le hd
  obtain ⟨-, hkept, -⟩ := runEntries_other hnone (.inr ⟨c, rfl⟩) hu
  simpa [OwnPartKept, hne] using hkept

theorem mem_dmaChans {cfg : Config} {c : Channel} : c ∈ cfg.dmaChans ↔ c ∈ cfg.chans ∧ c ≠ .copper := by
  simp [Config.dmaChans]

/-- On an owned tick a channel makes its transfer and moves one unit (R147). -/
theorem channelStep_owned {s : State} {c : Channel} (he : channelExists s.cfg c = true)
    (ho : s.now.owner = .channel c) : channelStep c s = (dmaTransfer s c s.now.inp.xfer).setArb
      (setDma s.blk.arb c (afterGrant (units s.cfg c) (dmaState s.blk.arb c))) := by
  simp [channelStep, he, ho]

/-- Without the tick a channel that has a fetch state goes to Requesting or holds (R146, R148, R149). -/
theorem dmaState_channelStep_without_tick {s : State} {c : Channel} (he : channelExists s.cfg c = true)
    (hkey : c ∈ s.blk.arb.dma.map (·.1)) (ho : s.now.owner ≠ .channel c) :
    dmaState (channelStep c s).blk.arb c = if takesWish s c then .requesting else dmaState s.blk.arb c := by
  unfold channelStep
  rw [he, if_neg (by simp), if_neg ho]
  split
  · exact dmaState_setDma_same _ _ hkey
  · rfl

theorem takesWish_iff {s : State} {c : Channel} : takesWish s c = true ↔ dmaState s.blk.arb c = .idle ∧
    channelDue s c = true ∧ enabled s c = true ∧ s.now.inp.wants.contains c = true := by
  simp [takesWish, wantsFetch, and_assoc]

/-! ### A channel's transfer (R64 to R70) -/

/-- A read records what the bus holds, or IN.openBus at a bus error, and writes nothing. -/
theorem dmaRead_spec (s : State) (c : Channel) (a : Nat) (w : Width) :
    (dmaRead s c a w).now.txn = some ⟨⟨⟨.read, a, w, 0⟩, .channel c, true⟩, busError s.cfg a w,
        if busError s.cfg a w then truncateTo w s.now.inp.openBus else memRead s s.now.inp.mem a w⟩ ∧
      (dmaRead s c a w).mem = s.mem ∧ (dmaRead s c a w).now.regWrite = s.now.regWrite :=
  ⟨rfl, rfl, rfl⟩

/-- A write records its value, a bus error or not. -/
theorem dmaWrite_txn (s : State) (c : Channel) (a : Nat) (w : Width) (v : BusValue) :
    (dmaWrite s c a w v).now.txn = some ⟨⟨⟨.write, a, w, v⟩, .channel c, true⟩, busError s.cfg a w, v⟩ := rfl

/-- Where a write goes: nowhere at a bus error, to P4 at a block register, otherwise to storage. -/
theorem dmaWrite_effect (s : State) (c : Channel) (a : Nat) (w : Width) (v : BusValue) :
    if busError s.cfg a w then
      (dmaWrite s c a w v).mem = s.mem ∧ (dmaWrite s c a w v).now.regWrite = s.now.regWrite
    else match blockRegAt s.cfg a with
      | some r =>
        (dmaWrite s c a w v).mem = s.mem ∧ (dmaWrite s c a w v).now.regWrite = some (r, v.setWidth 16)
      | none =>
        (dmaWrite s c a w v).mem = storeBytes s.cfg s.mem a w v ∧
          (dmaWrite s c a w v).now.regWrite = s.now.regWrite := by
  rw [dmaWrite_mem, dmaWrite_regWrite, memWrite_mem, memWrite_now]
  cases busError s.cfg a w with
  | true => simp
  | false => cases blockRegAt s.cfg a <;> simp

/-! ### The DMAEN commit (R156) -/

/-- The buffered write is to register `r`, on the SET or the CLR side, and has bit `i` set. -/
def bitWritten (w : Option (BlockReg × Word16)) (r : BlockReg) (set : Bool) (i : Nat) : Bool :=
  w.any fun x => decide (x.1 = r) && x.2.getLsbD 15 == set && x.2.getLsbD i

/-- A register's two masks hold the implemented bits written to it on their side (R232). -/
theorem writeMasks_getLsbD (w : Option (BlockReg × Word16)) (r : BlockReg) (m : BitVec 15) {i : Nat} (hi : i < 15) :
    (writeMasks w r m).1.getLsbD i = (bitWritten w r true i && m.getLsbD i) ∧
      (writeMasks w r m).2.getLsbD i = (bitWritten w r false i && m.getLsbD i) := by
  cases w with
  | none => simp [writeMasks, bitWritten]
  | some x =>
    obtain ⟨r', v⟩ := x
    by_cases hr : r' = r
    · simp [writeMasks, bitWritten, hr, setClr_fst_getLsbD v m hi, setClr_snd_getLsbD v m hi]
    · simp [writeMasks, bitWritten, hr]

/-- The implemented bits of DMAEN: the image of DMA_BIT (R156). -/
theorem dmaMask_getLsbD (cfg : Config) {i : Nat} (hi : i < 15) :
    (dmaMask cfg).getLsbD i = cfg.chans.any (fun c => dmaBit cfg c == i) := by
  unfold dmaMask
  induction cfg.chans with
  | nil => simp
  | cons c l ih =>
    have hbit : (BitVec.ofNat 15 (2 ^ dmaBit cfg c)).getLsbD i = (dmaBit cfg c == i) := by
      rw [BitVec.getLsbD_ofNat, Nat.testBit_two_pow]
      simp [hi, beq_eq_decide]
    rw [List.foldr_cons, BitVec.getLsbD_or, ih, hbit, List.any_cons]

/-- The commit bit by bit: a written bit counts when it is implemented. -/
theorem mergedDmaEnable_getLsbD (s : State) {i : Nat} (hi : i < 15) :
    let written := fun (set : Bool) =>
      bitWritten s.now.regWrite .dmaEn set i && s.cfg.chans.any (fun c => dmaBit s.cfg c == i)
    (mergedDmaEnable s).getLsbD i = ((s.blk.arb.dmaEnable.getLsbD i || written true) && !written false) := by
  obtain ⟨hset, hclr⟩ := writeMasks_getLsbD s.now.regWrite .dmaEn (dmaMask s.cfg) hi
  rw [mergedDmaEnable, applyMasks_getLsbD _ _ _ hi, hset, hclr, dmaMask_getLsbD _ hi]

end Sys2Proof.Machine

namespace Sys2Proof.Proofs

open Sys2Proof.Machine

/-- Settles O27: the owner was eligible, so it is due and its step runs; taken as the first of P3 (R116), it makes the
transfer from the state that P1 and P2 left. -/
theorem grantMovesOneUnit : Obligations.GrantMovesOneUnit := by
  intro s t c hv hne hkey hwhole howner
  obtain ⟨u, hu, rfl, hf, -⟩ := wholeTick_perform hwhole
  have ho : (begin s).now.owner = .channel c := hf.owner.symm.trans howner
  obtain ⟨-, helig, -⟩ := ladder_channel (s := begin s) ho
  obtain ⟨hex, -, hdue, -⟩ := eligible_iff.mp helig
  obtain ⟨hstate, hbus⟩ := channelStep_of_tick (validFacts hv) (channelExists_iff.mp hex) hne hdue hu
  rw [channelStep_owned hex ho] at hstate hbus
  obtain ⟨hmem, htxn, hreg⟩ := hbus ho
  simp only [setArb_mem, setArb_now] at hmem htxn hreg
  simp only [finish_now, finish_mem, hf.inp, hmem, htxn, hreg]
  refine ⟨?_, ?_⟩
  · cases hk : (begin s).now.inp.xfer.kind with
    | read =>
      simp only [dmaTransfer, hk]
      exact dmaRead_spec (begin s) c _ _
    | write =>
      simp only [dmaTransfer, hk]
      exact ⟨dmaWrite_txn (begin s) c _ _ _, dmaWrite_effect (begin s) c _ _ _⟩
  · calc dmaState (finish u).blk.arb c
      _ = afterGrant (units s.cfg c) (dmaState s.blk.arb c) := hstate.trans (dmaState_setDma_same _ _ hkey)
      _ = _ := by cases dmaState s.blk.arb c <;> rfl

/-- Settles O25: P3 records transactions by the owner's own step only, and refresh and nobody have no step. -/
theorem onlyTheOwnerTransacts : Obligations.OnlyTheOwnerTransacts := by
  intro s t hwhole
  obtain ⟨u, hu, rfl, hf, htxn⟩ := wholeTick_perform hwhole
  refine ⟨hf.owner, htxn, fun ho => ?_, rfl, fun owners hn => countActiveOwners_le_one _ hn⟩
  obtain ⟨hmem, ht, hr⟩ := runEntries_bus_unowned (hf.owner ▸ ho) hu
  exact ⟨ht, hr, hmem⟩

/-- Settles O26: the owner is the ladder's answer in P2, which is a channel only when the channel is eligible, and P1
changes nothing of what eligibility reads. -/
theorem owningChannelWasEligible : Obligations.OwningChannelWasEligible := by
  intro s t c hwhole howner
  obtain ⟨u, -, rfl, hf, -⟩ := wholeTick_perform hwhole
  have hlad : ladder (begin s) = .channel c := hf.owner.symm.trans howner
  obtain ⟨horder, helig, -⟩ := ladder_channel hlad
  obtain ⟨hex, hen, hdue, hslot⟩ := eligible_iff.mp helig
  obtain ⟨-, hchannel, -, -⟩ := ladder_answers (begin s)
  obtain ⟨hrefresh, -⟩ := (hchannel c).mp hlad
  exact ⟨horder, hex, hen, hdue, hslot, hrefresh⟩

/-- Settles O28: a due channel's step, taken as the first of P3 (R116), takes up the wish or holds, and a channel that
is not due has no step. -/
theorem channelWithoutTheTickRequestsOrHolds : Obligations.ChannelWithoutTheTickRequestsOrHolds := by
  intro s t c hv hc hkey hwhole howner
  obtain ⟨hchan, hne⟩ := mem_dmaChans.mp hc
  obtain ⟨u, hu, rfl, hf, -⟩ := wholeTick_perform hwhole
  have ho : (begin s).now.owner ≠ .channel c := hf.owner ▸ howner
  have hwish : takesWish (begin s) c = true ↔ dmaState s.blk.arb c = .idle ∧
      kindDue s.cfg (.channel c) s.tickNat = true ∧ enabled s c = true ∧ u.now.inp.wants.contains c = true :=
    hf.inp ▸ takesWish_iff
  rw [finish_now, ← if_congr hwish rfl rfl]
  cases hd : channelDue s c with
  | true =>
    obtain ⟨hstate, -⟩ := channelStep_of_tick (validFacts hv) hchan hne hd hu
    exact hstate.trans
      (dmaState_channelStep_without_tick (s := begin s) (channelExists_iff.mpr hchan) hkey ho)
  | false =>
    have hno : ¬ takesWish (begin s) c = true := fun hw => by
      obtain ⟨-, hdue, -⟩ := takesWish_iff.mp hw
      exact absurd (hd.symm.trans hdue) Bool.false_ne_true
    rw [if_neg hno]
    exact dmaState_of_not_due (u := u) (validFacts hv) hchan hne hd hu

/-- Settles O24: the two channel rungs are searches through CHANNEL_ORDER, and the ladder tries refresh, the rungs and
the CPU in this order. -/
theorem ladderFollowsItsRungs : Obligations.LadderFollowsItsRungs := by
  intro s mid req
  obtain ⟨hrefresh, hchannel, hcpu, hnobody⟩ := ladder_answers s
  rw [rungs_empty_iff] at hcpu hnobody
  refine ⟨hrefresh, fun c => ?_, hcpu, hnobody⟩
  rw [hchannel]
  simp only [rungMidFetch, rungRequesting, find?_channel_iff, List.find?_eq_none, Bool.not_eq_true]
  refine and_congr_right fun _ => ⟨?_, ?_⟩
  · rintro (⟨pre, post, he, hmid⟩ | ⟨hnone, pre, post, he, hreq⟩)
    · exact ⟨pre, post, he, .inl hmid⟩
    · exact ⟨pre, post, he, .inr ⟨hnone, hreq⟩⟩
  · rintro ⟨pre, post, he, hmid | ⟨hnone, hreq⟩⟩
    · exact .inl ⟨pre, post, he, hmid⟩
    · exact .inr ⟨hnone, pre, post, he, hreq⟩

/-- Settles O39: P3 leaves DMAEN as it was, and P4 applies the masks of the buffered write, which hold implemented bits
only. -/
theorem dmaenChangesByBusWriteOnly : Obligations.DmaenChangesByBusWriteOnly := by
  intro s t _ hwhole i hi
  obtain ⟨u, -, rfl, hf, -⟩ := wholeTick_perform hwhole
  rw [finish_arb, finish_now, mergedDmaEnable_getLsbD u hi, hf.cfg, hf.dmaEnable]
  cases u.now.regWrite with
  | none => rfl
  | some x =>
    obtain ⟨r, v⟩ := x
    cases r <;> simp [bitWritten]

end Sys2Proof.Proofs
end

section
/-! PROOFS. The CPU's side of the bus contract (42_cpu_bus_contract.md): when the CPU competes for a tick (R171, R176,
R178), what it is answered when it wins, hits a bus error or loses (R172 to R174), and how long a loss stalls it
(R175). -/

namespace Sys2Proof.Machine

/-! ### Candidacy (R171, R176, R178) -/

theorem cpuCandidate_iff {s : State} : cpuCandidate s = true ↔ kindDue s.cfg .cpu s.tickNat = true ∧
    s.now.stalled = false ∧ s.now.inp.cpuHalted = false ∧ s.now.inp.cpuReq ≠ none := by
  simp [cpuCandidate, and_assoc, Option.isSome_iff_ne_none]

/-- P1 stalls the CPU exactly while the stall count is not 0 (R176). -/
theorem begin_stalled_eq_false_iff {s : State} : (begin s).now.stalled = false ↔ s.blk.arb.cpuWait = 0 := by
  change decide (0 < s.blk.arb.cpuWait) = false ↔ _
  rw [decide_eq_false_iff_not, Nat.pos_iff_ne_zero, not_not]

/-- P1 samples a request when one is presented. -/
theorem begin_cpuReq_eq_none_iff {s : State} : (begin s).now.inp.cpuReq = none ↔ (nextIn s).cpuReq = none :=
  Option.map_eq_none_iff

/-- Candidacy in a tick, read off the state before it and the inputs to come. -/
theorem cpuCandidate_begin_iff {s : State} : cpuCandidate (begin s) = true ↔
    kindDue s.cfg .cpu s.tickNat = true ∧ s.blk.arb.cpuWait = 0 ∧ (nextIn s).cpuHalted = false ∧
      (nextIn s).cpuReq ≠ none := by
  rw [cpuCandidate_iff, begin_stalled_eq_false_iff, ne_eq, begin_cpuReq_eq_none_iff]
  rfl

/-- A stalled CPU is no candidate (R176). -/
theorem cpuCandidate_begin_of_stall {s : State} (h : 0 < s.blk.arb.cpuWait) : cpuCandidate (begin s) = false := by
  refine Bool.eq_false_iff.mpr fun hc => ?_
  obtain ⟨-, hwait, -⟩ := cpuCandidate_begin_iff.mp hc
  exact h.ne' hwait

/-! ### The CPU's entry point, by what happens to its request -/

section entryPoint
variable {s : State}

theorem cpuStep_of_not_candidate (hc : cpuCandidate s = false) : cpuStep s = s := by
  unfold cpuStep
  split
  · rfl
  · rw [hc]; rfl

/-- A candidate's entry point reads its request (R171). -/
theorem cpuStep_of_candidate {op : BusOp} (hc : cpuCandidate s = true) (hreq : s.now.inp.cpuReq = some op) :
    cpuStep s =
      if s.now.owner = .cpu then if busError s.cfg op.addr op.width then raiseBusError s op else cpuAccess s op
      else s.setAnswer ⟨none, contentionCost s.cfg s.now.owner, false, none⟩ := by
  simp [cpuStep, hreq, hc]

theorem cpuStep_loses (hc : cpuCandidate s = true) (ho : s.now.owner ≠ .cpu) :
    cpuStep s = s.setAnswer ⟨none, contentionCost s.cfg s.now.owner, false, none⟩ := by
  obtain ⟨-, -, -, hreq⟩ := cpuCandidate_iff.mp hc
  obtain ⟨op, hop⟩ := Option.ne_none_iff_exists'.mp hreq
  rw [cpuStep_of_candidate hc hop, if_neg ho]

theorem cpuAccess_read {op : BusOp} (hk : op.kind = .read) :
    (cpuAccess s op).now.cpuAnswer = some ⟨some (memRead s s.now.inp.mem op.addr op.width), 0, false, none⟩ ∧
      (cpuAccess s op).mem = s.mem ∧ (cpuAccess s op).now.regWrite = s.now.regWrite := by
  simp [cpuAccess, hk]

theorem cpuAccess_write {op : BusOp} (hk : op.kind = .write) :
    (cpuAccess s op).now.cpuAnswer = some ⟨none, 0, false, none⟩ ∧
      (cpuAccess s op).mem = (memWrite s op.addr op.width op.value).mem ∧
      (cpuAccess s op).now.regWrite = (memWrite s op.addr op.width op.value).now.regWrite := by
  simp [cpuAccess, hk]

end entryPoint

/-! ### A component's step in its tick -/

/-- P3 answers as if the step of the one due component of a kind ran first: later steps keep that kind's part, and the
bus when the kind owns the tick (R116, R140). -/
theorem step_of_kind_in_tick {s u : State} {k : ComponentKind}
    (hone : (s.cfg.components.filter (fun c => c.kind = k)).length ≤ 1) (hk : k = .cpu ∨ ∃ ch, k = .channel ch)
    (hd : kindDue s.cfg k s.tickNat = true) (hu : perform (begin s) = .next u) :
    ∃ c v, c.kind = k ∧ runEntry c (begin s) = .next v ∧ OwnPartKept k v u ∧
      ((begin s).now.owner = ownerOfKind k → BusUntouched v u) := by
  obtain ⟨pre, c, post, hdue, hck, hpre, hpost⟩ := split_at_kind (dueSet_one hone hd)
  have hfirst : runEntries (c :: (pre ++ post)) (begin s) = .next u := by
    rw [← runEntries_first post (fun d hm => hck ▸ hpre d hm), ← hdue]
    exact hu
  obtain ⟨v, hv, hrest⟩ := runEntries_next_cons hfirst
  have hother : ∀ d ∈ pre ++ post, d.kind ≠ k := fun d hm => (List.mem_append.mp hm).elim (hpre d) (hpost d)
  obtain ⟨-, hkept, hbus⟩ := runEntries_other hother hk hrest
  exact ⟨c, v, hck, hv, hkept, fun ho => hbus ((runEntry_frame hv).owner.trans ho)⟩

/-- In the tick of a candidate the answer is the one its step gives to the state that P1 and P2 leave, and the bus is as
that step leaves it when the CPU owns the tick. -/
theorem cpuStep_of_tick {s u : State} (V : ValidFacts s.cfg) (hc : cpuCandidate (begin s) = true)
    (hu : perform (begin s) = .next u) : u.now.cpuAnswer = (cpuStep (begin s)).now.cpuAnswer ∧
      ((begin s).now.owner = .cpu → BusUntouched (cpuStep (begin s)) u) := by
  obtain ⟨hdue, -⟩ := cpuCandidate_begin_iff.mp hc
  obtain ⟨c, v, hk, hv, hkept, hbus⟩ := step_of_kind_in_tick V.oneCpu (.inl rfl) hdue hu
  rw [runEntry_cpu hk] at hv
  cases hv
  exact ⟨hkept, hbus⟩

/-- The tick the CPU owns has what its access, or its bus error, leaves on the bus and as its answer (R172, R173). -/
theorem cpu_owned_tick {s t : State} {op : BusOp} (hv : configValid s.cfg = true) (hwhole : wholeTick s t)
    (howner : t.now.owner = .cpu) (hreq : t.now.inp.cpuReq = some op) :
    let r := if busError s.cfg op.addr op.width then raiseBusError (begin s) op else cpuAccess (begin s) op
    t.now.inp = (begin s).now.inp ∧ t.now.cpuAnswer = r.now.cpuAnswer ∧ t.mem = r.mem ∧
      t.now.regWrite = r.now.regWrite := by
  obtain ⟨u, hu, rfl, hf, -⟩ := wholeTick_perform hwhole
  have ho : (begin s).now.owner = .cpu := hf.owner.symm.trans howner
  have hc : cpuCandidate (begin s) = true := ladder_cpu (s := begin s) ho
  obtain ⟨hanswer, hbus⟩ := cpuStep_of_tick (validFacts hv) hc hu
  rw [cpuStep_of_candidate hc (hf.inp ▸ hreq), if_pos ho] at hanswer hbus
  obtain ⟨hmem, -, hreg⟩ := hbus ho
  exact ⟨hf.inp, hanswer, hmem, hreg⟩

/-! ### A CPU without the tick uses no bus -/

/-- Who does not own a whole tick makes no transaction in it (R140). -/
theorem busUsedBy_eq_false {s t : State} {o : SlotOwner} (hwhole : wholeTick s t) (ho : t.now.owner ≠ o) :
    t.busUsedBy o = false := by
  obtain ⟨u, -, rfl, -, htxn⟩ := wholeTick_perform hwhole
  rw [finish_now] at ho
  have hother : ∀ x, u.now.txn = some x → x.request.requester ≠ o := fun x hx => htxn x hx ▸ ho
  simpa [State.busUsedBy, ho, Option.any_eq_false] using hother

/-- With a CPU that is no candidate, every entry point leaves the CPU's answer. -/
theorem runEntry_cpuAnswer {c : Component} {s t : State} (hc : cpuCandidate s = false) (h : runEntry c s = .next t) :
    t.now.cpuAnswer = s.now.cpuAnswer := by
  by_cases hk : c.kind = .cpu
  · rw [runEntry_cpu hk, cpuStep_of_not_candidate hc] at h
    cases h
    rfl
  · obtain ⟨hkept, -⟩ := runEntry_other hk (.inl rfl) h
    exact hkept

/-- With a CPU that is no candidate, P3 leaves the CPU's answer. -/
theorem runEntries_cpuAnswer {cs : List Component} {s t : State} (hc : cpuCandidate s = false)
    (h : runEntries cs s = .next t) : t.now.cpuAnswer = s.now.cpuAnswer := by
  induction cs generalizing s with
  | nil => cases h; rfl
  | cons c cs ih =>
    obtain ⟨u, hu, hrest⟩ := runEntries_next_cons h
    exact (ih ((runEntry_frame hu).cpuCandidate.trans hc) hrest).trans (runEntry_cpuAnswer hc hu)

/-! ### The stall count (R175) -/

/-- P4 commits the owner's cost after a loss, and otherwise counts one tick down, down to 0. -/
theorem cpuWait_of_wholeTick {s t : State} (hwhole : wholeTick s t) :
    t.blk.arb.cpuWait = if cpuCandidate (begin s) = true ∧ t.now.owner ≠ .cpu then contentionCost s.cfg t.now.owner
      else s.blk.arb.cpuWait - 1 := by
  obtain ⟨u, -, rfl, hf, -⟩ := wholeTick_perform hwhole
  have hlost : (cpuCandidate u && u.now.owner != .cpu) = true ↔
      cpuCandidate (begin s) = true ∧ u.now.owner ≠ .cpu := by
    simp [hf.cpuCandidate]
  change nextCpuWait u = _
  rw [nextCpuWait, hf.cfg, hf.cpuWait]
  exact if_congr hlost rfl rfl

theorem hasStopped_eq_false_iff {s : State} : hasStopped s = false ↔ s.blk.fault = none ∧ s.blk.refused = none := by
  simp [hasStopped]

/-- A run's first step. -/
theorem first_step_of_run {k : Nat} {t u : State} (hrun : Host.Core.run Sys2Proof.core (k + 1) t = .next u) :
    ∃ v : State, step t = .next v ∧ Host.Core.run Sys2Proof.core k v = .next u := by
  simp only [Host.Core.run] at hrun
  split at hrun
  · next v hv => exact ⟨v, hv, hrun⟩
  · cases hrun
  · cases hrun

/-- A run that ends without a sticky record starts without one (R39). -/
theorem hasStopped_of_run {k : Nat} {t u : State} (hrun : Host.Core.run Sys2Proof.core k t = .next u)
    (hu : hasStopped u = false) : hasStopped t = false := by
  cases k with
  | zero => cases hrun; exact hu
  | succ k =>
    obtain ⟨v, hv, -⟩ := first_step_of_run hrun
    exact Bool.eq_false_iff.mpr fun hs => no_step_of_hasStopped hs v hv

/-- The first step of a run that ends without a sticky record is a whole tick. -/
theorem wholeTick_of_run {k : Nat} {t u : State} (hrun : Host.Core.run Sys2Proof.core (k + 1) t = .next u)
    (hu : hasStopped u = false) : ∃ v, wholeTick t v ∧ Host.Core.run Sys2Proof.core k v = .next u := by
  obtain ⟨v, hv, hrest⟩ := first_step_of_run hrun
  exact ⟨v, ⟨hv, hasStopped_eq_false_iff.mp (hasStopped_of_run hrest hu)⟩, hrest⟩

/-- While the CPU is stalled, each tick counts one down, whatever competes in it. -/
theorem cpuWait_of_run {k : Nat} {t u : State} (hk : k ≤ t.blk.arb.cpuWait)
    (hrun : Host.Core.run Sys2Proof.core k t = .next u) (hu : hasStopped u = false) :
    u.blk.arb.cpuWait = t.blk.arb.cpuWait - k := by
  induction k generalizing t with
  | zero => cases hrun; rfl
  | succ k ih =>
    obtain ⟨v, hwhole, hrest⟩ := wholeTick_of_run hrun hu
    have hv : v.blk.arb.cpuWait = t.blk.arb.cpuWait - 1 := by
      rw [cpuWait_of_wholeTick hwhole, cpuCandidate_begin_of_stall (by omega)]
      simp
    rw [ih (by omega) hrest]
    omega

end Sys2Proof.Machine

namespace Sys2Proof.Proofs

open Sys2Proof.Machine

/-- Settles O29: the owner was a candidate, so its step runs; taken as the first of P3 (R116), it makes the access from
the state that P1 and P2 left. -/
theorem cpuWinsItsAccess : Obligations.CpuWinsItsAccess := by
  intro s t op hv hwhole howner hreq hbus
  obtain ⟨hinp, hanswer, hmem, hreg⟩ := cpu_owned_tick hv hwhole howner hreq
  rw [hbus, if_neg Bool.false_ne_true] at hanswer hmem hreg
  rw [hinp, hanswer, hmem, hreg]
  cases hk : op.kind with
  | read => exact cpuAccess_read hk
  | write =>
    obtain ⟨ha, hm, hr⟩ := cpuAccess_write (s := begin s) hk
    rw [ha, hm, hr, memWrite_mem, memWrite_now, begin_cfg]
    cases blockRegAt s.cfg op.addr <;> exact ⟨rfl, rfl, rfl⟩

/-- Settles O30: a bus error's one effect beside its record is the CPU's answer. -/
theorem cpuBusErrorIsAnswered : Obligations.CpuBusErrorIsAnswered := by
  intro s t op hv hwhole howner hreq hbus
  obtain ⟨-, hanswer, hmem, hreg⟩ := cpu_owned_tick hv hwhole howner hreq
  rw [if_pos hbus] at hanswer hmem hreg
  obtain ⟨-, -, hm, hr, ha⟩ := raiseBusError_frame (begin s) op
  obtain ⟨-, -, -, hlast, -⟩ := onlyTheOwnerTransacts s t hwhole
  exact ⟨hanswer.trans ha, hmem.trans hm, hreg.trans hr, hlast.trans howner⟩

/-- Settles O31: the losing candidate's step answers the owner's cost, and the ladder gives a tick to nobody only when
the CPU is no candidate. -/
theorem losingCpuGetsWaitStates : Obligations.LosingCpuGetsWaitStates := by
  intro s t hv hwhole hc howner
  have hunused := busUsedBy_eq_false hwhole howner
  obtain ⟨u, hu, rfl, hf, -⟩ := wholeTick_perform hwhole
  have ho : (begin s).now.owner ≠ .cpu := hf.owner ▸ howner
  obtain ⟨hanswer, -⟩ := cpuStep_of_tick (validFacts hv) hc hu
  rw [cpuStep_loses hc ho, setAnswer_now, ← hf.owner] at hanswer
  refine ⟨hanswer, (validFacts hv).cost _, hunused, ?_⟩
  rw [finish_now, hf.owner] at howner ⊢
  cases hl : (begin s).now.owner with
  | refresh => exact .inl rfl
  | channel c => exact .inr ⟨c, rfl⟩
  | cpu => exact absurd hl ho
  | noOwner =>
    obtain ⟨-, -, -, hnobody⟩ := ladder_answers (begin s)
    obtain ⟨-, -, hno⟩ := hnobody.mp hl
    rw [hc] at hno
    cases hno

/-- Settles O32: P4 sets or counts the stall down, and while it is above 0 the CPU is no candidate, so nothing sets it
again. -/
theorem stallLastsItsCost : Obligations.StallLastsItsCost := by
  constructor
  · intro s t hwhole
    have hdown : (if 0 < s.blk.arb.cpuWait then s.blk.arb.cpuWait - 1 else 0) = s.blk.arb.cpuWait - 1 := by
      split <;> omega
    rw [hdown, cpuWait_of_wholeTick hwhole]
  · intro t u k hk hrun hfault hrefused
    have hwait := cpuWait_of_run hk hrun (hasStopped_eq_false_iff.mpr ⟨hfault, hrefused⟩)
    exact ⟨hwait, fun hlt => cpuCandidate_begin_of_stall (by omega),
      fun heq => begin_stalled_eq_false_iff.mpr (by omega)⟩

/-- Settles O57: a CPU that is no candidate has a step that does nothing, and the ladder does not choose it. -/
theorem nonCandidateCpuGetsNoAnswer : Obligations.NonCandidateCpuGetsNoAnswer := by
  refine fun s => ⟨cpuCandidate_begin_iff, fun t hwhole hc => ?_⟩
  obtain ⟨u, hu, rfl, hf, -⟩ := wholeTick_perform hwhole
  have ho : (finish u).now.owner ≠ .cpu := fun h => by
    have hcand : cpuCandidate (begin s) = true := ladder_cpu (s := begin s) (hf.owner.symm.trans h)
    rw [hc] at hcand
    cases hcand
  have hanswer : u.now.cpuAnswer = none := runEntries_cpuAnswer hc hu
  exact ⟨hanswer, busUsedBy_eq_false hwhole ho⟩

end Sys2Proof.Proofs
end

section
/-! PROOFS. The copper's instructions (43_copper.md): the write of a MOVE (R199, R200), the beam condition of WAIT and
SKIP (R205, R206), and what WAIT and SKIP do with it (R201 to R203). -/

namespace Sys2Proof.Machine

/-! ### The copper's write, by where it goes (R65 to R67) -/

section copperWrite
variable {s : State} {a : Nat} {w : Width} (c : Channel) (v : BusValue)

theorem dmaWrite_of_busError (h : busError s.cfg a w = true) :
    dmaWrite s c a w v = s.setTxn (.channel c) true ⟨.write, a, w, v⟩ true v := by
  simp [dmaWrite, h]

theorem dmaWrite_of_register {r : BlockReg} (h : busError s.cfg a w = false) (hr : blockRegAt s.cfg a = some r) :
    dmaWrite s c a w v = (s.setNow { s.now with regWrite := some (r, v.setWidth 16) }).setTxn (.channel c) true
      ⟨.write, a, w, v⟩ false v := by
  simp [dmaWrite, h, memWrite, hr]

theorem dmaWrite_of_platform (h : busError s.cfg a w = false) (hr : blockRegAt s.cfg a = none) :
    dmaWrite s c a w v = (s.setMem (storeBytes s.cfg s.mem a w v)).setTxn (.channel c) true
      ⟨.write, a, w, v⟩ false v := by
  simp [dmaWrite, h, memWrite_of_platform w v hr]

end copperWrite

/-! ### A word and its two bytes (R61) -/

/-- A word comes back from the 32 bits of the bus. -/
theorem setWidth_bus_word (v : Word16) : (v.setWidth 32).setWidth 16 = v := by
  rw [BitVec.setWidth_setWidth (by decide), BitVec.setWidth_eq]

/-- The bytes of a word in memory are those of the word as a bus value. -/
theorem bytesOfWord_eq_map (order : ByteOrder) (v : Word16) :
    bytesOfWord order v = (List.range 2).map (byteAtOffset order 2 (v.setWidth 32)) := by
  have hbyte : ∀ j < 2, valueByte (v.setWidth 32) j = v.extractLsb' (8 * j) 8 := by
    intro j hj
    ext i hi
    have hlow : 8 * j + i < 32 := by omega
    simp [valueByte, hlow]
  cases order <;> simp [bytesOfWord, byteAtOffset, List.range_succ, hbyte]

theorem bytesOfWord_getElem? (order : ByteOrder) (v : Word16) {j : Nat} (hj : j < 2) :
    (bytesOfWord order v)[j]? = some (byteAtOffset order 2 (v.setWidth 32) j) := by
  simp [bytesOfWord_eq_map, hj]

/-- Two neighbouring bytes have different addresses even in the smallest address space (R62). -/
theorem addAddr_word_inj {cfg : Config} (hbits : 1 ≤ cfg.addrBits) {a j k : Nat} (hj : j < 2) (hk : k < 2)
    (h : addAddr cfg a j = addAddr cfg a k) : j = k := by
  have htwo : 2 ^ 1 ≤ 2 ^ cfg.addrBits := Nat.pow_le_pow_right (by decide) hbits
  have hmod : j ≡ k [MOD 2 ^ cfg.addrBits] := Nat.ModEq.add_left_cancel' a h
  exact hmod.eq_of_lt_of_lt (by omega) (by omega)

/-- An address that is no plain storage reads as before a write (log 4). -/
theorem read_storeBytes_of_not_storage {cfg : Config} (m : Memory) (a : Nat) (w : Width) (v : BusValue) {x : Nat}
    (h : isStorage cfg x = false) : Memory.read (storeBytes cfg m a w v) x = Memory.read m x := by
  unfold storeBytes
  generalize List.range w.bytes = offsets
  induction offsets generalizing m with
  | nil => rfl
  | cons j offsets ih => rw [List.foldl_cons, ih, read_storeByte]; simp [h]

/-! ### The beam condition as numbers (R205, R206) -/

/-- vPos bit 7 is compared whatever the mask. -/
theorem toNat_vMask (ve : BitVec 7) : (vMask ve).toNat = 128 ||| ve.toNat := by
  have hlt : ve.toNat < 2 ^ 8 := ve.isLt.trans (by decide)
  rw [vMask, BitVec.toNat_or, BitVec.toNat_setWidth, Nat.mod_eq_of_lt hlt]
  rfl

/-- A key is its vertical byte above its 7 horizontal bits. -/
theorem beamKeyOf_eq_append (v : BitVec 8) (h ve he : BitVec 7) :
    beamKeyOf v h ve he = (v &&& vMask ve) ++ (h &&& he) := by
  rw [beamKeyOf, ← BitVec.setWidth_append_eq_shiftLeft_setWidth_or, BitVec.setWidth_eq]

theorem toNat_beamKeyOf (v : BitVec 8) (h ve he : BitVec 7) :
    (beamKeyOf v h ve he).toNat = (v.toNat &&& (128 ||| ve.toNat)) * 128 + (h.toNat &&& he.toNat) := by
  have hlow : h.toNat &&& he.toNat < 2 ^ 7 := Nat.and_lt_two_pow _ he.isLt
  rw [beamKeyOf_eq_append, BitVec.toNat_append, BitVec.toNat_and, BitVec.toNat_and, toNat_vMask,
    ← Nat.shiftLeft_add_eq_or_of_lt hlow, Nat.shiftLeft_eq]

/-- vPos[7:0] as a number. -/
theorem toNat_vPos_low (v : BitVec 16) : (v.extractLsb' 0 8).toNat = v.toNat % 256 := by
  simp [BitVec.extractLsb'_toNat]

/-- hPos[7:1] as a number. -/
theorem toNat_hPos_high (h : BitVec 8) : (h.extractLsb' 1 7).toNat = h.toNat / 2 := by
  have := h.isLt
  rw [BitVec.extractLsb'_toNat, Nat.shiftRight_eq_div_pow]
  omega

/-- The blitter term lets every condition with BFD set pass. -/
theorem waitHolds_iff {w : WaitCond} {i : TickIn} : waitHolds w i = true ↔
    (targetKey w).toNat ≤ (beamKey w i.hPos i.vPos).toNat ∧ (w.bfd = 1#1 ∨ i.blitterBusy = false) := by
  simp [waitHolds, beamOK]

/-! ### WAIT and SKIP (R201 to R203) -/

/-- The copper's registers after a WAIT's execute tick. -/
def copAfterWait (c : Cop) (holds : Bool) : Cop :=
  if holds = true then { c with state := .fetch0 } else { c with blocked := true }

/-- The copper's registers after a SKIP's execute tick. -/
def copAfterSkip (cfg : Config) (c : Cop) (holds : Bool) : Cop :=
  { c with state := .fetch0, pc := if holds = true then addAddr cfg c.pc 4 else c.pc }

theorem exec_wait (s : State) (vp hp : BitVec 8) (ve : BitVec 7) (he : BitVec 8) (bfd : BitVec 1) :
    exec (.wait vp hp ve he bfd) s =
      .next (s.setCop (copAfterWait s.blk.cop (waitHolds (waitOf vp hp ve he bfd) s.now.inp))) := by
  simp only [exec, execWait, copAfterWait]
  cases waitHolds (waitOf vp hp ve he bfd) s.now.inp <;> rfl

theorem exec_skip (s : State) (vp hp : BitVec 8) (ve : BitVec 7) (he : BitVec 8) (bfd : BitVec 1) :
    exec (.skip vp hp ve he bfd) s =
      .next (s.setCop (copAfterSkip s.cfg s.blk.cop (waitHolds (waitOf vp hp ve he bfd) s.now.inp))) := by
  simp only [exec, execSkip, copAfterSkip]
  cases waitHolds (waitOf vp hp ve he bfd) s.now.inp <;> rfl

/-- MOVE and WAIT leave the copper's pc, and only a SKIP adds 4 to it (R203, R215). -/
theorem exec_pc {i : Instr} {s t : State} (h : exec i s = .next t) : t.blk.cop.pc = s.blk.cop.pc ∨
    (∃ vp hp ve he bfd, i = .skip vp hp ve he bfd) ∧ t.blk.cop.pc = addAddr s.cfg s.blk.cop.pc 4 := by
  cases i with
  | move ra data =>
    cases ha : moveAllowed s.cfg ra with
    | true => rw [exec_move_allowed data ha] at h; cases h; left; simp
    | false => rw [exec_move_forbidden data ha] at h; cases h; exact .inl rfl
  | wait vp hp ve he bfd =>
    rw [exec_wait] at h
    cases h
    left
    rw [setCop_cop, copAfterWait]
    split <;> rfl
  | skip vp hp ve he bfd =>
    rw [exec_skip] at h
    cases h
    rw [setCop_cop, copAfterSkip]
    split
    · exact .inr ⟨⟨vp, hp, ve, he, bfd, rfl⟩, rfl⟩
    · exact .inl rfl

end Sys2Proof.Machine

namespace Sys2Proof.Proofs

open Sys2Proof.Machine

/-- Settles O5: the write goes to storage, where the word's two bytes have addresses of their own. -/
theorem moveStoresItsWord : Obligations.MoveStoresItsWord := by
  intro s ra data hbits hallowed hbus hreg
  refine ⟨_, exec_move_allowed data hallowed, ?_⟩
  rw [dmaWrite_of_platform .copper _ hbus hreg]
  refine ⟨rfl, rfl, rfl, rfl, rfl, fun j hj hs => ?_, fun x hx => ?_⟩
  · rw [bytesOfWord_getElem? _ _ hj]
    exact read_storeBytes_at _ _ _ .word _ _ hj hs fun i hi => addAddr_word_inj hbits hi hj
  · rcases hx with hx | hx
    · exact read_storeBytes_other _ _ _ .word _ _ hx
    · exact read_storeBytes_of_not_storage _ _ _ _ hx

/-- Settles O9: the two keys, each as a number. -/
theorem beamConditionComparesMaskedKeys : Obligations.BeamConditionComparesMaskedKeys := by
  intro w i
  rw [waitHolds_iff, targetKey, beamKey, toNat_beamKeyOf, toNat_beamKeyOf, toNat_vPos_low, toNat_hPos_high]

/-- Settles O6: at a block register the write is the one P4 will commit. -/
theorem moveBuffersARegisterWrite : Obligations.MoveBuffersARegisterWrite := by
  intro s ra data r hallowed hbus hreg
  refine ⟨_, exec_move_allowed data hallowed, ?_⟩
  rw [dmaWrite_of_register .copper _ hbus hreg, setWidth_bus_word]
  exact ⟨rfl, rfl, rfl, rfl, rfl, rfl⟩

/-- Settles O7: at a bus error only the transaction is recorded. -/
theorem moveAtABusErrorIsDropped : Obligations.MoveAtABusErrorIsDropped := by
  intro s ra data hallowed hbus
  refine ⟨_, exec_move_allowed data hallowed, ?_⟩
  rw [dmaWrite_of_busError .copper _ hbus]
  exact ⟨rfl, rfl, rfl, rfl, rfl, rfl⟩

/-- Settles O10: WAIT writes the copper's registers only. -/
theorem waitResumesOrBlocks : Obligations.WaitResumesOrBlocks :=
  fun s vp hp ve he bfd => exec_wait s vp hp ve he bfd

/-- Settles O11: SKIP writes the copper's registers only. -/
theorem skipDiscardsTheNextInstruction : Obligations.SkipDiscardsTheNextInstruction :=
  fun s vp hp ve he bfd => exec_skip s vp hp ve he bfd

end Sys2Proof.Proofs
end

section
/-! PROOFS. The copper in a tick (43_copper.md): in a tick it owns it fetches a word or executes the instruction it holds
(R195 to R202), and without the tick it wakes, polls or holds (R191 to R194, R204, R207). -/

namespace Sys2Proof.Machine

/-! ### The start of a tick -/

theorem runs_iff {s : State} : s.runs = true ↔ stuckReason s = none ∧ brokenInvariant s.cfg s.blk = none := by
  simp [State.runs, State.live, isStuck, Block.inv]

/-- A block that takes a tick has no sticky record (R39, R114). -/
theorem not_stopped_of_runs {s : State} (h : s.runs = true) : s.blk.fault = none ∧ s.blk.refused = none := by
  obtain ⟨hstuck, -⟩ := runs_iff.mp h
  exact hasStopped_eq_false_iff.mp (hasStopped_of_not_isStuck (by simp [isStuck, hstuck]))

theorem perform_frame {s u : State} (hu : perform s = .next u) : PerformFrame s u := by
  rcases runEntries_cases (dueSet s.cfg s.tickNat) s with ⟨v, hv, hf, -⟩ | ⟨pc, ir1, hv, -⟩
  · cases hv.symm.trans hu; exact hf
  · cases hv.symm.trans hu

theorem wholeTick_of_perform {s u : State} (hruns : s.runs = true) (hu : perform (begin s) = .next u) :
    wholeTick s (finish u) := by
  obtain ⟨hp, hi⟩ := runs_iff.mp hruns
  obtain ⟨hfault, hrefused⟩ := not_stopped_of_runs hruns
  have hf := perform_frame hu
  exact ⟨step_of_perform hp hi hu, hf.fault.trans hfault, hf.refused.trans hrefused⟩

/-- A reserved MOVE that P3 refuses is recorded on the start-of-tick state (R287). -/
theorem step_of_refusal {s : State} {pc : Nat} {ir1 : Word16} (hruns : s.runs = true)
    (hr : perform (begin s) = .refused (.reservedMoveBits pc ir1)) :
    step s = .next (recordRefusal s (.reservedMoveBits pc ir1)) := by
  obtain ⟨hp, hi⟩ := runs_iff.mp hruns
  simp only [step, tick, hp, hi, tickBody, hr, endTick]

theorem strobed_of_strobe {s : State} (h : strobeComes s = true) : strobed s = restartCopper s.blk.cop := if_pos h

theorem strobed_of_no_strobe {s : State} (h : strobeComes s = false) : strobed s = s.blk.cop :=
  if_neg (Bool.eq_false_iff.mp h)

/-- P1 and P2 leave what decides whether the copper's step runs. -/
@[simp] theorem copperActive_begin (s : State) : copperActive (begin s) = copperActive s := rfl

/-- A copper that owns the tick was not restarted in it, is neither blocked nor Idle, and its step runs (R143, R144,
R193). -/
theorem copper_owns {s : State} (ho : (begin s).now.owner = .channel .copper) :
    strobeComes s = false ∧ s.blk.cop.blocked = false ∧ s.blk.cop.state ≠ .idle ∧ copperActive s = true := by
  obtain ⟨hblocked, hidle, helig⟩ := copper_owner_state ho
  obtain ⟨hex, hen, hdue, -⟩ := eligible_iff.mp helig
  have hstrobe : strobeComes s = false := by
    cases hs : strobeComes s with
    | false => rfl
    | true => rw [strobed_of_strobe hs] at hidle; exact absurd rfl hidle
  rw [strobed_of_no_strobe hstrobe] at hblocked hidle
  refine ⟨hstrobe, hblocked, hidle, ?_⟩
  rw [← copperActive_begin]
  simp only [copperActive, hasCopper, hex, hdue, hen, Bool.and_self]

theorem copperWins_iff {s : State} : copperWins s = true ↔ (begin s).now.owner = .channel .copper := beq_iff_eq

/-- In a tick the copper owns, P1 leaves its registers. -/
theorem begin_cop_of_owner {s : State} (ho : (begin s).now.owner = .channel .copper) :
    (begin s).blk.cop = s.blk.cop :=
  strobed_of_no_strobe (copper_owns ho).1

/-! ### A tick the copper owns -/

section ownedSteps
variable {s : State}

theorem copperStep_of_owner (hact : copperActive s = true) (ho : s.now.owner = .channel .copper) :
    copperStep s = copperOwned s := by
  simp only [copperActive, Bool.and_eq_true] at hact
  obtain ⟨⟨hex, hdue⟩, hen⟩ := hact
  simp [copperStep, hex, hdue, hen, ho]

theorem copperOwned_fetch0 (h : s.blk.cop.state = .fetch0) : copperOwned s = .next (fetchFirst s) := by
  simp only [copperOwned, h]

theorem copperOwned_fetch1 (h : s.blk.cop.state = .fetch1) : copperOwned s = fetchSecond s := by
  simp only [copperOwned, h]

/-- In an execute state the copper executes the instruction it holds. -/
theorem copperOwned_execute {i : Instr} (h : currentInstr s.blk.cop = some i) : copperOwned s = exec i s := by
  cases hst : s.blk.cop.state with
  | idle | fetch0 | fetch1 => simp [currentInstr, hst] at h
  | executeMove | executeWait | executeSkip => simp only [copperOwned, hst, h]

end ownedSteps

/-- Only the copper's entry point can refuse, so the others always answer a next state. -/
theorem runEntries_of_no_copper {cs : List Component} (h : ∀ d ∈ cs, d.kind ≠ .channel .copper) (s : State) :
    ∃ u, runEntries cs s = .next u := by
  induction cs generalizing s with
  | nil => exact ⟨s, rfl⟩
  | cons c cs ih =>
    obtain ⟨hc, hcs⟩ := List.forall_mem_cons.mp h
    rcases runEntry_cases c s with ⟨t, ht, -⟩ | ⟨hk, -⟩
    · simp only [runEntries, ht]
      exact ih hcs t
    · exact absurd hk hc

/-- P3 of a tick the copper owns is the copper's step and then those of the other components (R116). -/
theorem perform_copper_first {s : State} (V : ValidFacts s.cfg) (ho : (begin s).now.owner = .channel .copper) :
    ∃ others : List Component, (∀ d ∈ others, d.kind ≠ .channel .copper) ∧
      perform (begin s) = andThen (copperOwned (begin s)) (runEntries others) := by
  obtain ⟨-, -, -, hact⟩ := copper_owns ho
  obtain ⟨-, -, helig⟩ := copper_owner_state ho
  obtain ⟨hex, -, hdue, -⟩ := eligible_iff.mp helig
  obtain ⟨pre, c, post, hsplit, hk, hpre, hpost⟩ :=
    split_at_kind (dueSet_one (V.registered .copper (channelExists_iff.mp hex)).le hdue)
  refine ⟨pre ++ post, fun d hd => (List.mem_append.mp hd).elim (hpre d) (hpost d), ?_⟩
  calc perform (begin s)
    _ = runEntries (pre ++ c :: post) (begin s) := congrArg (runEntries · (begin s)) hsplit
    _ = runEntries (c :: (pre ++ post)) (begin s) := runEntries_first post (fun d hd => hk ▸ hpre d hd) _
    _ = andThen (copperOwned (begin s)) (runEntries (pre ++ post)) := by
      rw [runEntries_cons, runEntry_copper hk, copperStep_of_owner (s := begin s) hact ho]

/-- The tick from `s` to `t` that the copper owns, where the copper's own step takes the state that P1 and P2 leave to
`b`: what P3's other steps and P4 to P6 leave of `b`, and what they make of it. -/
structure CopperTick (s b t : State) : Prop where
  begun : (begin s).blk.cop = s.blk.cop
  cfg : t.cfg = s.cfg
  cop : t.blk.cop = b.blk.cop
  mem : t.mem = b.mem
  txn : t.now.txn = b.now.txn
  regWrite : t.now.regWrite = b.now.regWrite
  inp : t.now.inp = (begin s).now.inp
  owner : t.now.owner = .channel .copper
  intc : t.blk.intc = (finish b).blk.intc
  dmaEnable : t.blk.arb.dmaEnable = (finish b).blk.arb.dmaEnable
  tick : t.blk.clock.tick = s.blk.clock.tick + 1

/-- The commits of P4 and P5 read no more of P3's state than its frame and the buffered write. -/
theorem finish_registers_congr {b u : State} (hf : PerformFrame b u) (hw : u.now.regWrite = b.now.regWrite) :
    (finish u).blk.intc = (finish b).blk.intc ∧
      (finish u).blk.arb.dmaEnable = (finish b).blk.arb.dmaEnable := by
  simp only [finish_intc, finish_arb, mergedPending, mergedEnable, mergedDmaEnable, hf.cfg, hf.intc, hf.dmaEnable,
    hf.inp, hw, and_self]

/-- When the copper's own step answers `b`, so does P3, up to what the other components' steps write. -/
theorem perform_copper_owned {s b : State} (V : ValidFacts s.cfg) (ho : (begin s).now.owner = .channel .copper)
    (hb : copperOwned (begin s) = .next b) : ∃ u, perform (begin s) = .next u ∧ CopperTick s b (finish u) := by
  obtain ⟨others, hothers, hrun⟩ := perform_copper_first V ho
  obtain ⟨u, hu⟩ := runEntries_of_no_copper hothers b
  rw [hb, andThen_next, hu] at hrun
  obtain ⟨hrest, hcop, hbus⟩ := runEntries_other hothers (.inr ⟨.copper, rfl⟩) hu
  have hf := perform_frame hrun
  obtain ⟨hmem, htxn, hreg⟩ := hbus (hrest.owner.symm.trans (hf.owner.trans ho))
  obtain ⟨hintc, hdma⟩ := finish_registers_congr hrest hreg
  exact ⟨u, hrun, {
    begun := begin_cop_of_owner ho
    cfg := hf.cfg
    cop := by simpa [OwnPartKept] using hcop
    mem := hmem
    txn := htxn
    regWrite := hreg
    inp := hf.inp
    owner := hf.owner.trans ho
    intc := hintc
    dmaEnable := hdma
    tick := congrArg (·.tick + 1) hf.clock }⟩

/-- A tick that the copper wins is a whole one when the copper's own step answers a next state. -/
theorem copperTick_of_wins {s b : State} (hv : configValid s.cfg = true) (hruns : s.runs = true)
    (hwins : copperWins s = true) (hb : copperOwned (begin s) = .next b) : ∃ t, wholeTick s t ∧ CopperTick s b t := by
  obtain ⟨u, hu, ht⟩ := perform_copper_owned (validFacts hv) (copperWins_iff.mp hwins) hb
  exact ⟨finish u, wholeTick_of_perform hruns hu, ht⟩

/-- P1 and P2 choose the owner that a whole tick records. -/
theorem begin_owner_of_wholeTick {s t : State} (hwhole : wholeTick s t) : (begin s).now.owner = t.now.owner := by
  obtain ⟨u, -, rfl, hf, -⟩ := wholeTick_perform hwhole
  exact hf.owner.symm

/-- A copper that owned a whole tick was not restarted in it, was neither blocked nor Idle, and its step ran. -/
theorem copper_owned {s t : State} (hwhole : wholeTick s t) (howner : t.now.owner = .channel .copper) :
    strobeComes s = false ∧ s.blk.cop.blocked = false ∧ s.blk.cop.state ≠ .idle ∧ copperActive s = true :=
  copper_owns ((begin_owner_of_wholeTick hwhole).trans howner)

/-- A blocked copper does not own a tick (R143). -/
theorem owner_ne_of_blocked {s t : State} (hwhole : wholeTick s t) (hblocked : s.blk.cop.blocked = true) :
    t.now.owner ≠ .channel .copper := by
  intro howner
  obtain ⟨-, hfree, -⟩ := copper_owned hwhole howner
  rw [hblocked] at hfree
  cases hfree

/-- In a whole tick that the copper owned, its own step answered a next state. -/
theorem copperTick_of_wholeTick {s t : State} (hv : configValid s.cfg = true) (hwhole : wholeTick s t)
    (howner : t.now.owner = .channel .copper) : ∃ b, copperOwned (begin s) = .next b ∧ CopperTick s b t := by
  have ho := (begin_owner_of_wholeTick hwhole).trans howner
  obtain ⟨u, hu, rfl, -⟩ := wholeTick_perform hwhole
  obtain ⟨others, -, hrun⟩ := perform_copper_first (validFacts hv) ho
  cases hb : copperOwned (begin s) with
  | next b =>
    obtain ⟨u', hu', ht⟩ := perform_copper_owned (validFacts hv) ho hb
    cases hu'.symm.trans hu
    exact ⟨b, rfl, ht⟩
  | fault f => rw [hb, hu] at hrun; cases hrun
  | refused r => rw [hb, hu] at hrun; cases hrun

/-- A whole tick in which the copper owns the bus and holds an instruction executes it (R195). -/
theorem executed_of_wholeTick {s t : State} {i : Instr} (hv : configValid s.cfg = true) (hwhole : wholeTick s t)
    (howner : t.now.owner = .channel .copper) (hi : currentInstr s.blk.cop = some i) :
    ∃ b, exec i (begin s) = .next b ∧ CopperTick s b t := by
  obtain ⟨b, hb, ht⟩ := copperTick_of_wholeTick hv hwhole howner
  rw [← ht.begun] at hi
  exact ⟨b, (copperOwned_execute hi).symm.trans hb, ht⟩

/-- A tick that the copper wins executes the instruction that it holds after P1 (R195). -/
theorem executed_of_wins {s : State} {i : Instr} (hv : configValid s.cfg = true) (hruns : s.runs = true)
    (hwins : copperWins s = true) (hi : currentInstr (begin s).blk.cop = some i) :
    ∃ b t, exec i (begin s) = .next b ∧ wholeTick s t ∧ CopperTick s b t := by
  obtain ⟨b, hb, -⟩ := exec_cases i (begin s)
  obtain ⟨t, hwhole, ht⟩ := copperTick_of_wins hv hruns hwins ((copperOwned_execute hi).trans hb)
  exact ⟨b, t, hb, hwhole, ht⟩

/-! ### A tick the copper does not own -/

section withoutTick
variable {s : State}

theorem copWithoutTick_of_inactive (h : copperActive s = false) : copWithoutTick s = s.blk.cop := by
  rw [copWithoutTick, ← Bool.not_and, ← Bool.not_and]
  exact if_pos ((Bool.not_eq_true' _).mpr h)

/-- A copper whose step runs wakes, polls or holds (R194, R204, R207). -/
theorem copWithoutTick_of_active (h : copperActive s = true) : copWithoutTick s =
    if s.blk.cop.state = .idle then { s.blk.cop with state := .fetch0 }
    else if s.blk.cop.blocked && s.blk.cop.state == .executeWait then
      if waitHolds s.blk.cop.wait s.now.inp then { s.blk.cop with blocked := false, state := .fetch0 } else s.blk.cop
    else s.blk.cop := by
  rw [copWithoutTick, ← Bool.not_and, ← Bool.not_and]
  exact if_neg (by simpa [copperActive] using h)

theorem copWithoutTick_of_idle (hact : copperActive s = true) (hidle : s.blk.cop.state = .idle) :
    copWithoutTick s = { s.blk.cop with state := .fetch0 } := by
  rw [copWithoutTick_of_active hact, if_pos hidle]

/-- The poll of a blocked WAIT (R207). -/
theorem copWithoutTick_of_polling (hact : copperActive s = true) (hwait : s.blk.cop.state = .executeWait)
    (hblocked : s.blk.cop.blocked = true) : copWithoutTick s =
      if waitHolds s.blk.cop.wait s.now.inp = true then { s.blk.cop with blocked := false, state := .fetch0 }
      else s.blk.cop := by
  rw [copWithoutTick_of_active hact, if_neg (by simp [hwait]), if_pos (by simp [hwait, hblocked])]

/-- A copper that neither wakes nor polls holds (R204). -/
theorem copWithoutTick_of_holding (hidle : s.blk.cop.state ≠ .idle)
    (hpoll : ¬ (s.blk.cop.blocked = true ∧ s.blk.cop.state = .executeWait)) : copWithoutTick s = s.blk.cop := by
  cases hact : copperActive s with
  | false => exact copWithoutTick_of_inactive hact
  | true => rw [copWithoutTick_of_active hact, if_neg hidle, if_neg (by simpa using hpoll)]

/-- Without the tick, a WAIT ends by a poll whose condition holds and stays where it is otherwise (R204, R207). -/
theorem copWithoutTick_of_wait (hwait : s.blk.cop.state = .executeWait) : copWithoutTick s = s.blk.cop ∨
    copWithoutTick s = { s.blk.cop with blocked := false, state := .fetch0 } ∧
      waitHolds s.blk.cop.wait s.now.inp = true := by
  cases hact : copperActive s with
  | false => exact .inl (copWithoutTick_of_inactive hact)
  | true =>
    cases hblocked : s.blk.cop.blocked with
    | false => exact .inl (copWithoutTick_of_holding (by rw [hwait]; decide) (by simp [hblocked]))
    | true =>
      rw [copWithoutTick_of_polling hact hwait hblocked]
      split
      · next hholds => exact .inr ⟨rfl, hholds⟩
      · exact .inl rfl

/-- Without the tick, pc stays. -/
theorem copWithoutTick_pc : (copWithoutTick s).pc = s.blk.cop.pc := by
  unfold copWithoutTick
  repeat' split
  all_goals rfl

theorem PerformFrame.copWithoutTick {t : State} (hf : PerformFrame s t) (hc : t.blk.cop = s.blk.cop) :
    copWithoutTick t = copWithoutTick s := by
  simp only [Machine.copWithoutTick, hc, hf.cfg, hf.inp, hf.channelDue, hf.enabled]

end withoutTick

/-- A whole tick that the copper does not own: its registers move by R192, R194, R204 and R207 from where P1 left them,
and it uses no bus. -/
theorem cop_of_unowned_tick {s t : State} (hv : configValid s.cfg = true) (hwhole : wholeTick s t)
    (howner : t.now.owner ≠ .channel .copper) :
    t.blk.cop = copWithoutTick (begin s) ∧ t.busUsedBy (.channel .copper) = false ∧
      t.now.inp = (begin s).now.inp := by
  have hunused := busUsedBy_eq_false hwhole howner
  obtain ⟨u, hu, rfl, hf, -⟩ := wholeTick_perform hwhole
  refine ⟨?_, hunused, hf.inp⟩
  rcases copper_step_of_tick hv hu with ⟨hcop, hnone⟩ | ⟨a, b, ha, hcop, -, hstep, -, hkept, -⟩
  · have hinactive : copperActive (begin s) = false := by
      rcases hnone with h | h <;> simp [copperActive, h]
    exact hcop.trans (copWithoutTick_of_inactive hinactive).symm
  · have hlost : a.now.owner ≠ .channel .copper := fun h => howner (hf.owner.trans (ha.owner.symm.trans h))
    rw [copperStep_eq_copWithoutTick hlost] at hstep
    cases hstep
    exact hkept.trans (ha.copWithoutTick hcop)

/-- What the restart strobe leaves at the end of its tick (R193, R194). -/
theorem copWithoutTick_of_strobe {s : State} (h : strobeComes s = true) : copWithoutTick (begin s) =
    { s.blk.cop with state := if copperActive s then .fetch0 else .idle, pc := 0, blocked := false } := by
  have hcop : (begin s).blk.cop = restartCopper s.blk.cop := strobed_of_strobe h
  cases hact : copperActive s with
  | true =>
    have hidle : (begin s).blk.cop.state = .idle := by rw [hcop]; rfl
    rw [copWithoutTick_of_idle (s := begin s) hact hidle, hcop]
    rfl
  | false => rw [copWithoutTick_of_inactive (s := begin s) hact, hcop]; rfl

/-! ### The two fetches (R197, R198) -/

/-- P1 and P2 change nothing a bus read can see. -/
theorem memRead_begin (s : State) (inMem : BusValue) (a : Nat) (w : Width) :
    memRead (begin s) inMem a w = memRead s inMem a w := by
  have hreg : ∀ r, regRead (begin s).blk r = regRead s.blk r := fun r => by cases r <;> rfl
  simp only [memRead, hreg]
  rfl

theorem listWord_begin (s : State) (i : TickIn) (a : Nat) : listWord (begin s) i a = listWord s i a := by
  simp only [listWord, memRead_begin, begin_cfg]

/-- The low 16 bits of a value cut to a word are its low 16 bits. -/
theorem setWidth_truncateTo_word (v : BusValue) : (truncateTo .word v).setWidth 16 = v.setWidth 16 := by
  refine BitVec.eq_of_getLsbD_eq fun i hi => ?_
  rw [BitVec.getLsbD_setWidth, BitVec.getLsbD_setWidth, truncateTo_eq_lowBytes, getLsbD_lowBytes]
  simp [Width.bytes, hi]

/-- The word that a copper read gives. -/
theorem dmaReadValue_word (s : State) (a : Nat) :
    (dmaReadValue s a .word).setWidth 16 = listWord s s.now.inp a := by
  unfold dmaReadValue listWord
  split
  · exact setWidth_truncateTo_word _
  · rfl

theorem fetchFirst_cop (s : State) : (fetchFirst s).blk.cop =
    { s.blk.cop with ir1 := listWord s s.now.inp (listAddr s), pc := pcPlus s 2, state := .fetch1 } := by
  rw [← dmaReadValue_word]; rfl

/-- The second fetch of a word pair that decodes latches the instruction. -/
theorem fetchSecond_of_ok {s : State} {i : Instr}
    (hd : decodeWords s.blk.cop.ir1 (listWord s s.now.inp (listAddr s)) = .ok i) :
    fetchSecond s = .next ((dmaRead s .copper (listAddr s) .word).setCop
      (latchInstr s.blk.cop (pcPlus s 2) (listWord s s.now.inp (listAddr s)) i)) := by
  simp only [fetchSecond, dmaReadValue_word, hd]

/-- The second fetch of a word pair that does not decode is refused (R198). -/
theorem fetchSecond_of_error {s : State} {e : DecodeError}
    (hd : decodeWords s.blk.cop.ir1 (listWord s s.now.inp (listAddr s)) = .error e) :
    fetchSecond s = .refused (.reservedMoveBits (instrPc s) s.blk.cop.ir1) := by
  simp only [fetchSecond, dmaReadValue_word, hd]

/-- In a tick the copper owns, it fetches from the list address of its registers before the tick. -/
theorem listAddr_begin {s : State} (hcop : (begin s).blk.cop = s.blk.cop) : listAddr (begin s) = listAddr s := by
  rw [listAddr, hcop]; rfl

theorem pcPlus_begin {s : State} (hcop : (begin s).blk.cop = s.blk.cop) (n : Nat) : pcPlus (begin s) n = pcPlus s n := by
  rw [pcPlus, hcop]; rfl

theorem instrPc_begin {s : State} (hcop : (begin s).blk.cop = s.blk.cop) : instrPc (begin s) = instrPc s := by
  rw [instrPc, hcop]; rfl

/-- The first fetch (R197). -/
theorem firstFetch_of_wholeTick {s t : State} (hv : configValid s.cfg = true) (hst : s.blk.cop.state = .fetch0)
    (hwhole : wholeTick s t) (howner : t.now.owner = .channel .copper) :
    t.cfg = s.cfg ∧ t.mem = s.mem ∧ t.blk.cop =
      { s.blk.cop with ir1 := listWord s t.now.inp (listAddr s), pc := pcPlus s 2, state := .fetch1 } := by
  obtain ⟨b, hb, ht⟩ := copperTick_of_wholeTick hv hwhole howner
  rw [copperOwned_fetch0 (by rwa [ht.begun])] at hb
  cases hb
  refine ⟨ht.cfg, ht.mem, ?_⟩
  rw [ht.cop, fetchFirst_cop, ht.begun, listWord_begin, listAddr_begin ht.begun, pcPlus_begin ht.begun, ht.inp]

/-- The copper's own step at the second fetch of a word pair that decodes (R198). -/
theorem copperOwned_secondFetch {s : State} {i : Instr} (hst : s.blk.cop.state = .fetch1)
    (hcop : (begin s).blk.cop = s.blk.cop)
    (hd : decodeWords s.blk.cop.ir1 (listWord s (begin s).now.inp (listAddr s)) = .ok i) :
    copperOwned (begin s) = .next ((dmaRead (begin s) .copper (listAddr s) .word).setCop
      (latchInstr s.blk.cop (pcPlus s 2) (listWord s (begin s).now.inp (listAddr s)) i)) := by
  have hd' : decodeWords (begin s).blk.cop.ir1 (listWord (begin s) (begin s).now.inp (listAddr (begin s))) = .ok i := by
    rwa [hcop, listWord_begin, listAddr_begin hcop]
  rw [copperOwned_fetch1 (by rwa [hcop]), fetchSecond_of_ok hd', hcop, listWord_begin, listAddr_begin hcop,
    pcPlus_begin hcop]

/-- The second fetch (R198). -/
theorem secondFetch_of_wholeTick {s t : State} {i : Instr} (hv : configValid s.cfg = true)
    (hst : s.blk.cop.state = .fetch1) (hwhole : wholeTick s t) (howner : t.now.owner = .channel .copper)
    (hd : decodeWords s.blk.cop.ir1 (listWord s t.now.inp (listAddr s)) = .ok i) :
    t.cfg = s.cfg ∧ t.mem = s.mem ∧
      t.blk.cop = latchInstr s.blk.cop (pcPlus s 2) (listWord s t.now.inp (listAddr s)) i := by
  obtain ⟨b, hb, ht⟩ := copperTick_of_wholeTick hv hwhole howner
  rw [ht.inp] at hd ⊢
  rw [copperOwned_secondFetch hst ht.begun hd] at hb
  cases hb
  exact ⟨ht.cfg, ht.mem, ht.cop⟩

/-- A tick that the copper wins at a second fetch that decodes (R198). -/
theorem secondFetch_of_wins {s : State} {i : Instr} (hv : configValid s.cfg = true) (hruns : s.runs = true)
    (hst : s.blk.cop.state = .fetch1) (hwins : copperWins s = true)
    (hd : decodeWords s.blk.cop.ir1 (listWord s (begin s).now.inp (listAddr s)) = .ok i) :
    ∃ t, wholeTick s t ∧
      t.blk.cop = latchInstr s.blk.cop (pcPlus s 2) (listWord s (begin s).now.inp (listAddr s)) i := by
  have hcop := begin_cop_of_owner (copperWins_iff.mp hwins)
  obtain ⟨t, hwhole, ht⟩ := copperTick_of_wins hv hruns hwins (copperOwned_secondFetch hst hcop hd)
  exact ⟨t, hwhole, ht.cop⟩

/-- A tick that the copper wins at a second fetch of a reserved MOVE: the refusal is recorded on the state before the
tick (R198, R287). -/
theorem refused_of_wins {s : State} {e : DecodeError} (hv : configValid s.cfg = true) (hruns : s.runs = true)
    (hst : s.blk.cop.state = .fetch1) (hwins : copperWins s = true)
    (hd : decodeWords s.blk.cop.ir1 (listWord s (begin s).now.inp (listAddr s)) = .error e) :
    step s = .next (s.setRefused (some (.reservedMoveBits (instrPc s) s.blk.cop.ir1))) := by
  have ho := copperWins_iff.mp hwins
  have hcop := begin_cop_of_owner ho
  have hd' : decodeWords (begin s).blk.cop.ir1 (listWord (begin s) (begin s).now.inp (listAddr (begin s))) =
      .error e := by
    rwa [hcop, listWord_begin, listAddr_begin hcop]
  obtain ⟨others, -, hrun⟩ := perform_copper_first (validFacts hv) ho
  rw [copperOwned_fetch1 (by rwa [hcop]), fetchSecond_of_error hd', hcop, instrPc_begin hcop] at hrun
  obtain ⟨-, hrefused⟩ := not_stopped_of_runs hruns
  rw [step_of_refusal hruns hrun, recordRefusal, hrefused]
  rfl

/-- IR1[15:9] is IR1 div 512. -/
theorem reservedOf_eq_zero_iff {w : Word16} : reservedOf w = 0#7 ↔ w.toNat / 512 = 0 := by
  have hlt := w.isLt
  rw [← BitVec.toNat_inj, reservedOf, BitVec.extractLsb'_toNat, Nat.shiftRight_eq_div_pow, BitVec.toNat_ofNat]
  omega

/-! ### From the list to the instruction (R196, R90) -/

/-- A word that plain storage holds is what a fetch at its address reads (R61, R73). -/
theorem listWord_of_storedWord {s : State} {a : Nat} {w : Word16} (i : TickIn) (h : storedWord s a w) :
    listWord s i a = w := by
  obtain ⟨hbus, hreg, hbytes⟩ := h
  have hmap : (List.range 2).map (platformByte s i.mem 2 a) = bytesOfWord s.cfg.byteOrder w := by
    rw [bytesOfWord_eq_map]
    refine List.map_congr_left fun j hj => ?_
    have hj' := List.mem_range.mp hj
    obtain ⟨hs, hread⟩ := hbytes j hj'
    rw [bytesOfWord_getElem? _ _ hj'] at hread
    simp [platformByte, hs, hread]
  have hread : platformRead s i.mem a .word = truncateTo .word (w.setWidth 32) := by
    rw [platformRead]
    change assemble _ ((List.range 2).map (platformByte s i.mem 2 a)) = _
    rw [hmap, bytesOfWord_eq_map]
    exact assemble_byteAtOffset _ _ _
  rw [listWord, hbus, memRead_of_platform _ _ hreg, hread, if_neg Bool.false_ne_true, setWidth_truncateTo_word,
    setWidth_bus_word]

/-- What storage holds depends on the configuration and on storage only. -/
theorem storedWord_congr {s t : State} {a : Nat} {w : Word16} (hcfg : t.cfg = s.cfg) (hmem : t.mem = s.mem)
    (h : storedWord s a w) : storedWord t a w := by
  rw [storedWord, hcfg, hmem]; exact h

/-- The registers that the second fetch latches hold the instruction it decoded (R198 to R202). -/
theorem currentInstr_latchInstr {c : Cop} {w2 : Word16} {i : Instr} (pc : Nat) (hd : decodeWords c.ir1 w2 = .ok i) :
    currentInstr (latchInstr c pc w2 i) = some i := by
  rcases decodeWords_rows c.ir1 w2 with ⟨-, -, h⟩ | ⟨-, -, h⟩ | ⟨-, -, h⟩ | ⟨-, -, h⟩ <;>
    cases h.symm.trans hd <;> rfl

theorem latchInstr_pc (c : Cop) (pc : Nat) (w2 : Word16) (i : Instr) : (latchInstr c pc w2 i).pc = pc := by
  cases i <;> rfl

/-! ### The instruction the registers hold -/

/-- The operands of the WAIT or SKIP that the registers hold are the stored condition (R201, R202). -/
theorem waitOf_stored (w : WaitCond) :
    waitOf w.vp (evenOperand w.hp) w.ve (evenOperand w.he) w.bfd = w := by
  rw [waitOf, fieldOf_evenOperand, fieldOf_evenOperand]

theorem state_of_currentInstr_skip {c : Cop} {vp hp : BitVec 8} {ve : BitVec 7} {he : BitVec 8} {bfd : BitVec 1}
    (h : currentInstr c = some (.skip vp hp ve he bfd)) : c.state = .executeSkip := by
  unfold currentInstr at h
  split at h
  · cases h
  · cases h
  · assumption
  · cases h

/-- A WAIT the copper executes in a whole tick it owns (R201). -/
theorem waited_of_wholeTick {s t : State} (hv : configValid s.cfg = true) (hst : s.blk.cop.state = .executeWait)
    (hwhole : wholeTick s t) (howner : t.now.owner = .channel .copper) :
    t.blk.cop = copAfterWait s.blk.cop (waitHolds s.blk.cop.wait t.now.inp) := by
  obtain ⟨b, hb, ht⟩ := executed_of_wholeTick hv hwhole howner (by rw [currentInstr, hst])
  rw [exec_wait, waitOf_stored] at hb
  cases hb
  rw [ht.cop, setCop_cop, ht.begun, ht.inp]

/-- How pc moves in a whole tick that the copper owns (R215). -/
theorem pc_of_owned_tick {s t : State} (hv : configValid s.cfg = true) (hwhole : wholeTick s t)
    (howner : t.now.owner = .channel .copper) : t.blk.cop.pc = s.blk.cop.pc ∨
      (s.blk.cop.state = .fetch0 ∨ s.blk.cop.state = .fetch1) ∧ t.blk.cop.pc = addAddr s.cfg s.blk.cop.pc 2 ∨
      s.blk.cop.state = .executeSkip ∧ t.blk.cop.pc = addAddr s.cfg s.blk.cop.pc 4 := by
  have hexec : ∀ i, currentInstr s.blk.cop = some i → t.blk.cop.pc = s.blk.cop.pc ∨
      s.blk.cop.state = .executeSkip ∧ t.blk.cop.pc = addAddr s.cfg s.blk.cop.pc 4 := by
    intro i hi
    obtain ⟨b, hb, ht⟩ := executed_of_wholeTick hv hwhole howner hi
    have hmoves := exec_pc hb
    rw [← ht.cop, ht.begun] at hmoves
    rcases hmoves with hpc | ⟨⟨vp, hp, ve, he, bfd, rfl⟩, hpc⟩
    · exact .inl hpc
    · exact .inr ⟨state_of_currentInstr_skip hi, hpc⟩
  cases hst : s.blk.cop.state with
  | idle =>
    obtain ⟨-, -, hidle, -⟩ := copper_owned hwhole howner
    exact absurd hst hidle
  | fetch0 =>
    obtain ⟨-, -, ht⟩ := firstFetch_of_wholeTick hv hst hwhole howner
    exact .inr (.inl ⟨.inl rfl, by rw [ht]; rfl⟩)
  | fetch1 =>
    obtain ⟨b, hb, ht⟩ := copperTick_of_wholeTick hv hwhole howner
    rw [copperOwned_fetch1 (by rwa [ht.begun])] at hb
    cases hd : decodeWords (begin s).blk.cop.ir1 (listWord (begin s) (begin s).now.inp (listAddr (begin s))) with
    | ok i =>
      rw [fetchSecond_of_ok hd] at hb
      cases hb
      exact .inr (.inl ⟨.inr rfl, by rw [ht.cop, setCop_cop, latchInstr_pc, pcPlus_begin ht.begun]; rfl⟩)
    | error e => rw [fetchSecond_of_error hd] at hb; cases hb
  | executeMove | executeWait | executeSkip =>
    exact (hexec _ (by rw [currentInstr, hst])).imp_right fun ⟨hskip, hpc⟩ => .inr ⟨hst.symm.trans hskip, hpc⟩

/-! ### The SET/CLR commit of a written register (R156, R232 to R234) -/

theorem writeMasks_same (r : BlockReg) (v : Word16) (m : BitVec 15) : writeMasks (some (r, v)) r m = setClr v m :=
  if_pos rfl

/-- A write with bit 15 set sets the implemented bits of the value, and one with bit 15 clear clears them. -/
theorem applyMasks_setClr (x : BitVec 15) (v : Word16) (m : BitVec 15) :
    applyMasks x (setClr v m).1 (setClr v m).2 =
      if v.getLsbD 15 then x ||| (v.setWidth 15 &&& m) else x &&& ~~~(v.setWidth 15 &&& m) := by
  simp only [applyMasks, setClr]
  split
  · simp only [BitVec.ofNat_eq_ofNat, BitVec.not_zero, BitVec.and_allOnes]
  · simp only [BitVec.ofNat_eq_ofNat, BitVec.or_zero]

section bufferedWrite
variable {s : State} {v : Word16}

theorem mergedEnable_of_write (h : s.now.regWrite = some (.intcEnable, v)) : mergedEnable s =
    if v.getLsbD 15 then s.blk.intc.enable ||| (v.setWidth 15 &&& srcMask s.cfg)
    else s.blk.intc.enable &&& ~~~(v.setWidth 15 &&& srcMask s.cfg) := by
  rw [mergedEnable, h, writeMasks_same, applyMasks_setClr]

/-- The raises of the tick are merged below the write (R233). -/
theorem mergedPending_of_write (h : s.now.regWrite = some (.intcPending, v)) : mergedPending s =
    if v.getLsbD 15 then
      s.blk.intc.pending ||| (s.now.inp.raised &&& srcMask s.cfg) ||| (v.setWidth 15 &&& srcMask s.cfg)
    else (s.blk.intc.pending ||| (s.now.inp.raised &&& srcMask s.cfg)) &&& ~~~(v.setWidth 15 &&& srcMask s.cfg) := by
  rw [mergedPending, h, writeMasks_same, applyMasks_setClr]

theorem mergedDmaEnable_of_write (h : s.now.regWrite = some (.dmaEn, v)) : mergedDmaEnable s =
    if v.getLsbD 15 then s.blk.arb.dmaEnable ||| (v.setWidth 15 &&& dmaMask s.cfg)
    else s.blk.arb.dmaEnable &&& ~~~(v.setWidth 15 &&& dmaMask s.cfg) := by
  rw [mergedDmaEnable, h, writeMasks_same, applyMasks_setClr]

end bufferedWrite

end Sys2Proof.Machine

namespace Sys2Proof.Proofs

open Sys2Proof.Machine

/-- Settles O8: a forbidden MOVE sets `blocked` only; blocked in ExecuteMove the copper neither requests a tick nor polls,
so it holds; a strobe and a reset put it back to Idle. -/
theorem forbiddenMoveHaltsTheCopper : Obligations.ForbiddenMoveHaltsTheCopper := by
  refine ⟨fun s ra data hforbidden => exec_move_forbidden data hforbidden, ?_, ?_, fun s => ⟨rfl, rfl⟩⟩
  · intro s ra data hv hruns hwins hi hforbidden
    have hcop := begin_cop_of_owner (copperWins_iff.mp hwins)
    obtain ⟨b, t, hb, hwhole, ht⟩ := executed_of_wins hv hruns hwins (by rwa [hcop])
    rw [exec_move_forbidden (s := begin s) data hforbidden] at hb
    cases hb
    refine ⟨t, hwhole, ht.owner, ?_, ht.txn, ht.regWrite, ht.mem⟩
    rw [ht.cop, setBlocked_cop, hcop]
  · intro s t hv hmove hblocked hwhole
    obtain ⟨hcop, hunused, -⟩ := cop_of_unowned_tick hv hwhole (owner_ne_of_blocked hwhole hblocked)
    refine ⟨hunused, hcop.trans ?_⟩
    cases hs : strobeComes s with
    | true => exact copWithoutTick_of_strobe hs
    | false =>
      have hkept : (begin s).blk.cop = s.blk.cop := strobed_of_no_strobe hs
      rw [copWithoutTick_of_holding (by rw [hkept, hmove]; decide) (by rw [hkept, hmove]; simp), hkept]
      rfl

/-- Settles O12: in a tick the copper owns it executes the WAIT, in one it does not own it polls or holds, and both leave
ExecuteWait by the condition only. -/
theorem waitNeverResumesEarly : Obligations.WaitNeverResumesEarly := by
  intro s t hv hst hs hwhole hleft
  by_cases howner : t.now.owner = .channel .copper
  · obtain ⟨-, hfree, -⟩ := copper_owned hwhole howner
    have hcop := waited_of_wholeTick hv hst hwhole howner
    cases hw : waitHolds s.blk.cop.wait t.now.inp with
    | true => exact ⟨by rw [hcop, hw, copAfterWait, if_pos rfl, ← hfree], rfl⟩
    | false => rw [hcop, hw] at hleft; exact absurd hst hleft
  · have hkept : (begin s).blk.cop = s.blk.cop := strobed_of_no_strobe hs
    obtain ⟨hcop, -, hinp⟩ := cop_of_unowned_tick hv hwhole howner
    rcases copWithoutTick_of_wait (s := begin s) (by rwa [hkept]) with hhold | ⟨hresume, hholds⟩
    · rw [hcop, hhold, hkept] at hleft; exact absurd hst hleft
    · rw [hkept] at hresume hholds
      exact ⟨hcop.trans hresume, hinp ▸ hholds⟩

/-- Settles O13: a blocked copper does not own the tick, and its step is the poll. -/
theorem blockedWaitIsPolled : Obligations.BlockedWaitIsPolled := by
  intro s t hv hst hblocked hs hact hwhole
  have hkept : (begin s).blk.cop = s.blk.cop := strobed_of_no_strobe hs
  obtain ⟨hcop, hunused, hinp⟩ := cop_of_unowned_tick hv hwhole (owner_ne_of_blocked hwhole hblocked)
  rw [copWithoutTick_of_polling (s := begin s) hact (by rw [hkept, hst]) (by rw [hkept, hblocked]), hkept,
    ← hinp] at hcop
  exact ⟨hunused, hcop⟩

/-- Settles O15: the copper's step in the tick it owns is the first fetch. -/
theorem firstFetchReadsTheListWord : Obligations.FirstFetchReadsTheListWord := by
  intro s t hv hst hwhole howner
  obtain ⟨-, -, hcop⟩ := firstFetch_of_wholeTick hv hst hwhole howner
  exact hcop

/-- Settles O16: the decoder's four rows are the four cases of the second fetch. -/
theorem secondFetchDecodes : Obligations.SecondFetchDecodes := by
  intro s hv hruns hst hwins w2 pc ir1
  rcases decodeWords_rows ir1 w2 with ⟨h0, hr, hd⟩ | ⟨h0, hr, hd⟩ | ⟨h0, h1, hd⟩ | ⟨h0, h1, hd⟩
  · rw [if_pos h0, if_neg (not_not.mpr (reservedOf_eq_zero_iff.mp hr))]
    exact secondFetch_of_wins hv hruns hst hwins hd
  · rw [if_pos h0, if_pos (reservedOf_eq_zero_iff.not.mp hr)]
    exact ⟨_, refused_of_wins hv hruns hst hwins hd, rfl, no_step_of_hasStopped (by simp [hasStopped])⟩
  · rw [if_neg (by rw [h0]; decide), if_neg (by rw [h1]; decide)]
    exact secondFetch_of_wins hv hruns hst hwins hd
  · rw [if_neg (by rw [h0]; decide), if_pos h1]
    exact secondFetch_of_wins hv hruns hst hwins hd

/-- Settles O17: the fetches read the two words out of storage, which neither of them changes, so the registers hold the
instruction of the list when the third tick executes it. -/
theorem listInstructionRunsInThreeOwnedTicks : Obligations.ListInstructionRunsInThreeOwnedTicks := by
  intro s s1 s2 s3 w1 w2 i hv hst hw1 hw2 hd hwhole1 howner1 hwhole2 howner2 hwhole3 howner3
  obtain ⟨hcfg1, hmem1, hcop1⟩ := firstFetch_of_wholeTick hv hst hwhole1 howner1
  have hir1 : s1.blk.cop.ir1 = w1 := by rw [hcop1]; exact listWord_of_storedWord _ hw1
  have hpc1 : s1.blk.cop.pc = addAddr s.cfg s.blk.cop.pc 2 := by rw [hcop1]; rfl
  have hst1 : s1.blk.cop.state = .fetch1 := by rw [hcop1]
  have hfetched : listWord s1 s2.now.inp (listAddr s1) = w2 := by
    rw [listAddr, hcfg1, hpc1]
    exact listWord_of_storedWord _ (storedWord_congr hcfg1 hmem1 hw2)
  have hd1 : decodeWords s1.blk.cop.ir1 (listWord s1 s2.now.inp (listAddr s1)) = .ok i := by
    rw [hir1, hfetched, hd]
  obtain ⟨hcfg2, -, hcop2⟩ := secondFetch_of_wholeTick (hcfg1 ▸ hv) hst1 hwhole2 howner2 hd1
  have hi : currentInstr s2.blk.cop = some i := by rw [hcop2]; exact currentInstr_latchInstr _ hd1
  have hv2 : configValid s2.cfg = true := by rw [hcfg2, hcfg1]; exact hv
  obtain ⟨b, hb, ht⟩ := executed_of_wholeTick hv2 hwhole3 howner3 hi
  refine ⟨hi, ?_, b, hb, ht.cop, ht.mem, ht.regWrite⟩
  rw [hcop2, latchInstr_pc, pcPlus, hcfg1, hpc1]

/-- Settles O19: the strobe makes the copper Idle in P1, so it does not own the tick and its step, if it runs, wakes
it. -/
theorem restartStrobeRestartsTheCopper : Obligations.RestartStrobeRestartsTheCopper := by
  intro s t hv hs hwhole
  have howner : t.now.owner ≠ .channel .copper := fun h => by
    obtain ⟨hno, -⟩ := copper_owned hwhole h
    rw [hs] at hno
    cases hno
  obtain ⟨hcop, hunused, -⟩ := cop_of_unowned_tick hv hwhole howner
  exact ⟨hcop.trans (copWithoutTick_of_strobe hs), hunused⟩

/-- Settles O18: an Idle copper does not own the tick, and its step wakes it; with a strobe this is what a restart
leaves. -/
theorem idleCopperWakes : Obligations.IdleCopperWakes := by
  intro s t hv hidle hact hwhole
  cases hs : strobeComes s with
  | true =>
    obtain ⟨hcop, hunused⟩ := restartStrobeRestartsTheCopper s t hv hs hwhole
    rw [if_pos hact] at hcop
    exact ⟨hcop, hunused⟩
  | false =>
    have hkept : (begin s).blk.cop = s.blk.cop := strobed_of_no_strobe hs
    have howner : t.now.owner ≠ .channel .copper := fun h => by
      obtain ⟨-, -, hbusy, -⟩ := copper_owned hwhole h
      exact hbusy hidle
    obtain ⟨hcop, hunused, -⟩ := cop_of_unowned_tick hv hwhole howner
    rw [copWithoutTick_of_idle (s := begin s) hact (by rw [hkept, hidle]), hkept] at hcop
    exact ⟨hcop, hunused⟩

/-- Settles O20: a copper whose step does not run is not eligible, and its registers stay where P1 left them. -/
theorem disabledCopperHolds : Obligations.DisabledCopperHolds := by
  intro s t hv hinactive hwhole
  have howner : t.now.owner ≠ .channel .copper := fun h => by
    obtain ⟨-, -, -, hact⟩ := copper_owned hwhole h
    rw [hinactive] at hact
    cases hact
  obtain ⟨hcop, hunused, -⟩ := cop_of_unowned_tick hv hwhole howner
  exact ⟨hcop.trans (copWithoutTick_of_inactive (s := begin s) hinactive), hunused⟩

/-- Settles O21: without a strobe, the tick or a step that wakes or polls, the copper's registers stay. -/
theorem losingCopperHolds : Obligations.LosingCopperHolds := by
  intro s t hv hs hwhole howner hbusy hpoll
  have hkept : (begin s).blk.cop = s.blk.cop := strobed_of_no_strobe hs
  obtain ⟨hcop, -, -⟩ := cop_of_unowned_tick hv hwhole howner
  rw [hcop, copWithoutTick_of_holding (by rwa [hkept]) (by rwa [hkept]), hkept]

/-- Settles O22: a discarded tick keeps pc, a tick without the bus keeps it or takes the strobe's 0, and in a tick the
copper owns a fetch or a SKIP moves it. -/
theorem copperPcMovesInThreeWays : Obligations.CopperPcMovesInThreeWays := by
  intro s t hv hstep
  rcases step_cases s with ⟨_, -, -, hstuck⟩ | ⟨-, n, site, -, he⟩ | ⟨-, -, pc, ir1, -, -, -, he⟩ |
    ⟨hp, hi, u, hu, he, -, -, -⟩
  · exact absurd hstep (hstuck t)
  · cases he.symm.trans hstep; exact .inl rfl
  · cases he.symm.trans hstep; exact .inl rfl
  · cases he.symm.trans hstep
    have hwhole : wholeTick s (finish u) := wholeTick_of_perform (runs_iff.mpr ⟨hp, hi⟩) hu
    by_cases howner : (finish u).now.owner = .channel .copper
    · rcases pc_of_owned_tick hv hwhole howner with hpc | ⟨hst, hpc⟩ | ⟨hst, hpc⟩
      · exact .inl hpc
      · exact .inr (.inr (.inl ⟨howner, hst, hpc⟩))
      · exact .inr (.inr (.inr ⟨howner, hst, hpc⟩))
    · obtain ⟨hcop, -, -⟩ := cop_of_unowned_tick hv hwhole howner
      rw [hcop, copWithoutTick_pc, begin_cop]
      cases hs : strobeComes s with
      | true => rw [strobed_of_strobe hs]; exact .inr (.inl ⟨rfl, rfl⟩)
      | false => rw [strobed_of_no_strobe hs]; exact .inl rfl

/-- Settles O14: the other components' steps leave the copper's part and the bus of the tick it owns. -/
theorem stepExecutesTheHeldInstruction : Obligations.StepExecutesTheHeldInstruction := by
  intro s i hv hruns hwins hi
  obtain ⟨b, t, hb, ⟨hstep, -, -⟩, ht⟩ := executed_of_wins hv hruns hwins hi
  exact ⟨b, t, hb, hstep, ht.cop, ht.mem, ht.txn, ht.regWrite, ht.owner, ht.intc, ht.dmaEnable, ht.tick⟩

/-- Settles O23: the MOVE buffers its word for the register, and P4 applies it to the value the register had before the
tick. -/
theorem copperMoveCommitsARegister : Obligations.CopperMoveCommitsARegister := by
  intro s ra data r hv hruns hwins hi hallowed hbus hreg
  have hcop := begin_cop_of_owner (copperWins_iff.mp hwins)
  obtain ⟨b, t, hb, ⟨hstep, -, -⟩, ht⟩ := executed_of_wins hv hruns hwins (by rwa [hcop])
  rw [exec_move_allowed (s := begin s) data hallowed, begin_cfg,
    dmaWrite_of_register (s := begin s) .copper _ hbus hreg, setWidth_bus_word] at hb
  cases hb
  refine ⟨t, hstep, ?_⟩
  rw [ht.inp]
  cases r with
  | intcEnable => rw [ht.intc]; exact mergedEnable_of_write rfl
  | intcPending => rw [ht.intc]; exact mergedPending_of_write rfl
  | dmaEn => rw [ht.dmaEnable]; exact mergedDmaEnable_of_write rfl

end Sys2Proof.Proofs
end

section
/-! PROOFS. The interrupt chain's statements (44_interrupt_chain.md): the priority encoder (R236), the commits of
INTC_PENDING and INTC_ENABLE in P4 (R233, R234), and the level that P5 latches and P1 samples (R235, R237). -/

namespace Sys2Proof.Machine

/-! ### The priority encoder (R236) -/

/-- The sources below NSRC whose bit is set in `x`. -/
def setSources (cfg : Config) (x : BitVec 15) : List Nat := (List.range cfg.nSrc).filter (fun i => x.getLsbD i)

@[simp] theorem mem_setSources {cfg : Config} {x : BitVec 15} {i : Nat} :
    i ∈ setSources cfg x ↔ i < cfg.nSrc ∧ x.getLsbD i = true := by
  rw [setSources, List.mem_filter, List.mem_range]

theorem priorityEncode_eq_foldr (cfg : Config) (x : BitVec 15) :
    priorityEncode cfg x = (setSources cfg x).foldr (fun i m => max (levelOf cfg i) m) 0 := rfl

theorem levelOf_le_priorityEncode {cfg : Config} {x : BitVec 15} {i : Nat} (hi : i < cfg.nSrc)
    (hx : x.getLsbD i = true) : levelOf cfg i ≤ priorityEncode cfg x :=
  (foldr_max_spec (levelOf cfg) (setSources cfg x)).1 i (mem_setSources.mpr ⟨hi, hx⟩)

/-- The level is that of a set source, or no source is set and it is 0. -/
theorem priorityEncode_attained (cfg : Config) (x : BitVec 15) :
    (∃ i ∈ setSources cfg x, priorityEncode cfg x = levelOf cfg i) ∨
      (priorityEncode cfg x = 0 ∧ setSources cfg x = []) := by
  rcases (foldr_max_spec (levelOf cfg) (setSources cfg x)).2 with hnone | hattained
  · exact .inr ⟨by rw [priorityEncode_eq_foldr, hnone, List.foldr_nil], hnone⟩
  · exact .inl hattained

/-! ### The commits of the interrupt registers (R233, R234) -/

@[simp] theorem bitWritten_some (r' r : BlockReg) (v : Word16) (set : Bool) (i : Nat) :
    bitWritten (some (r', v)) r set i = (decide (r' = r) && v.getLsbD 15 == set && v.getLsbD i) := rfl

/-- The SET/CLR commit of an interrupt register, bit by bit: a written bit counts when it is a source's (R232). -/
theorem applyMasks_writeMasks_srcMask_getLsbD (cfg : Config) (x : BitVec 15) (w : Option (BlockReg × Word16))
    (r : BlockReg) {i : Nat} (hi : i < 15) :
    let written := fun (set : Bool) => bitWritten w r set i && decide (i < cfg.nSrc)
    (applyMasks x (writeMasks w r (srcMask cfg)).1 (writeMasks w r (srcMask cfg)).2).getLsbD i =
      ((x.getLsbD i || written true) && !written false) := by
  obtain ⟨hset, hclr⟩ := writeMasks_getLsbD w r (srcMask cfg) hi
  rw [applyMasks_getLsbD _ _ _ hi, hset, hclr, srcMask_getLsbD _ hi]

/-- The raises of the tick are merged below the write, so a CLR wins (R233, R240). -/
theorem mergedPending_getLsbD (s : State) {i : Nat} (hi : i < 15) :
    let written := fun (set : Bool) => bitWritten s.now.regWrite .intcPending set i && decide (i < s.cfg.nSrc)
    (mergedPending s).getLsbD i =
      ((s.blk.intc.pending.getLsbD i || (s.now.inp.raised.getLsbD i && decide (i < s.cfg.nSrc)) || written true)
        && !written false) := by
  rw [mergedPending, applyMasks_writeMasks_srcMask_getLsbD _ _ _ _ hi, BitVec.getLsbD_or, BitVec.getLsbD_and,
    srcMask_getLsbD _ hi]

theorem mergedEnable_getLsbD (s : State) {i : Nat} (hi : i < 15) :
    let written := fun (set : Bool) => bitWritten s.now.regWrite .intcEnable set i && decide (i < s.cfg.nSrc)
    (mergedEnable s).getLsbD i = ((s.blk.intc.enable.getLsbD i || written true) && !written false) :=
  applyMasks_writeMasks_srcMask_getLsbD _ _ _ _ hi

end Sys2Proof.Machine

namespace Sys2Proof.Proofs

open Sys2Proof.Machine

/-- Settles O36: the encoder is the greatest level over the list of the set sources, which a valid configuration bounds
by 7. -/
theorem priorityEncodeIsTheGreatestLevel : Obligations.PriorityEncodeIsTheGreatestLevel := by
  intro cfg x
  refine ⟨fun i hi hx => levelOf_le_priorityEncode hi hx, ?_, fun hv => priorityEncode_le_seven (validFacts hv) x⟩
  rcases priorityEncode_attained cfg x with ⟨i, hmem, he⟩ | ⟨hzero, hnone⟩
  · obtain ⟨hi, hx⟩ := mem_setSources.mp hmem
    exact .inl ⟨i, hi, hx, he⟩
  · refine .inr ⟨hzero, fun i hi hx => absurd (mem_setSources.mpr ⟨hi, hx⟩) ?_⟩
    rw [hnone]
    exact List.not_mem_nil

/-- Settles O37: P3 leaves INTC_PENDING as it was, and P4 merges the raises and then the masks of the buffered write. -/
theorem pendingMergesRaisesAndWrites : Obligations.PendingMergesRaisesAndWrites := by
  intro s t _ hwhole i hi
  obtain ⟨u, -, rfl, hf, -⟩ := wholeTick_perform hwhole
  have hcfg : u.cfg = s.cfg := hf.cfg
  rw [finish_intc, finish_now, mergedPending_getLsbD u hi, hcfg, hf.intc]
  cases u.now.regWrite with
  | none => rfl
  | some x =>
    obtain ⟨r, v⟩ := x
    cases r <;> simp

/-- Settles O38: P3 leaves INTC_ENABLE as it was, and P4 applies only the masks of the buffered write. -/
theorem enableChangesByBusWriteOnly : Obligations.EnableChangesByBusWriteOnly := by
  intro s t _ hwhole i hi
  obtain ⟨u, -, rfl, hf, -⟩ := wholeTick_perform hwhole
  have hcfg : u.cfg = s.cfg := hf.cfg
  rw [finish_intc, finish_now, mergedEnable_getLsbD u hi, hcfg, hf.intc]
  cases u.now.regWrite with
  | none => rfl
  | some x =>
    obtain ⟨r, v⟩ := x
    cases r <;> simp

/-- Settles O40: P5 encodes the registers that P4 committed, and P3 keeps the level that P1 sampled from the tick
before. -/
theorem levelIsLatchedAndSampledOneTickLater : Obligations.LevelIsLatchedAndSampledOneTickLater := by
  intro s t hwhole
  obtain ⟨u, -, rfl, hf, -⟩ := wholeTick_perform hwhole
  have hcfg : u.cfg = s.cfg := hf.cfg
  have hsampled : u.now.level = s.blk.intc.level := hf.level
  refine ⟨?_, hsampled, rfl⟩
  rw [finish_intc, hcfg]

end Sys2Proof.Proofs
end

section
/-! PROOFS. The host interface's statements (45_host_interface.md): `configure` (R261), `snapshot` and `restore` (R264,
R265) and the host read (R270). -/

namespace Sys2Proof.Machine

/-! ### The configured block (R261, R311) -/

/-- No block exists but for a configuration that passes R283, and then it is the new one (R261, R284). -/
theorem configure_eq_ok_iff {cfg : Config} {s : State} :
    configure cfg = .ok s ↔ configValid cfg = true ∧ s = State.fresh cfg := by
  by_cases hv : configValid cfg = true
  · rw [configure, if_pos hv, Except.ok.injEq, eq_comm]
    exact (and_iff_right hv).symm
  · rw [configure, if_neg hv]
    exact iff_of_false nofun fun ⟨hvalid, _⟩ => hv hvalid

/-- After reset every channel is Idle, also one that has no entry (R311). -/
@[simp] theorem dmaState_reset (cfg : Config) (c : Channel) : dmaState (Arb.reset cfg) c = .idle := by
  rcases lookup_getD_mem (Arb.reset cfg).dma c .idle with hnone | ⟨e, he, -, hstate⟩
  · exact hnone
  · obtain ⟨c', -, rfl⟩ := List.mem_map.mp he
    exact hstate

/-! ### A restored block (R265, R287) -/

theorem compatible_iff {cfg : Config} {b : Block} :
    compatible cfg b = true ↔ b.typed cfg = true ∧ b.inv cfg = true := Bool.and_eq_true_iff

theorem compatible_eq_false_iff {cfg : Config} {b : Block} :
    compatible cfg b = false ↔ b.typed cfg = false ∨ b.inv cfg = false := Bool.and_eq_false_iff

/-- The block of a sound state is a blob that its own configuration accepts. -/
theorem compatible_of_sound {s : State} (h : s.sound = true) : compatible s.cfg s.blk = true := by
  obtain ⟨-, htyped, hinv, -, -⟩ := sound_iff.mp h
  exact compatible_iff.mpr ⟨htyped, Option.isNone_iff_eq_none.mpr hinv⟩

theorem restore_of_compatible {s : State} {b : Block} (h : compatible s.cfg b = true) :
    restore b s = s.setBlk (restored b s.blk) := if_pos h

theorem restore_of_incompatible {s : State} {b : Block} (h : compatible s.cfg b = false) :
    restore b s = recordRefusal s .incompatibleSnapshot := if_neg (Bool.eq_false_iff.mp h)

/-- A sticky record's first content stays, and an empty one takes the new content (R39). -/
theorem or_eq_if_none {α : Type} (old new : Option α) [Decidable (old = none)] :
    old.or new = if old = none then new else old := by
  cases old <;> simp

/-- No `restore` clears a sticky record (R39). -/
theorem hasStopped_restore {s : State} (b : Block) (h : hasStopped s = true) : hasStopped (restore b s) = true := by
  cases hb : compatible s.cfg b with
  | true =>
    rw [restore_of_compatible hb]
    simp only [hasStopped, setBlk_fault, setBlk_refused, restored_fault, restored_refused, Option.isSome_or,
      Bool.or_eq_true] at h ⊢
    exact h.imp .inl .inl
  | false =>
    rw [restore_of_incompatible hb]
    simp [hasStopped, recordRefusal]

/-! ### The host read (R270) -/

/-- P1 samples an access with its address and its value cut to their types (R13, R62). -/
theorem begin_cpuReq {s : State} {op : BusOp} (h : (nextIn s).cpuReq = some op) :
    (begin s).now.inp.cpuReq = some (sampleOp s.cfg op) :=
  congrArg (Option.map (sampleOp s.cfg)) h

theorem begin_inMem (s : State) : (begin s).now.inp.mem = (nextIn s).mem := rfl

/-- The host read of an address has no value exactly when the bus has an error there (R64, R270). -/
theorem hostRead_eq_none_iff {s : State} {a : Nat} {w : Width} :
    hostRead s a w = none ↔ busError s.cfg (wrapAddr s.cfg a) w = true := by
  simp [hostRead]

theorem hostRead_of_no_busError {s : State} {a : Nat} {w : Width}
    (h : busError s.cfg (wrapAddr s.cfg a) w = false) :
    hostRead s a w = some (memRead s (nextIn s).mem (wrapAddr s.cfg a) w) := if_neg (Bool.eq_false_iff.mp h)

end Sys2Proof.Machine

namespace Sys2Proof.Proofs

open Sys2Proof.Machine

/-- Settles O51: an accepted configuration gives the new machine, which is sound; its record is the reset record. -/
theorem configuredBlockIsResetAndSound : Obligations.ConfiguredBlockIsResetAndSound := by
  intro cfg s h
  obtain ⟨hv, rfl⟩ := configure_eq_ok_iff.mp h
  exact ⟨State.fresh_sound hv, rfl, rfl, rfl, rfl, rfl, dmaState_reset cfg, rfl, rfl, rfl, rfl, rfl⟩

/-- Settles O55: the tick the CPU owns answers its access with the value a read gives or with the bus error (R172,
R173), at the address and with the input that P1 sampled. -/
theorem hostReadIsTheNextBusRead : Obligations.HostReadIsTheNextBusRead := by
  intro s t a w v hv hreq hwhole howner
  obtain ⟨u, -, rfl, hf, -⟩ := wholeTick_perform hwhole
  have hinp : (finish u).now.inp = (begin s).now.inp := hf.inp
  have hsampled : (finish u).now.inp.cpuReq = some ⟨.read, wrapAddr s.cfg a, w, truncateTo w v⟩ :=
    hinp ▸ begin_cpuReq hreq
  cases hbus : busError s.cfg (wrapAddr s.cfg a) w with
  | true =>
    have hnone : hostRead s a w = none := hostRead_eq_none_iff.mpr hbus
    obtain ⟨hanswer, -⟩ := cpuBusErrorIsAnswered s _ _ hv hwhole howner hsampled hbus
    exact ⟨_, hanswer, hnone.symm, iff_of_true rfl hnone⟩
  | false =>
    have hsome := hostRead_of_no_busError hbus
    obtain ⟨hanswer, -⟩ := cpuWinsItsAccess s _ _ hv hwhole howner hsampled hbus
    rw [hinp, begin_inMem] at hanswer
    exact ⟨_, hanswer, hsome.symm, by simp [hsome]⟩

/-- Settles O54: `restore` takes over the compatible blobs and refuses the others, and in neither case clears a sticky
record, so a stopped block has no step after it. -/
theorem restoreReplacesOrRefuses : Obligations.RestoreReplacesOrRefuses := by
  refine ⟨fun s hs => ?_, fun s b => ⟨fun htyped hinv => ?_, fun hbad => ?_, fun hstop => ?_⟩⟩
  · rw [snapshot, restore_of_compatible (compatible_of_sound hs), restored_self]
    rfl
  · rw [restore_of_compatible (compatible_iff.mpr ⟨htyped, hinv⟩), restored, or_eq_if_none, or_eq_if_none]
    rfl
  · exact restore_of_incompatible (compatible_eq_false_iff.mpr hbad)
  · have hs : hasStopped s = true := by
      simpa [hasStopped, Option.isSome_iff_ne_none] using hstop
    exact no_step_of_hasStopped (hasStopped_restore b hs)

end Sys2Proof.Proofs
end

section
/-! PROOFS. The statements about exceptions (60_exceptions.md): no run from a sound state records a fatal error (R285,
R286), only a reserved MOVE stops a live block (R287, R289), and what `configure` reports (R280, R283). -/

namespace Sys2Proof.Machine

/-! ### A live block's step (R287, R289) -/

/-- What the step of a live block that satisfies R43 can do: a whole tick, or the refusal of a reserved MOVE, which
keeps the state before the tick (R287). -/
theorem step_of_runs {s : State} (hruns : s.runs = true) :
    (∃ t, wholeTick s t) ∨ ∃ pc ir1, ir1.getLsbD 0 = false ∧ reservedOf ir1 ≠ 0#7 ∧
      step s = .next (s.setRefused (some (.reservedMoveBits pc ir1))) := by
  rcases runEntries_cases (dueSet (begin s).cfg (begin s).tickNat) (begin s) with
    ⟨u, hu, -⟩ | ⟨pc, ir1, hr, hmove, hreserved⟩
  · exact .inl ⟨finish u, wholeTick_of_perform hruns hu⟩
  · obtain ⟨-, hrefused⟩ := not_stopped_of_runs hruns
    refine .inr ⟨pc, ir1, hmove, hreserved, ?_⟩
    rw [step_of_refusal hruns hr, recordRefusal, hrefused, Option.getD_none]

/-! ### Runs without a fatal error (R285, R286) -/

/-- A sound state that takes a step is live and satisfies R43. -/
theorem runs_of_sound {s t : State} (hs : s.sound = true) (hstep : step s = .next t) : s.runs = true := by
  obtain ⟨-, -, hinv, -, -⟩ := sound_iff.mp hs
  have hstart : stuckReason s = none :=
    Option.not_isSome_iff_eq_none.mp fun hstuck => no_step_of_isStuck hstuck t hstep
  exact runs_iff.mpr ⟨hstart, hinv⟩

/-- The step of a sound state records no fatal error (R285). -/
theorem fault_none_of_step {s t : State} (hs : s.sound = true) (hstep : step s = .next t) : t.blk.fault = none := by
  have hruns := runs_of_sound hs hstep
  rcases step_of_runs hruns with ⟨u, hu, hfault, -⟩ | ⟨pc, ir1, -, -, hu⟩
  · cases hu.symm.trans hstep
    exact hfault
  · cases hu.symm.trans hstep
    exact (not_stopped_of_runs hruns).1

/-- What every step keeps holds after every run. -/
theorem run_keeps {P : State → Prop} (hkeep : ∀ s t, P s → step s = .next t → P t) {n : Nat} {s t : State} (hs : P s)
    (hrun : Host.Core.run Sys2Proof.core n s = .next t) : P t := by
  induction n generalizing s with
  | zero => cases hrun; exact hs
  | succ n ih =>
    obtain ⟨u, hstep, hrest⟩ := first_step_of_run hrun
    exact ih (hkeep s u hs hstep) hrest

/-! ### The checks that report a component (R280, R283) -/

/-- The failed checks, check by check. -/
theorem mem_configErrors {cfg : Config} {e : ConfigurationError} : e ∈ configErrors cfg ↔
    e ∈ checkDivisors cfg ∨ e ∈ checkIds cfg ∨ e ∈ checkChannels cfg ∨ e ∈ checkFrames cfg ∨ e ∈ checkCrystal cfg ∨
    e ∈ checkCosts cfg ∨ e ∈ checkSources cfg ∨ e ∈ checkDmaBits cfg ∨ e ∈ checkRegisters cfg ∨
    e ∈ checkAddresses cfg ∨ e ∈ checkWidths cfg := by
  simp only [configErrors, List.mem_append, or_assoc]

/-- Check 1 reports each component with a divisor of 0, check 2 each one whose phase is not below its divisor. -/
theorem mem_checkDivisors {cfg : Config} {e : ConfigurationError} : e ∈ checkDivisors cfg ↔
    ∃ c ∈ cfg.components, (c.divisor = 0 ∧ e = ⟨1, some c.id⟩) ∨ (c.divisor ≤ c.phase ∧ e = ⟨2, some c.id⟩) := by
  simp only [checkDivisors, List.mem_flatMap, List.mem_append, List.mem_ite_nil_right, List.mem_ite_nil_left,
    List.mem_singleton, Nat.not_lt]

/-- A check made for each member of a list reports each one that fails it. -/
theorem mem_failEach {α : Type} {l : List α} {ok : α → Bool} {n : Nat} {id : α → Option Nat} {a : α} (ha : a ∈ l)
    (hbad : ok a = false) : ⟨n, id a⟩ ∈ failEach l ok n id :=
  List.mem_map_of_mem (List.mem_filter.mpr ⟨ha, by rw [hbad]; rfl⟩)

/-- Of two components that clash, the later one is among those reported. -/
theorem mem_clashing {clash : Component → Component → Bool} (pre mid post : List Component) {c d : Component}
    (h : clash c d = true) : d ∈ clashing clash (pre ++ c :: (mid ++ d :: post)) := by
  induction pre with
  | nil =>
    have hd : d ∈ mid ++ d :: post := List.mem_append_right mid List.mem_cons_self
    exact List.mem_append_left _ (List.mem_filter.mpr ⟨hd, h⟩)
  | cons a pre ih => exact List.mem_append_right _ ih

/-- Check 3 reports the components that clash with an earlier one, by their id or as a second CPU. -/
theorem mem_checkIds {cfg : Config} {d : Component}
    (h : d ∈ clashing sameId cfg.components ∨ d ∈ clashing bothCpu cfg.components) : ⟨3, some d.id⟩ ∈ checkIds cfg :=
  List.mem_map_of_mem (f := fun c : Component => (⟨3, some c.id⟩ : ConfigurationError)) (List.mem_append.mpr h)

/-- A registered channel has its component's id. -/
theorem channelId_of_componentOf {cfg : Config} {c : Channel} {k : Component}
    (h : componentOf cfg (.channel c) = some k) : channelId cfg c = some k.id := by
  rw [channelId, kindId, h, Option.map_some]

/-- Check 9 reports each channel whose DMA_BIT is above 14, with its component's id. -/
theorem mem_checkDmaBits {cfg : Config} {c : Channel} {k : Component} (hk : componentOf cfg (.channel c) = some k)
    (hc : c ∈ cfg.chans) (hbit : 14 < dmaBit cfg c) : ⟨9, some k.id⟩ ∈ checkDmaBits cfg :=
  channelId_of_componentOf hk ▸ mem_failEach hc (decide_eq_false (by omega))

/-- Check 7 reports each non-copper channel whose UNITS is 0, with its component's id. -/
theorem mem_checkCosts {cfg : Config} {c : Channel} {k : Component} (hk : componentOf cfg (.channel c) = some k)
    (hc : c ∈ cfg.dmaChans) (hunits : units cfg c = 0) : ⟨7, some k.id⟩ ∈ checkCosts cfg :=
  channelId_of_componentOf hk ▸ List.mem_append_right _ (mem_failEach hc (decide_eq_false (by omega)))

end Sys2Proof.Machine

namespace Sys2Proof.Proofs

open Sys2Proof.Machine

/-- Settles O52: every step from a sound state ends sound and free of fault, so every run does. -/
theorem soundRunsHaveNoFatalError : Obligations.SoundRunsHaveNoFatalError := by
  intro n s t hs hfault hrun
  refine run_keeps (P := fun s => s.sound = true ∧ s.blk.fault = none) ?_ ⟨hs, hfault⟩ hrun
  intro u v ⟨hu, _⟩ hstep
  exact ⟨stepKeepsSoundness u v hu hstep, fault_none_of_step hu hstep⟩

/-- Settles O44: P3 answers a state, and the tick is whole, or it refuses a reserved MOVE, which is recorded. -/
theorem guestNeverStopsTheBlock : Obligations.GuestNeverStopsTheBlock := by
  intro s hruns
  rcases step_of_runs hruns with ⟨t, hstep, hfault, hrefused⟩ | ⟨pc, ir1, hmove, hreserved, hstep⟩
  · exact ⟨t, hstep, hfault, .inl hrefused⟩
  · exact ⟨_, hstep, (not_stopped_of_runs hruns).1, .inr ⟨pc, ir1, rfl, hmove, hreserved⟩⟩

/-- Settles O56: the component fails check 1 or check 2, and a failed check is reported. -/
theorem badDivisorOrPhaseIsRejected : Obligations.BadDivisorOrPhaseIsRejected := by
  intro cfg c hc
  have hreport {e : ConfigurationError} (he : e ∈ checkDivisors cfg) :
      ∃ errs, configure cfg = .error errs ∧ e ∈ errs := configure_error (mem_configErrors.mpr (.inl he))
  exact ⟨fun hdiv => hreport (mem_checkDivisors.mpr ⟨c, hc, .inl ⟨hdiv, rfl⟩⟩),
    fun hphase => hreport (mem_checkDivisors.mpr ⟨c, hc, .inr ⟨hphase, rfl⟩⟩)⟩

/-- Settles O58: the later of two clashing components fails check 3, the channel fails check 9 or check 7, and a failed
check is reported. -/
theorem failedChecksNameTheirComponent : Obligations.FailedChecksNameTheirComponent := by
  refine fun cfg => ⟨fun pre mid post c d hsplit hclash => ?_, fun c k hk => ⟨fun hc hbit => ?_, fun hc hunits => ?_⟩⟩
  · have hd : d ∈ clashing sameId cfg.components ∨ d ∈ clashing bothCpu cfg.components := by
      rw [hsplit]
      rcases hclash with hid | ⟨hcpu, hcpu'⟩
      · exact .inl (mem_clashing pre mid post (beq_iff_eq.mpr hid))
      · exact .inr (mem_clashing pre mid post (by simp [bothCpu, hcpu, hcpu']))
    exact configure_error (mem_configErrors.mpr (.inr (.inl (mem_checkIds hd))))
  · exact configure_error (by simp only [mem_configErrors, mem_checkDmaBits hk hc hbit, true_or, or_true])
  · exact configure_error (by simp only [mem_configErrors, mem_checkCosts hk hc hunits, true_or, or_true])

end Sys2Proof.Proofs
end

section
/-! PROOFS. The statement about reset (70_reset_and_hazards.md): `reset()` gives the reset record of R311 under the sticky
records of before (R310) and keeps soundness. -/

namespace Sys2Proof.Machine

/-! ### The sticky records (R39) -/

/-- R43 says nothing of the sticky records. -/
@[simp] theorem brokenInvariant_sticky (cfg : Config) (b : Block) (f : Option FatalRecord) (r : Option RefuseReason) :
    brokenInvariant cfg { b with fault := f, refused := r } = brokenInvariant cfg b := rfl

/-- The types of R21 that `Block.typed` checks are not about the sticky records. -/
@[simp] theorem typed_sticky (cfg : Config) (b : Block) (f : Option FatalRecord) (r : Option RefuseReason) :
    Block.typed cfg { b with fault := f, refused := r } = b.typed cfg := rfl

/-! ### What `reset()` sets and keeps (R310, R311) -/

section hostResetFields
variable (s : State)

@[simp] theorem hostReset_cfg : (hostReset s).cfg = s.cfg := rfl
@[simp] theorem hostReset_mem : (hostReset s).mem = s.mem := rfl
@[simp] theorem hostReset_inputs : (hostReset s).inputs = s.inputs := rfl
@[simp] theorem hostReset_blk :
    (hostReset s).blk = { Block.fresh s.cfg with fault := s.blk.fault, refused := s.blk.refused } := rfl

end hostResetFields

/-- The reset record has the types of R21 and satisfies R43 under the configuration kept, and storage is kept as it
is. -/
theorem hostReset_sound {s : State} (h : s.sound = true) : (hostReset s).sound = true := by
  obtain ⟨hvalid, -, -, hwf, hspace⟩ := sound_iff.mp h
  rw [sound_iff, hostReset_cfg, hostReset_blk, hostReset_mem, typed_sticky, brokenInvariant_sticky]
  exact ⟨hvalid, Block.fresh_typed s.cfg, Block.fresh_inv (validFacts hvalid), hwf, hspace⟩

end Sys2Proof.Machine

namespace Sys2Proof.Proofs

open Sys2Proof.Machine

/-- Settles O53: the reset record under the old sticky records is sound whenever the state was, and its fields are the
values of R311. -/
theorem hostResetSetsEveryField : Obligations.HostResetSetsEveryField := by
  intro s
  exact ⟨hostReset_sound, hostReset_blk s, hostReset_cfg s, hostReset_mem s, hostReset_inputs s⟩

end Sys2Proof.Proofs
end
